-- ==== Sys2Proof/Word.lean ====
section
/-! DEFINITION. The word types of the machine (spec 00_scope.md R9, R11, R12). Bit i of every vector
has weight 2^i; `BitVec` addition is the notation `a +_w b` of R12. -/

namespace Sys2Proof

/-- A 32-bit value: register contents, pc, data address, instruction word (R9). -/
abbrev Word := BitVec 32

/-- One byte of data memory or of the output stream (R30, R42). -/
abbrev Byte := BitVec 8

/-- A general register index x0 to x31, as the 5-bit field of an instruction word (R20, R61). -/
abbrev RegIdx := BitVec 5

end Sys2Proof
end

