-- ==== Sys2Proof/Config.lean ====
section
/-! DEFINITION. The open parameters of the machine (spec 00_scope.md R10). They are constants of one
machine: `State` carries them as plain data, every statement holds for every value of them, and no
step changes them (assumption log 1, 2). The host's own parameters MAX_STEPS and SNAPSHOT_WINDOW are
arguments of the host loop (Machine/HostLoop.lean). -/

namespace Sys2Proof

/-- BRANCH_SET: which branch conditions the decoder recognises (R10, R74). -/
inductive BranchSet where
  | eqNeOnly
  | full
  deriving DecidableEq, Repr

/-- FDIV_MODE: the significand division algorithm of f32_div (R10, R185). -/
inductive FdivMode where
  | ieeeRne
  | literal
  deriving DecidableEq, Repr

/-- SUBNORMAL_REROUND: what the rounder's subnormal path starts from (R10, R177). -/
inductive SubnormalReround where
  | fromUnrounded
  | fromRounded
  deriving DecidableEq, Repr

/-- The open parameters of R10 that the core reads. -/
structure Config where
  /-- DATA_BASE: start of the data segment; bytes below it are unmapped (R43). -/
  dataBase : Word
  /-- MMIO_TX_ADDR: the transmit address (R44). -/
  mmioTxAddr : Word
  /-- BRANCH_SET (R74). -/
  branchSet : BranchSet
  /-- CANONICAL_NAN: the pattern of every NaN the FPU produces (R179). -/
  canonicalNan : Word
  /-- FDIV_MODE (R185). -/
  fdivMode : FdivMode
  /-- SUBNORMAL_REROUND (R177). -/
  subnormalReround : SubnormalReround
  deriving DecidableEq, Repr

/-- A 32-bit pattern is a NaN: exponent field all ones and fraction not zero (R171). -/
def Config.isNanPattern (w : Word) : Bool :=
  w.extractLsb' 23 8 == 0xFF#8 && w.extractLsb' 0 23 != 0#23

/-- The constraints R10 and R179 put on the parameters: DATA_BASE is a multiple of 4,
MMIO_TX_ADDR < DATA_BASE, and CANONICAL_NAN is a NaN pattern. -/
def Config.valid (c : Config) : Bool :=
  c.dataBase.extractLsb' 0 2 == 0#2 && c.mmioTxAddr.ult c.dataBase
    && Config.isNanPattern c.canonicalNan

/-- The configuration `State.reset` starts with. BRANCH_SET, CANONICAL_NAN, FDIV_MODE and
SUBNORMAL_REROUND have the defaults of R10. DESIGN CHOICE (unsafe, log 2): DATA_BASE and
MMIO_TX_ADDR are OPEN in the spec (D7, D8); the values are the test-only ones of
95_test_vectors.md. -/
def Config.default : Config where
  dataBase := 0x00001000#32
  mmioTxAddr := 0x00000800#32
  branchSet := .eqNeOnly
  canonicalNan := 0x7FC00000#32
  fdivMode := .ieeeRne
  subnormalReround := .fromUnrounded

end Sys2Proof
end

