-- ==== Sys2Proof/Syntax.lean ====
section
/-! DEFINITION. The syntax of the machine: one constructor of `Instr` per row of
spec/opcode_table.json, with the operands of its format (spec 30_encoding.md R61 to R68, operand
order of R78). Immediates are held as the encoded field: 12 bits for I and S, 13 bits with bit 0
for B, 20 bits for U, 21 bits with bit 0 for J. -/

namespace Sys2Proof

/-- The instructions of spec/opcode_table.json (rule in each docstring). -/
inductive Instr where
  /-- ADD (R113). -/
  | add (rd rs1 rs2 : RegIdx)
  /-- SUB (R114). -/
  | sub (rd rs1 rs2 : RegIdx)
  /-- SLL (R115). -/
  | sll (rd rs1 rs2 : RegIdx)
  /-- SLT (R116). -/
  | slt (rd rs1 rs2 : RegIdx)
  /-- SLTU (R117). -/
  | sltu (rd rs1 rs2 : RegIdx)
  /-- XOR (R118). -/
  | xor (rd rs1 rs2 : RegIdx)
  /-- SRL (R119). -/
  | srl (rd rs1 rs2 : RegIdx)
  /-- SRA (R120). -/
  | sra (rd rs1 rs2 : RegIdx)
  /-- OR (R121). -/
  | or (rd rs1 rs2 : RegIdx)
  /-- AND (R122). -/
  | and (rd rs1 rs2 : RegIdx)
  /-- ADDI (R123). -/
  | addi (rd rs1 : RegIdx) (imm : BitVec 12)
  /-- SLTI (R124). -/
  | slti (rd rs1 : RegIdx) (imm : BitVec 12)
  /-- SLTIU (R125). -/
  | sltiu (rd rs1 : RegIdx) (imm : BitVec 12)
  /-- XORI (R126). -/
  | xori (rd rs1 : RegIdx) (imm : BitVec 12)
  /-- ORI (R127). -/
  | ori (rd rs1 : RegIdx) (imm : BitVec 12)
  /-- ANDI (R128). -/
  | andi (rd rs1 : RegIdx) (imm : BitVec 12)
  /-- SLLI (R129). -/
  | slli (rd rs1 : RegIdx) (shamt : BitVec 5)
  /-- SRLI (R130). -/
  | srli (rd rs1 : RegIdx) (shamt : BitVec 5)
  /-- SRAI (R131). -/
  | srai (rd rs1 : RegIdx) (shamt : BitVec 5)
  /-- MUL (R151). -/
  | mul (rd rs1 rs2 : RegIdx)
  /-- MULH (R152). -/
  | mulh (rd rs1 rs2 : RegIdx)
  /-- MULHSU (R153). -/
  | mulhsu (rd rs1 rs2 : RegIdx)
  /-- MULHU (R154). -/
  | mulhu (rd rs1 rs2 : RegIdx)
  /-- DIV (R155). -/
  | div (rd rs1 rs2 : RegIdx)
  /-- DIVU (R156). -/
  | divu (rd rs1 rs2 : RegIdx)
  /-- REM (R157). -/
  | rem (rd rs1 rs2 : RegIdx)
  /-- REMU (R158). -/
  | remu (rd rs1 rs2 : RegIdx)
  /-- LUI (R231). -/
  | lui (rd : RegIdx) (imm20 : BitVec 20)
  /-- AUIPC (R232). -/
  | auipc (rd : RegIdx) (imm20 : BitVec 20)
  /-- JAL (R233). -/
  | jal (rd : RegIdx) (offset : BitVec 21)
  /-- JALR (R234). -/
  | jalr (rd rs1 : RegIdx) (imm : BitVec 12)
  /-- BEQ (R235). -/
  | beq (rs1 rs2 : RegIdx) (offset : BitVec 13)
  /-- BNE (R236). -/
  | bne (rs1 rs2 : RegIdx) (offset : BitVec 13)
  /-- BLT (R237). -/
  | blt (rs1 rs2 : RegIdx) (offset : BitVec 13)
  /-- BGE (R238). -/
  | bge (rs1 rs2 : RegIdx) (offset : BitVec 13)
  /-- BLTU (R239). -/
  | bltu (rs1 rs2 : RegIdx) (offset : BitVec 13)
  /-- BGEU (R240). -/
  | bgeu (rs1 rs2 : RegIdx) (offset : BitVec 13)
  /-- LB (R252). -/
  | lb (rd rs1 : RegIdx) (imm : BitVec 12)
  /-- LH (R253). -/
  | lh (rd rs1 : RegIdx) (imm : BitVec 12)
  /-- LW (R254). -/
  | lw (rd rs1 : RegIdx) (imm : BitVec 12)
  /-- LBU (R255). -/
  | lbu (rd rs1 : RegIdx) (imm : BitVec 12)
  /-- LHU (R256). -/
  | lhu (rd rs1 : RegIdx) (imm : BitVec 12)
  /-- SB (R257). -/
  | sb (rs2 rs1 : RegIdx) (imm : BitVec 12)
  /-- SH (R258). -/
  | sh (rs2 rs1 : RegIdx) (imm : BitVec 12)
  /-- SW (R259). -/
  | sw (rs2 rs1 : RegIdx) (imm : BitVec 12)
  /-- HALT (R213). -/
  | halt
  deriving DecidableEq, Repr

/-- The names of the rows of spec/opcode_table.json: the `op` output of the decoder (R69). -/
inductive Mnemonic where
  | add | sub | sll | slt | sltu | xor | srl | sra
  | or | and | addi | slti | sltiu | xori | ori | andi
  | slli | srli | srai | mul | mulh | mulhsu | mulhu | div
  | divu | rem | remu | lui | auipc | jal | jalr | beq
  | bne | blt | bge | bltu | bgeu | lb | lh | lw
  | lbu | lhu | sb | sh | sw | halt
  deriving DecidableEq, Repr

/-- The row an instruction belongs to. -/
def Instr.mnemonic : Instr → Mnemonic
  | .add _ _ _ => .add
  | .sub _ _ _ => .sub
  | .sll _ _ _ => .sll
  | .slt _ _ _ => .slt
  | .sltu _ _ _ => .sltu
  | .xor _ _ _ => .xor
  | .srl _ _ _ => .srl
  | .sra _ _ _ => .sra
  | .or _ _ _ => .or
  | .and _ _ _ => .and
  | .addi _ _ _ => .addi
  | .slti _ _ _ => .slti
  | .sltiu _ _ _ => .sltiu
  | .xori _ _ _ => .xori
  | .ori _ _ _ => .ori
  | .andi _ _ _ => .andi
  | .slli _ _ _ => .slli
  | .srli _ _ _ => .srli
  | .srai _ _ _ => .srai
  | .mul _ _ _ => .mul
  | .mulh _ _ _ => .mulh
  | .mulhsu _ _ _ => .mulhsu
  | .mulhu _ _ _ => .mulhu
  | .div _ _ _ => .div
  | .divu _ _ _ => .divu
  | .rem _ _ _ => .rem
  | .remu _ _ _ => .remu
  | .lui _ _ => .lui
  | .auipc _ _ => .auipc
  | .jal _ _ => .jal
  | .jalr _ _ _ => .jalr
  | .beq _ _ _ => .beq
  | .bne _ _ _ => .bne
  | .blt _ _ _ => .blt
  | .bge _ _ _ => .bge
  | .bltu _ _ _ => .bltu
  | .bgeu _ _ _ => .bgeu
  | .lb _ _ _ => .lb
  | .lh _ _ _ => .lh
  | .lw _ _ _ => .lw
  | .lbu _ _ _ => .lbu
  | .lhu _ _ _ => .lhu
  | .sb _ _ _ => .sb
  | .sh _ _ _ => .sh
  | .sw _ _ _ => .sw
  | .halt => .halt

/-- The mnemonic in the table's spelling (R78: upper case). -/
def Mnemonic.name : Mnemonic → String
  | .add => "ADD"
  | .sub => "SUB"
  | .sll => "SLL"
  | .slt => "SLT"
  | .sltu => "SLTU"
  | .xor => "XOR"
  | .srl => "SRL"
  | .sra => "SRA"
  | .or => "OR"
  | .and => "AND"
  | .addi => "ADDI"
  | .slti => "SLTI"
  | .sltiu => "SLTIU"
  | .xori => "XORI"
  | .ori => "ORI"
  | .andi => "ANDI"
  | .slli => "SLLI"
  | .srli => "SRLI"
  | .srai => "SRAI"
  | .mul => "MUL"
  | .mulh => "MULH"
  | .mulhsu => "MULHSU"
  | .mulhu => "MULHU"
  | .div => "DIV"
  | .divu => "DIVU"
  | .rem => "REM"
  | .remu => "REMU"
  | .lui => "LUI"
  | .auipc => "AUIPC"
  | .jal => "JAL"
  | .jalr => "JALR"
  | .beq => "BEQ"
  | .bne => "BNE"
  | .blt => "BLT"
  | .bge => "BGE"
  | .bltu => "BLTU"
  | .bgeu => "BGEU"
  | .lb => "LB"
  | .lh => "LH"
  | .lw => "LW"
  | .lbu => "LBU"
  | .lhu => "LHU"
  | .sb => "SB"
  | .sh => "SH"
  | .sw => "SW"
  | .halt => "HALT"

end Sys2Proof
end

