-- ==== Sys2Proof/WellFormed.lean ====
section
/-! DEFINITION. Which terms of `Instr` stand for an instruction word. Branch and JAL offsets are even
(spec 30_encoding.md R65, R67), and the word of JAL x0, 0 is HALT and never JAL (R76, R213). A
well-formed BLT, BGE, BLTU or BGEU exists only when BRANCH_SET = FULL (R74). -/

namespace Sys2Proof

/-- Bit 0 of a branch or jump offset is 0: the encodings hold no bit for it (R65, R67). -/
def evenOffset {n : Nat} (offset : BitVec n) : Bool :=
  !offset.getLsbD 0

/-- JAL with rd = x0 and offset 0: its word is the halt sentinel (R213). -/
def isHaltSentinel (rd : RegIdx) (offset : BitVec 21) : Bool :=
  rd == 0#5 && offset == 0#21

/-- The instruction has an encoding of its own. -/
def Instr.wellFormed : Instr → Bool
  | .add _ _ _ => true
  | .sub _ _ _ => true
  | .sll _ _ _ => true
  | .slt _ _ _ => true
  | .sltu _ _ _ => true
  | .xor _ _ _ => true
  | .srl _ _ _ => true
  | .sra _ _ _ => true
  | .or _ _ _ => true
  | .and _ _ _ => true
  | .addi _ _ _ => true
  | .slti _ _ _ => true
  | .sltiu _ _ _ => true
  | .xori _ _ _ => true
  | .ori _ _ _ => true
  | .andi _ _ _ => true
  | .slli _ _ _ => true
  | .srli _ _ _ => true
  | .srai _ _ _ => true
  | .mul _ _ _ => true
  | .mulh _ _ _ => true
  | .mulhsu _ _ _ => true
  | .mulhu _ _ _ => true
  | .div _ _ _ => true
  | .divu _ _ _ => true
  | .rem _ _ _ => true
  | .remu _ _ _ => true
  | .lui _ _ => true
  | .auipc _ _ => true
  | .jal rd offset => evenOffset offset && !isHaltSentinel rd offset
  | .jalr _ _ _ => true
  | .beq _ _ offset => evenOffset offset
  | .bne _ _ offset => evenOffset offset
  | .blt _ _ offset => evenOffset offset
  | .bge _ _ offset => evenOffset offset
  | .bltu _ _ offset => evenOffset offset
  | .bgeu _ _ offset => evenOffset offset
  | .lb _ _ _ => true
  | .lh _ _ _ => true
  | .lw _ _ _ => true
  | .lbu _ _ _ => true
  | .lhu _ _ _ => true
  | .sb _ _ _ => true
  | .sh _ _ _ => true
  | .sw _ _ _ => true
  | .halt => true

/-- The row is recognised under the given BRANCH_SET (R74, R75). -/
def Mnemonic.availableIn (bs : BranchSet) : Mnemonic → Bool
  | .add => true
  | .sub => true
  | .sll => true
  | .slt => true
  | .sltu => true
  | .xor => true
  | .srl => true
  | .sra => true
  | .or => true
  | .and => true
  | .addi => true
  | .slti => true
  | .sltiu => true
  | .xori => true
  | .ori => true
  | .andi => true
  | .slli => true
  | .srli => true
  | .srai => true
  | .mul => true
  | .mulh => true
  | .mulhsu => true
  | .mulhu => true
  | .div => true
  | .divu => true
  | .rem => true
  | .remu => true
  | .lui => true
  | .auipc => true
  | .jal => true
  | .jalr => true
  | .beq => true
  | .bne => true
  | .blt => bs == .full
  | .bge => bs == .full
  | .bltu => bs == .full
  | .bgeu => bs == .full
  | .lb => true
  | .lh => true
  | .lw => true
  | .lbu => true
  | .lhu => true
  | .sb => true
  | .sh => true
  | .sw => true
  | .halt => true

end Sys2Proof
end

