-- ==== Sys2Proof/Decode.lean ====
section
/-! DEFINITION. The decoder (spec 30_encoding.md R60 to R76), total on every 32-bit word, and after it
the encoder, written from the same tables; the opcode table itself as data, with the priority of
R76; and `decodeTableWord`, the decoder on a word of the opcode table. Every bit position and code
is the spec's D2 choice, the standard RV32I / RV32M encoding. -/

namespace Sys2Proof

/-! ### Fields (R61) -/

/-- Opcode field w[6:0]. -/
def opcodeOf (w : Word) : BitVec 7 := w.extractLsb' 0 7
/-- rd field w[11:7]. -/
def rdOf (w : Word) : RegIdx := w.extractLsb' 7 5
/-- funct3 field w[14:12]. -/
def funct3Of (w : Word) : BitVec 3 := w.extractLsb' 12 3
/-- rs1 field w[19:15]. -/
def rs1Of (w : Word) : RegIdx := w.extractLsb' 15 5
/-- rs2 field w[24:20]. -/
def rs2Of (w : Word) : RegIdx := w.extractLsb' 20 5
/-- funct7 field w[31:25]. -/
def funct7Of (w : Word) : BitVec 7 := w.extractLsb' 25 7
/-- Shift amount w[24:20] of SLLI, SRLI and SRAI (R68). -/
def shamtOf (w : Word) : BitVec 5 := w.extractLsb' 20 5

/-! ### Immediate fields, before extension (R62) -/

/-- The 12 immediate bits of an I word: w[31:20] (R63). -/
def iFieldOf (w : Word) : BitVec 12 := w.extractLsb' 20 12
/-- The 12 immediate bits of an S word: w[31:25], w[11:7] (R64). -/
def sFieldOf (w : Word) : BitVec 12 := w.extractLsb' 25 7 ++ w.extractLsb' 7 5
/-- The 13-bit offset of a B word: w[31], w[7], w[30:25], w[11:8], 0 (R65). -/
def bFieldOf (w : Word) : BitVec 13 :=
  w.extractLsb' 31 1 ++ w.extractLsb' 7 1 ++ w.extractLsb' 25 6 ++ w.extractLsb' 8 4 ++ 0#1
/-- The 20 immediate bits of a U word: w[31:12] (R66). -/
def uFieldOf (w : Word) : BitVec 20 := w.extractLsb' 12 20
/-- The 21-bit offset of a J word: w[31], w[19:12], w[20], w[30:21], 0 (R67). -/
def jFieldOf (w : Word) : BitVec 21 :=
  w.extractLsb' 31 1 ++ w.extractLsb' 12 8 ++ w.extractLsb' 20 1 ++ w.extractLsb' 21 10 ++ 0#1

/-! ### Immediates (R63 to R67) -/

/-- Sign-extension of an immediate field to 32 bits (R12, R63). -/
def immSext {n : Nat} (field : BitVec n) : Word := field.signExtend 32
/-- The U-immediate of a 20-bit field: the low 12 bits are zero (R66). -/
def immUpper (imm20 : BitVec 20) : Word := imm20 ++ 0#12

/-- imm_I (R63). -/
def immIOf (w : Word) : Word := immSext (iFieldOf w)
/-- imm_S (R64). -/
def immSOf (w : Word) : Word := immSext (sFieldOf w)
/-- imm_B (R65). -/
def immBOf (w : Word) : Word := immSext (bFieldOf w)
/-- imm_U (R66). -/
def immUOf (w : Word) : Word := immUpper (uFieldOf w)
/-- imm_J (R67). -/
def immJOf (w : Word) : Word := immSext (jFieldOf w)

/-! ### The decoder -/

/-- Why a word is unrecognised (R75). It is no fault: the engine runs such a word as a no-op
(R214). -/
inductive Unrecognised where
  /-- The major opcode is none of R70 (w[1:0] other than 0b11 among them, R60). -/
  | majorOpcode
  /-- OP with a (funct7, funct3) pair that R71 does not list. -/
  | opFunction
  /-- OP-IMM shift with w[31:25] that R72 does not list. -/
  | opImmFunction
  /-- LOAD with funct3 that R73 does not list. -/
  | loadFunction
  /-- STORE with funct3 that R73 does not list. -/
  | storeFunction
  /-- BRANCH with funct3 that R74 does not list under the current BRANCH_SET. -/
  | branchFunction
  /-- JALR with funct3 other than 000 (R74). -/
  | jalrFunction
  deriving DecidableEq, Repr

/-- What the decoder says of a word: an instruction with its operands, or unrecognised, by name. -/
inductive Decoded where
  | instr (i : Instr)
  | unrecognised (why : Unrecognised)
  deriving DecidableEq, Repr

/-- OP words by funct7 and funct3 (R71). -/
def decodeOp (w : Word) : Decoded :=
  let rd := rdOf w
  let rs1 := rs1Of w
  let rs2 := rs2Of w
  match funct7Of w, funct3Of w with
  | 0b0000000#7, 0b000#3 => .instr (.add rd rs1 rs2)
  | 0b0100000#7, 0b000#3 => .instr (.sub rd rs1 rs2)
  | 0b0000000#7, 0b001#3 => .instr (.sll rd rs1 rs2)
  | 0b0000000#7, 0b010#3 => .instr (.slt rd rs1 rs2)
  | 0b0000000#7, 0b011#3 => .instr (.sltu rd rs1 rs2)
  | 0b0000000#7, 0b100#3 => .instr (.xor rd rs1 rs2)
  | 0b0000000#7, 0b101#3 => .instr (.srl rd rs1 rs2)
  | 0b0100000#7, 0b101#3 => .instr (.sra rd rs1 rs2)
  | 0b0000000#7, 0b110#3 => .instr (.or rd rs1 rs2)
  | 0b0000000#7, 0b111#3 => .instr (.and rd rs1 rs2)
  | 0b0000001#7, 0b000#3 => .instr (.mul rd rs1 rs2)
  | 0b0000001#7, 0b001#3 => .instr (.mulh rd rs1 rs2)
  | 0b0000001#7, 0b010#3 => .instr (.mulhsu rd rs1 rs2)
  | 0b0000001#7, 0b011#3 => .instr (.mulhu rd rs1 rs2)
  | 0b0000001#7, 0b100#3 => .instr (.div rd rs1 rs2)
  | 0b0000001#7, 0b101#3 => .instr (.divu rd rs1 rs2)
  | 0b0000001#7, 0b110#3 => .instr (.rem rd rs1 rs2)
  | 0b0000001#7, 0b111#3 => .instr (.remu rd rs1 rs2)
  | _, _ => .unrecognised .opFunction

/-- OP-IMM words by funct3, and for the shifts also by w[31:25] (R72). -/
def decodeOpImm (w : Word) : Decoded :=
  let rd := rdOf w
  let rs1 := rs1Of w
  match funct3Of w with
  | 0b000#3 => .instr (.addi rd rs1 (iFieldOf w))
  | 0b010#3 => .instr (.slti rd rs1 (iFieldOf w))
  | 0b011#3 => .instr (.sltiu rd rs1 (iFieldOf w))
  | 0b100#3 => .instr (.xori rd rs1 (iFieldOf w))
  | 0b110#3 => .instr (.ori rd rs1 (iFieldOf w))
  | 0b111#3 => .instr (.andi rd rs1 (iFieldOf w))
  | 0b001#3 =>
    match funct7Of w with
    | 0b0000000#7 => .instr (.slli rd rs1 (shamtOf w))
    | _ => .unrecognised .opImmFunction
  | 0b101#3 =>
    match funct7Of w with
    | 0b0000000#7 => .instr (.srli rd rs1 (shamtOf w))
    | 0b0100000#7 => .instr (.srai rd rs1 (shamtOf w))
    | _ => .unrecognised .opImmFunction
  | _ => .unrecognised .opImmFunction

/-- LOAD words by funct3 (R73). -/
def decodeLoad (w : Word) : Decoded :=
  match funct3Of w with
  | 0b000#3 => .instr (.lb (rdOf w) (rs1Of w) (iFieldOf w))
  | 0b001#3 => .instr (.lh (rdOf w) (rs1Of w) (iFieldOf w))
  | 0b010#3 => .instr (.lw (rdOf w) (rs1Of w) (iFieldOf w))
  | 0b100#3 => .instr (.lbu (rdOf w) (rs1Of w) (iFieldOf w))
  | 0b101#3 => .instr (.lhu (rdOf w) (rs1Of w) (iFieldOf w))
  | _ => .unrecognised .loadFunction

/-- STORE words by funct3 (R73). -/
def decodeStore (w : Word) : Decoded :=
  match funct3Of w with
  | 0b000#3 => .instr (.sb (rs2Of w) (rs1Of w) (sFieldOf w))
  | 0b001#3 => .instr (.sh (rs2Of w) (rs1Of w) (sFieldOf w))
  | 0b010#3 => .instr (.sw (rs2Of w) (rs1Of w) (sFieldOf w))
  | _ => .unrecognised .storeFunction

/-- A branch that exists only when BRANCH_SET = FULL (R74). -/
def decodeFullBranch (bs : BranchSet) (i : Instr) : Decoded :=
  match bs with
  | .full => .instr i
  | .eqNeOnly => .unrecognised .branchFunction

/-- BRANCH words by funct3 and BRANCH_SET (R74). -/
def decodeBranch (bs : BranchSet) (w : Word) : Decoded :=
  let rs1 := rs1Of w
  let rs2 := rs2Of w
  let offset := bFieldOf w
  match funct3Of w with
  | 0b000#3 => .instr (.beq rs1 rs2 offset)
  | 0b001#3 => .instr (.bne rs1 rs2 offset)
  | 0b100#3 => decodeFullBranch bs (.blt rs1 rs2 offset)
  | 0b101#3 => decodeFullBranch bs (.bge rs1 rs2 offset)
  | 0b110#3 => decodeFullBranch bs (.bltu rs1 rs2 offset)
  | 0b111#3 => decodeFullBranch bs (.bgeu rs1 rs2 offset)
  | _ => .unrecognised .branchFunction

/-- JALR words need funct3 = 000 (R74). -/
def decodeJalr (w : Word) : Decoded :=
  match funct3Of w with
  | 0b000#3 => .instr (.jalr (rdOf w) (rs1Of w) (iFieldOf w))
  | _ => .unrecognised .jalrFunction

/-- The word that halts the engine: JAL x0, 0 (R213). -/
def haltWord : Word := 0x0000006F#32

/-- The decoder (R69): the halt sentinel first (R76), then by major opcode (R70). -/
def decode (bs : BranchSet) (w : Word) : Decoded :=
  if w = haltWord then .instr .halt
  else
    match opcodeOf w with
    | 0b0110111#7 => .instr (.lui (rdOf w) (uFieldOf w))
    | 0b0010111#7 => .instr (.auipc (rdOf w) (uFieldOf w))
    | 0b1101111#7 => .instr (.jal (rdOf w) (jFieldOf w))
    | 0b1100111#7 => decodeJalr w
    | 0b1100011#7 => decodeBranch bs w
    | 0b0000011#7 => decodeLoad w
    | 0b0100011#7 => decodeStore w
    | 0b0010011#7 => decodeOpImm w
    | 0b0110011#7 => decodeOp w
    | _ => .unrecognised .majorOpcode

/-- The instruction the decoder read, if any. -/
def Decoded.toOption : Decoded → Option Instr
  | .instr i => some i
  | .unrecognised _ => none

/-- Every output of the decoder unit, computed for every word (R69). `op` is none for an
unrecognised word. -/
structure DecoderPort where
  opcode : BitVec 7
  rd : RegIdx
  funct3 : BitVec 3
  rs1 : RegIdx
  rs2 : RegIdx
  funct7 : BitVec 7
  immI : Word
  immS : Word
  immB : Word
  immU : Word
  immJ : Word
  shamt : BitVec 5
  op : Option Mnemonic
  deriving DecidableEq, Repr

/-- The decoder unit's port (R69). -/
def decoderPort (bs : BranchSet) (w : Word) : DecoderPort where
  opcode := opcodeOf w
  rd := rdOf w
  funct3 := funct3Of w
  rs1 := rs1Of w
  rs2 := rs2Of w
  funct7 := funct7Of w
  immI := immIOf w
  immS := immSOf w
  immB := immBOf w
  immU := immUOf w
  immJ := immJOf w
  shamt := shamtOf w
  op := (decode bs w).toOption.map Instr.mnemonic

/-! ### The encoder -/

/-- R format (R62). -/
def encodeR (funct7 : BitVec 7) (rs2 rs1 : RegIdx) (funct3 : BitVec 3) (rd : RegIdx)
    (opcode : BitVec 7) : Word :=
  funct7 ++ rs2 ++ rs1 ++ funct3 ++ rd ++ opcode

/-- I format (R62). -/
def encodeI (imm : BitVec 12) (rs1 : RegIdx) (funct3 : BitVec 3) (rd : RegIdx)
    (opcode : BitVec 7) : Word :=
  imm ++ rs1 ++ funct3 ++ rd ++ opcode

/-- S format (R62). -/
def encodeS (imm : BitVec 12) (rs2 rs1 : RegIdx) (funct3 : BitVec 3) (opcode : BitVec 7) : Word :=
  imm.extractLsb' 5 7 ++ rs2 ++ rs1 ++ funct3 ++ imm.extractLsb' 0 5 ++ opcode

/-- B format (R62): imm[12] imm[10:5] rs2 rs1 funct3 imm[4:1] imm[11] opcode. -/
def encodeB (offset : BitVec 13) (rs2 rs1 : RegIdx) (funct3 : BitVec 3) (opcode : BitVec 7) :
    Word :=
  offset.extractLsb' 12 1 ++ offset.extractLsb' 5 6 ++ rs2 ++ rs1 ++ funct3
    ++ offset.extractLsb' 1 4 ++ offset.extractLsb' 11 1 ++ opcode

/-- U format (R62). -/
def encodeU (imm20 : BitVec 20) (rd : RegIdx) (opcode : BitVec 7) : Word :=
  imm20 ++ rd ++ opcode

/-- J format (R62): imm[20] imm[10:1] imm[11] imm[19:12] rd opcode. -/
def encodeJ (offset : BitVec 21) (rd : RegIdx) (opcode : BitVec 7) : Word :=
  offset.extractLsb' 20 1 ++ offset.extractLsb' 1 10 ++ offset.extractLsb' 11 1
    ++ offset.extractLsb' 12 8 ++ rd ++ opcode

/-- The word of a well-formed instruction (R70 to R74, R213). -/
def encode : Instr → Word
  | .add rd rs1 rs2 => encodeR 0b0000000#7 rs2 rs1 0b000#3 rd 0b0110011#7
  | .sub rd rs1 rs2 => encodeR 0b0100000#7 rs2 rs1 0b000#3 rd 0b0110011#7
  | .sll rd rs1 rs2 => encodeR 0b0000000#7 rs2 rs1 0b001#3 rd 0b0110011#7
  | .slt rd rs1 rs2 => encodeR 0b0000000#7 rs2 rs1 0b010#3 rd 0b0110011#7
  | .sltu rd rs1 rs2 => encodeR 0b0000000#7 rs2 rs1 0b011#3 rd 0b0110011#7
  | .xor rd rs1 rs2 => encodeR 0b0000000#7 rs2 rs1 0b100#3 rd 0b0110011#7
  | .srl rd rs1 rs2 => encodeR 0b0000000#7 rs2 rs1 0b101#3 rd 0b0110011#7
  | .sra rd rs1 rs2 => encodeR 0b0100000#7 rs2 rs1 0b101#3 rd 0b0110011#7
  | .or rd rs1 rs2 => encodeR 0b0000000#7 rs2 rs1 0b110#3 rd 0b0110011#7
  | .and rd rs1 rs2 => encodeR 0b0000000#7 rs2 rs1 0b111#3 rd 0b0110011#7
  | .addi rd rs1 imm => encodeI imm rs1 0b000#3 rd 0b0010011#7
  | .slti rd rs1 imm => encodeI imm rs1 0b010#3 rd 0b0010011#7
  | .sltiu rd rs1 imm => encodeI imm rs1 0b011#3 rd 0b0010011#7
  | .xori rd rs1 imm => encodeI imm rs1 0b100#3 rd 0b0010011#7
  | .ori rd rs1 imm => encodeI imm rs1 0b110#3 rd 0b0010011#7
  | .andi rd rs1 imm => encodeI imm rs1 0b111#3 rd 0b0010011#7
  | .slli rd rs1 shamt => encodeR 0b0000000#7 shamt rs1 0b001#3 rd 0b0010011#7
  | .srli rd rs1 shamt => encodeR 0b0000000#7 shamt rs1 0b101#3 rd 0b0010011#7
  | .srai rd rs1 shamt => encodeR 0b0100000#7 shamt rs1 0b101#3 rd 0b0010011#7
  | .mul rd rs1 rs2 => encodeR 0b0000001#7 rs2 rs1 0b000#3 rd 0b0110011#7
  | .mulh rd rs1 rs2 => encodeR 0b0000001#7 rs2 rs1 0b001#3 rd 0b0110011#7
  | .mulhsu rd rs1 rs2 => encodeR 0b0000001#7 rs2 rs1 0b010#3 rd 0b0110011#7
  | .mulhu rd rs1 rs2 => encodeR 0b0000001#7 rs2 rs1 0b011#3 rd 0b0110011#7
  | .div rd rs1 rs2 => encodeR 0b0000001#7 rs2 rs1 0b100#3 rd 0b0110011#7
  | .divu rd rs1 rs2 => encodeR 0b0000001#7 rs2 rs1 0b101#3 rd 0b0110011#7
  | .rem rd rs1 rs2 => encodeR 0b0000001#7 rs2 rs1 0b110#3 rd 0b0110011#7
  | .remu rd rs1 rs2 => encodeR 0b0000001#7 rs2 rs1 0b111#3 rd 0b0110011#7
  | .lui rd imm20 => encodeU imm20 rd 0b0110111#7
  | .auipc rd imm20 => encodeU imm20 rd 0b0010111#7
  | .jal rd offset => encodeJ offset rd 0b1101111#7
  | .jalr rd rs1 imm => encodeI imm rs1 0b000#3 rd 0b1100111#7
  | .beq rs1 rs2 offset => encodeB offset rs2 rs1 0b000#3 0b1100011#7
  | .bne rs1 rs2 offset => encodeB offset rs2 rs1 0b001#3 0b1100011#7
  | .blt rs1 rs2 offset => encodeB offset rs2 rs1 0b100#3 0b1100011#7
  | .bge rs1 rs2 offset => encodeB offset rs2 rs1 0b101#3 0b1100011#7
  | .bltu rs1 rs2 offset => encodeB offset rs2 rs1 0b110#3 0b1100011#7
  | .bgeu rs1 rs2 offset => encodeB offset rs2 rs1 0b111#3 0b1100011#7
  | .lb rd rs1 imm => encodeI imm rs1 0b000#3 rd 0b0000011#7
  | .lh rd rs1 imm => encodeI imm rs1 0b001#3 rd 0b0000011#7
  | .lw rd rs1 imm => encodeI imm rs1 0b010#3 rd 0b0000011#7
  | .lbu rd rs1 imm => encodeI imm rs1 0b100#3 rd 0b0000011#7
  | .lhu rd rs1 imm => encodeI imm rs1 0b101#3 rd 0b0000011#7
  | .sb rs2 rs1 imm => encodeS imm rs2 rs1 0b000#3 0b0100011#7
  | .sh rs2 rs1 imm => encodeS imm rs2 rs1 0b001#3 0b0100011#7
  | .sw rs2 rs1 imm => encodeS imm rs2 rs1 0b010#3 0b0100011#7
  | .halt => haltWord

/-! ### The opcode table as data -/

/-- One row of spec/opcode_table.json: a word w is of the row when w &&& mask = pattern (R76). -/
structure OpcodeRow where
  mnemonic : Mnemonic
  pattern : Word
  mask : Word
  deriving DecidableEq, Repr

/-- The OP rows of the ALU (R71). -/
def opRows : List OpcodeRow :=
  [⟨.add, 0x00000033#32, 0xFE00707F#32⟩,
   ⟨.sub, 0x40000033#32, 0xFE00707F#32⟩,
   ⟨.sll, 0x00001033#32, 0xFE00707F#32⟩,
   ⟨.slt, 0x00002033#32, 0xFE00707F#32⟩,
   ⟨.sltu, 0x00003033#32, 0xFE00707F#32⟩,
   ⟨.xor, 0x00004033#32, 0xFE00707F#32⟩,
   ⟨.srl, 0x00005033#32, 0xFE00707F#32⟩,
   ⟨.sra, 0x40005033#32, 0xFE00707F#32⟩,
   ⟨.or, 0x00006033#32, 0xFE00707F#32⟩,
   ⟨.and, 0x00007033#32, 0xFE00707F#32⟩]

/-- The OP rows of the MDU (R71). -/
def mduRows : List OpcodeRow :=
  [⟨.mul, 0x02000033#32, 0xFE00707F#32⟩,
   ⟨.mulh, 0x02001033#32, 0xFE00707F#32⟩,
   ⟨.mulhsu, 0x02002033#32, 0xFE00707F#32⟩,
   ⟨.mulhu, 0x02003033#32, 0xFE00707F#32⟩,
   ⟨.div, 0x02004033#32, 0xFE00707F#32⟩,
   ⟨.divu, 0x02005033#32, 0xFE00707F#32⟩,
   ⟨.rem, 0x02006033#32, 0xFE00707F#32⟩,
   ⟨.remu, 0x02007033#32, 0xFE00707F#32⟩]

/-- The OP-IMM rows (R72). -/
def opImmRows : List OpcodeRow :=
  [⟨.addi, 0x00000013#32, 0x0000707F#32⟩,
   ⟨.slti, 0x00002013#32, 0x0000707F#32⟩,
   ⟨.sltiu, 0x00003013#32, 0x0000707F#32⟩,
   ⟨.xori, 0x00004013#32, 0x0000707F#32⟩,
   ⟨.ori, 0x00006013#32, 0x0000707F#32⟩,
   ⟨.andi, 0x00007013#32, 0x0000707F#32⟩,
   ⟨.slli, 0x00001013#32, 0xFE00707F#32⟩,
   ⟨.srli, 0x00005013#32, 0xFE00707F#32⟩,
   ⟨.srai, 0x40005013#32, 0xFE00707F#32⟩]

/-- The upper-immediate, jump and branch rows (R70, R74). -/
def transferRows : List OpcodeRow :=
  [⟨.lui, 0x00000037#32, 0x0000007F#32⟩,
   ⟨.auipc, 0x00000017#32, 0x0000007F#32⟩,
   ⟨.jal, 0x0000006F#32, 0x0000007F#32⟩,
   ⟨.jalr, 0x00000067#32, 0x0000707F#32⟩,
   ⟨.beq, 0x00000063#32, 0x0000707F#32⟩,
   ⟨.bne, 0x00001063#32, 0x0000707F#32⟩,
   ⟨.blt, 0x00004063#32, 0x0000707F#32⟩,
   ⟨.bge, 0x00005063#32, 0x0000707F#32⟩,
   ⟨.bltu, 0x00006063#32, 0x0000707F#32⟩,
   ⟨.bgeu, 0x00007063#32, 0x0000707F#32⟩]

/-- The load and store rows (R73). -/
def memoryRows : List OpcodeRow :=
  [⟨.lb, 0x00000003#32, 0x0000707F#32⟩,
   ⟨.lh, 0x00001003#32, 0x0000707F#32⟩,
   ⟨.lw, 0x00002003#32, 0x0000707F#32⟩,
   ⟨.lbu, 0x00004003#32, 0x0000707F#32⟩,
   ⟨.lhu, 0x00005003#32, 0x0000707F#32⟩,
   ⟨.sb, 0x00000023#32, 0x0000707F#32⟩,
   ⟨.sh, 0x00001023#32, 0x0000707F#32⟩,
   ⟨.sw, 0x00002023#32, 0x0000707F#32⟩]

/-- The row of the halt sentinel, matched before every other (R76). -/
def haltRow : OpcodeRow := ⟨.halt, 0x0000006F#32, 0xFFFFFFFF#32⟩

/-- The rows of spec/opcode_table.json but for HALT. -/
def opcodeRows : List OpcodeRow :=
  opRows ++ mduRows ++ opImmRows ++ transferRows ++ memoryRows

/-- The word is of the row. -/
def OpcodeRow.matchesWord (row : OpcodeRow) (w : Word) : Bool :=
  w &&& row.mask == row.pattern

/-- The row that names a word under the priority of R76: HALT, then the row of the table that
matches and is recognised under BRANCH_SET, else none. -/
def opcodeLookup (bs : BranchSet) (w : Word) : Option Mnemonic :=
  if haltRow.matchesWord w then some .halt
  else (opcodeRows.find? fun row => row.matchesWord w && row.mnemonic.availableIn bs).map
    OpcodeRow.mnemonic

/-! ### Words of the opcode table -/

/-- The instruction the decoder reads from a word numbered as spec/opcode_table.json numbers it, the
bits above `nbits` being 0. The table lists BLT, BGE, BLTU and BGEU, so BRANCH_SET is FULL here
(log 3); the machine itself decodes under the BRANCH_SET of its configuration. -/
def decodeTableWord (nbits w : Nat) : Option Instr :=
  (decode .full (BitVec.ofNat 32 (w % 2 ^ nbits))).toOption

end Sys2Proof
end

