-- ==== Sys2Proof/Machine/State.lean ====
section
/-! DEFINITION. The state of the machine (spec 10_state.md R20 to R37) as plain data, the reasons a step
could stop, and the machine after reset (70_reset_and_hazards.md R290). IMEM and the configuration
are parameters of the step in the spec (R31); they stand in State because a step is a function of
the state alone, and no step changes them (assumption log 1). -/

namespace Sys2Proof.Machine

/-- The fault kinds of 60_exceptions.md R271. A step that raises one answers NEXT, with status
Faulted and the kind in the fault record (R270); no step answers `Outcome.fault`. Safe: the spec
gives the state after every fault. -/
inductive Fault where
  /-- Code 1, raised by the fetch when pc[1:0] ≠ 0 (R211). Recorded, never answered: safe. -/
  | fetchMisaligned
  /-- Code 2, raised by LH, LHU and LW at a misaligned address (R253, R254, R256). Recorded, never
  answered: safe. -/
  | loadMisaligned
  /-- Code 3, raised by SH and SW at a misaligned address (R258, R259). Recorded, never answered:
  safe. -/
  | storeMisaligned
  deriving DecidableEq, Repr

/-- The code of a fault kind (R271). -/
def Fault.code : Fault → Nat
  | .fetchMisaligned => 1
  | .loadMisaligned => 2
  | .storeMisaligned => 3

/-- Why a step has no meaning. Every instruction of the table has its meaning, so no step answers
one. -/
inductive Refusal where
  /-- Raised by an arm of `exec` whose instruction has no meaning in the model (none has): safe. -/
  | notModelled (mnemonic : String)
  deriving DecidableEq, Repr

/-- The run status (R27). -/
inductive Status where
  | running
  | halted
  | faulted
  deriving DecidableEq, Repr

/-- The fault record (R28): the kind, the misaligned address, the address of the instruction. -/
structure FaultRecord where
  kind : Fault
  addr : Word
  pc : Word
  deriving DecidableEq, Repr

/-- Data memory (R42): the bytes that are not 0, by strictly rising address. -/
abbrev Memory := List Host.Cell

/-- What an address that is not listed reads as: every byte is 0 at reset and until stored (R29,
R42). -/
def Memory.unlisted : Byte := 0#8

/-- Every address listed is above `a`. -/
def Memory.above (a : Nat) (m : Memory) : Bool :=
  m.all fun cell => decide (a < cell.1)

/-- The canonical form: addresses strictly rising, each a 32-bit address, and no entry equal to what
an unlisted address reads as. -/
def Memory.wf : Memory → Bool
  | [] => true
  | cell :: rest =>
    decide (cell.1 < 2 ^ 32) && cell.2 != Memory.unlisted && Memory.above cell.1 rest
      && Memory.wf rest

/-- The state of the engine (R37), with IMEM and the configuration of the machine. -/
structure State where
  /-- General registers x[0] to x[31] (R20). -/
  x : Vector Word 32
  /-- Program counter (R24). -/
  pc : Word
  /-- Run status (R27). -/
  status : Status
  /-- Fault record (R28). -/
  fault : Option FaultRecord
  /-- Data memory (R29, R42). -/
  dmem : Memory
  /-- Output stream, oldest byte first (R30). -/
  out : List Byte
  /-- Instruction memory IMEM (R31, R41). -/
  imem : List Word
  /-- The open parameters of the machine (R10). -/
  config : Config
  deriving DecidableEq, Repr

/-- Reset is the construction of the simulator with an image (R290, R293). -/
def State.resetWith (config : Config) (image : List Word) : State where
  x := Vector.replicate 32 0#32
  pc := 0#32
  status := .running
  fault := none
  dmem := []
  out := []
  imem := image
  config := config

/-- The machine right after reset, before an image is given (R290, log 2 and 4). -/
def State.reset : State := State.resetWith Config.default []

end Sys2Proof.Machine
end

