-- ==== Sys2Proof/Machine/Ops.lean ====
section
/-! DEFINITION. The shared operations over registers, memory, the output stream and the run status:
register access (spec 10_state.md R20, R21), data memory (20_memory.md R42 to R51), fetch
(44_execution_engine.md R211, R212), the commit (R216), halting (R212, R213), the unrecognised word
(R214), and raising a fault (60_exceptions.md R270), the machine's one exceptional event. There is
no return from a fault (R276). -/

namespace Sys2Proof.Machine

/-! ### One field at a time -/

/-- The state with other registers. -/
def State.setX (s : State) (x : Vector Word 32) : State := { s with x := x }
/-- The state with another pc. -/
def State.setPc (s : State) (pc : Word) : State := { s with pc := pc }
/-- The state with another run status. -/
def State.setStatus (s : State) (status : Status) : State := { s with status := status }
/-- The state with another fault record. -/
def State.setFault (s : State) (fault : Option FaultRecord) : State := { s with fault := fault }
/-- The state with another data memory. -/
def State.setDmem (s : State) (dmem : Memory) : State := { s with dmem := dmem }
/-- The state with one more byte at the end of the output stream. -/
def State.appendOut (s : State) (b : Byte) : State := { s with out := s.out ++ [b] }

/-! ### Registers -/

/-- Read of x[r]: x0 reads 0 (R21). -/
def State.readReg (s : State) (r : RegIdx) : Word :=
  if r = 0#5 then 0#32 else s.x[r.toNat]'r.isLt

/-- Write of x[r]: a write to x0 is discarded (R21). -/
def State.writeReg (s : State) (r : RegIdx) (v : Word) : State :=
  if r = 0#5 then s else s.setX (s.x.set r.toNat v r.isLt)

/-- x[0] <- 0, at the end of every step that completes (R21, R216). -/
def State.zeroX0 (s : State) : State := s.setX (s.x.set 0 0#32)

/-! ### Data memory -/

/-- The byte at an address. -/
def Memory.read : Memory → Nat → Byte
  | [], _ => Memory.unlisted
  | cell :: rest, a => if cell.1 = a then cell.2 else Memory.read rest a

/-- The memory in front of `rest` with the byte `v` at `a`, in canonical form. -/
def Memory.cons (a : Nat) (v : Byte) (rest : Memory) : Memory :=
  if v = Memory.unlisted then rest else (a, v) :: rest

/-- Store of one byte, keeping the canonical form. -/
def Memory.write : Memory → Nat → Byte → Memory
  | [], a, v => Memory.cons a v []
  | cell :: rest, a, v =>
    if a < cell.1 then Memory.cons a v (cell :: rest)
    else if a = cell.1 then Memory.cons a v rest
    else cell :: Memory.write rest a v

/-- A byte address is mapped when it is at or above DATA_BASE (R43). -/
def State.mapped (s : State) (a : Word) : Bool :=
  decide (s.config.dataBase ≤ a)

/-- B(a) of R45: the byte of data memory, 0 where unmapped. -/
def State.readByte (s : State) (a : Word) : Byte :=
  if s.mapped a then s.dmem.read a.toNat else 0#8

/-- MemRead(addr, 1) (R45). -/
def State.memRead8 (s : State) (addr : Word) : Byte := s.readByte addr

/-- MemRead(addr, 2), little-endian (R45, R47). -/
def State.memRead16 (s : State) (addr : Word) : BitVec 16 :=
  s.readByte (addr + 1#32) ++ s.readByte addr

/-- MemRead(addr, 4), little-endian (R45, R47). -/
def State.memRead32 (s : State) (addr : Word) : Word :=
  s.readByte (addr + 3#32) ++ s.readByte (addr + 2#32) ++ s.readByte (addr + 1#32)
    ++ s.readByte addr

/-- Store of one byte: an unmapped byte is discarded (R46). -/
def State.writeByte (s : State) (a : Word) (b : Byte) : State :=
  if s.mapped a then s.setDmem (s.dmem.write a.toNat b) else s

/-- Byte i of a 32-bit value: v[8i+7 : 8i] (R46). -/
def byteOf (v : Word) (i : Nat) : Byte := v.extractLsb' (8 * i) 8

/-- The bytes 0 to n-1 of v stored at addr +_32 i, in that order (R46). -/
def State.writeBytes (s : State) (addr v : Word) : Nat → State
  | 0 => s
  | n + 1 => (s.writeBytes addr v n).writeByte (addr + BitVec.ofNat 32 n) (byteOf v n)

/-- MemWrite(addr, n, v) (R46): a store to MMIO_TX_ADDR emits the low byte and writes no memory. -/
def State.memWrite (s : State) (addr : Word) (n : Nat) (v : Word) : State :=
  if addr = s.config.mmioTxAddr then s.appendOut (byteOf v 0) else s.writeBytes addr v n

/-- The width of a data access (R49). -/
inductive Width where
  | byte
  | half
  | word
  deriving DecidableEq, Repr

/-- The number of bytes an access moves (R49). -/
def Width.bytes : Width → Nat
  | .byte => 1
  | .half => 2
  | .word => 4

/-- The alignment check (R48): addr[1:0] = 0b00 for a word, addr[0] = 0 for a halfword, none for a
byte. -/
def Width.aligned : Width → Word → Bool
  | .byte, _ => true
  | .half, addr => addr.extractLsb' 0 1 == 0#1
  | .word, addr => addr.extractLsb' 0 2 == 0#2

/-! ### Ending a step -/

/-- The memory effect of an instruction: MemWrite(addr, n, value) (R216). -/
structure StoreEffect where
  addr : Word
  bytes : Nat
  value : Word
  deriving DecidableEq, Repr

/-- A register write of an instruction: x[rd] <- value (R216). -/
structure RegWrite where
  rd : RegIdx
  value : Word
  deriving DecidableEq, Repr

/-- The memory effect of a commit, if the instruction has one. -/
def State.applyStore (s : State) : Option StoreEffect → State
  | none => s
  | some e => s.memWrite e.addr e.bytes e.value

/-- The register write of a commit, if the instruction has one. -/
def State.applyRegWrite (s : State) : Option RegWrite → State
  | none => s
  | some w => s.writeReg w.rd w.value

/-- The commit (R216), in its order: the memory effect, the register write, x[0] <- 0, the pc. -/
def State.commit (s : State) (store : Option StoreEffect) (write : Option RegWrite)
    (nextPc : Word) : State :=
  (((s.applyStore store).applyRegWrite write).zeroX0).setPc nextPc

/-- pc +_32 4 (R25). -/
def State.pcPlus4 (s : State) : Word := s.pc + 4#32

/-- The commit of an instruction that writes one register and falls through. -/
def State.commitReg (s : State) (rd : RegIdx) (v : Word) : State :=
  s.commit none (some ⟨rd, v⟩) s.pcPlus4

/-- The commit of an instruction that only redirects the pc. -/
def State.commitPc (s : State) (nextPc : Word) : State :=
  s.commit none none nextPc

/-- Raising a fault (R270): status and record are set, everything else keeps its value. -/
def State.raiseFault (s : State) (kind : Fault) (addr : Word) : State :=
  (s.setStatus .faulted).setFault (some ⟨kind, addr, s.pc⟩)

/-- Halting (R212, R213): the status is set, everything else keeps its value. -/
def State.halt (s : State) : State := s.setStatus .halted

/-- An unrecognised word (R214): a no-op, the pc advances by 4. -/
def State.unrecognised (s : State) : State := s.commitPc s.pcPlus4

/-! ### Fetch -/

/-- What the fetch stages of R210 give. -/
inductive Fetched where
  | misaligned
  | outOfRange
  | word (w : Word)
  deriving DecidableEq, Repr

/-- Stages 1 and 2 of R210: the alignment of the pc (R211), then the range and the word IMEM[pc/4]
(R212, R41). -/
def State.fetch (s : State) : Fetched :=
  if s.pc.extractLsb' 0 2 = 0#2 then
    match s.imem[s.pc.toNat / 4]? with
    | some w => .word w
    | none => .outOfRange
  else .misaligned

/-- IMEM with the word w at index i, the words missing below i being 0. -/
def setWord : List Word → Nat → Word → List Word
  | [], 0, w => [w]
  | _ :: rest, 0, w => w :: rest
  | [], i + 1, w => 0#32 :: setWord [] i w
  | v :: rest, i + 1, w => v :: setWord rest i w

end Sys2Proof.Machine
end

