-- ==== Sys2Proof/Machine/Operands.lean ====
section
/-! DEFINITION. The operand forms (spec 41_integer_alu.md R112, 45_control_transfer.md R230 to R240,
46_load_store.md R250): registers, extended immediates, shift amounts, effective addresses and
targets, each read from the state at the start of the step (44_execution_engine.md R218). -/

namespace Sys2Proof.Machine

/-- The second operand of a register-immediate instruction: imm_I (R112, R63). -/
def immOperand (imm : BitVec 12) : Word := immSext imm

/-- The second operand of SLLI, SRLI and SRAI: the shift amount, zero-extended (R112, R68). -/
def shamtOperand (shamt : BitVec 5) : Word := shamt.setWidth 32

/-- The effective address of a load: x[rs1] +_32 imm_I (R250). -/
def State.loadAddress (s : State) (rs1 : RegIdx) (imm : BitVec 12) : Word :=
  s.readReg rs1 + immSext imm

/-- The effective address of a store: x[rs1] +_32 imm_S (R250). -/
def State.storeAddress (s : State) (rs1 : RegIdx) (imm : BitVec 12) : Word :=
  s.readReg rs1 + immSext imm

/-- The target of a taken branch: pc +_32 imm_B (R235). -/
def State.branchTarget (s : State) (offset : BitVec 13) : Word := s.pc + immSext offset

/-- The target of JAL: pc +_32 imm_J (R233). -/
def State.jalTarget (s : State) (offset : BitVec 21) : Word := s.pc + immSext offset

/-- The target of JALR: (x[rs1] +_32 imm_I) with bit 0 cleared (R234). -/
def State.jalrTarget (s : State) (rs1 : RegIdx) (imm : BitVec 12) : Word :=
  (s.readReg rs1 + immSext imm) &&& 0xFFFFFFFE#32

end Sys2Proof.Machine
end

