-- ==== Sys2Proof/Machine/Branch.lean ====
section
/-! DEFINITION. The branches (spec 45_control_transfer.md R235 to R240). BLT, BGE, BLTU and BGEU exist only when
BRANCH_SET = FULL: under EQ_NE_ONLY the decoder gives no such instruction (30_encoding.md R74). -/

namespace Sys2Proof.Machine

/-- A branch: to pc +_32 imm_B when taken, else to pc +_32 4 (R235 to R240). -/
def branchIf (taken : Bool) (offset : BitVec 13) (s : State) : Host.Outcome State Fault Refusal :=
  .next (s.commitPc (if taken then s.branchTarget offset else s.pcPlus4))

/-- BEQ rs1, rs2, offset (R235). -/
def execBeq (rs1 rs2 : RegIdx) (offset : BitVec 13) (s : State) :
    Host.Outcome State Fault Refusal :=
  branchIf (decide (s.readReg rs1 = s.readReg rs2)) offset s

/-- BNE rs1, rs2, offset (R236). -/
def execBne (rs1 rs2 : RegIdx) (offset : BitVec 13) (s : State) :
    Host.Outcome State Fault Refusal :=
  branchIf (decide (s.readReg rs1 ≠ s.readReg rs2)) offset s

/-- BLT rs1, rs2, offset (R237), decoded under FULL only. -/
def execBlt (rs1 rs2 : RegIdx) (offset : BitVec 13) (s : State) :
    Host.Outcome State Fault Refusal :=
  branchIf (decide ((s.readReg rs1).toInt < (s.readReg rs2).toInt)) offset s

/-- BGE rs1, rs2, offset (R238), decoded under FULL only. -/
def execBge (rs1 rs2 : RegIdx) (offset : BitVec 13) (s : State) :
    Host.Outcome State Fault Refusal :=
  branchIf (decide ((s.readReg rs2).toInt ≤ (s.readReg rs1).toInt)) offset s

/-- BLTU rs1, rs2, offset (R239), decoded under FULL only. -/
def execBltu (rs1 rs2 : RegIdx) (offset : BitVec 13) (s : State) :
    Host.Outcome State Fault Refusal :=
  branchIf (decide ((s.readReg rs1).toNat < (s.readReg rs2).toNat)) offset s

/-- BGEU rs1, rs2, offset (R240), decoded under FULL only. -/
def execBgeu (rs1 rs2 : RegIdx) (offset : BitVec 13) (s : State) :
    Host.Outcome State Fault Refusal :=
  branchIf (decide ((s.readReg rs2).toNat ≤ (s.readReg rs1).toNat)) offset s

end Sys2Proof.Machine
end

