-- ==== Sys2Proof/Machine/Adder.lean ====
section
/-! DEFINITION. Bit-vector utilities, the ripple adder, negation, subtraction, the shifter and the
shift-add multiplier loop (spec 40_adder_shifter.md R80 to R91, 42_mdu.md R142). Every arithmetic
unit is built on them (R85). The text conversions of R80 are out of scope (R6). -/

namespace Sys2Proof.Machine

/-! ### Bit-vector utilities (R80 to R82) -/

/-- `pad(v, w)`: zero-extension at the most-significant end (R80, R13). -/
def padTo {n : Nat} (v : BitVec n) (w : Nat) : BitVec w := v.setWidth w

/-- `trunc(v, w)`: the low w bits (R80). -/
def truncTo {n : Nat} (v : BitVec n) (w : Nat) : BitVec w := v.extractLsb' 0 w

/-- `to_unsigned(v)` (R80, R11). -/
def toUnsigned {n : Nat} (v : BitVec n) : Nat := v.toNat

/-- `from_unsigned(n, w)` (R80). -/
def fromUnsigned (n w : Nat) : BitVec w := BitVec.ofNat w n

/-- `equal(a, b)`: the padded operands agree in every bit (R80). -/
def equalBits {n m : Nat} (a : BitVec n) (b : BitVec m) : Bool :=
  padTo a (max n m) == padTo b (max n m)

/-- `encode_twos(n)` at 32 bits (R81). -/
def encodeTwos (n : Int) : Word := BitVec.ofInt 32 n

/-- `decode_twos(v) = signed(v)` (R81). -/
def decodeTwos (v : Word) : Int := v.toInt

/-! ### The ripple adder (R83) -/

/-- The sum output of a full adder (R83). -/
def fullSum (a b c : Bool) : Bool := a ^^ b ^^ c

/-- The carry output of a full adder (R83). -/
def fullCarry (a b c : Bool) : Bool := (a && b) || (c && (a ^^ b))

/-- `add(a, b, carry_in, w) = (sum, carry_out)`: full adders chained from the least significant bit
(R83). -/
def rippleAdd : (w : Nat) → BitVec w → BitVec w → Bool → BitVec w × Bool
  | 0, _, _, c => (0#0, c)
  | w + 1, a, b, c =>
    let rest := rippleAdd w (a.extractLsb' 1 w) (b.extractLsb' 1 w)
      (fullCarry (a.getLsbD 0) (b.getLsbD 0) c)
    (rest.1.concat (fullSum (a.getLsbD 0) (b.getLsbD 0) c), rest.2)

/-- `negate(b)`: bitwise invert, then add 1 (R84). -/
def negate {w : Nat} (b : BitVec w) : BitVec w := (rippleAdd w (~~~b) (BitVec.ofNat w 1) false).1

/-- `sub(a, b, w) = add(a, ~b, 1, w)`: difference and carry_out (R86, C1). -/
def rippleSub {w : Nat} (a b : BitVec w) : BitVec w × Bool := rippleAdd w a (~~~b) true

/-! ### The shifter (R87 to R91) -/

/-- SLL(a, sh) (R88). -/
def shiftLeft (a : Word) (sh : BitVec 5) : Word := a <<< sh.toNat

/-- SRL(a, sh) (R89). -/
def shiftRightLogical (a : Word) (sh : BitVec 5) : Word := a >>> sh.toNat

/-- SRA(a, sh): sign fill by the same amount (R90, C4). -/
def shiftRightArith (a : Word) (sh : BitVec 5) : Word := a.sshiftRight sh.toNat

/-- The shift amount b[4:0] of a second operand (R91). -/
def shiftAmount (b : Word) : BitVec 5 := b.extractLsb' 0 5

/-! ### The shift-add multiplier (R142) -/

/-- The shift-and-add loop: k iterations over (acc, mc, mp) (R142). -/
def shiftAddLoop {W n : Nat} : Nat → BitVec W → BitVec W → BitVec n → BitVec W
  | 0, acc, _, _ => acc
  | k + 1, acc, mc, mp =>
    shiftAddLoop k (if mp.getLsbD 0 then (rippleAdd W acc mc false).1 else acc) (mc <<< 1) (mp >>> 1)

/-- The product of two n-bit operands in a W-bit accumulator: n iterations (R142, R183). -/
def shiftAdd {n : Nat} (W : Nat) (a b : BitVec n) : BitVec W :=
  shiftAddLoop n 0#W (padTo a W) b

end Sys2Proof.Machine
end

