-- ==== Sys2Proof/Machine/Flags.lean ====
section
/-! DEFINITION. The flag records the units return with one result (spec 10_state.md R32) and the flag
computations. No flag is state of the engine (R33). -/

namespace Sys2Proof.Machine

/-- Flag record of the integer ALU (R101). -/
structure AluFlags where
  n : Bool
  z : Bool
  c : Bool
  v : Bool
  deriving DecidableEq, Repr

/-- Flag record of the MDU (R140). -/
structure MduFlags where
  overflow : Bool
  invalid : Bool
  deriving DecidableEq, Repr

/-- Flag record of the FPU (R170). -/
structure FpuFlags where
  inexact : Bool
  overflow : Bool
  underflow : Bool
  invalid : Bool
  deriving DecidableEq, Repr

/-- N: the sign bit of the result (R101). -/
def negFlag (r : Word) : Bool := r.getLsbD 31

/-- Z: all result bits are zero (R101). -/
def zeroFlag (r : Word) : Bool := r == 0#32

/-- V of ADD: the operands share a sign and the result's sign differs (R102). -/
def addOverflow (a b r : Word) : Bool :=
  a.getLsbD 31 == b.getLsbD 31 && r.getLsbD 31 != a.getLsbD 31

/-- V of SUB: the operand signs differ and the result's sign is not the first operand's (R103). -/
def subOverflow (a b r : Word) : Bool :=
  a.getLsbD 31 != b.getLsbD 31 && r.getLsbD 31 != a.getLsbD 31

/-- The flags of an ALU result with the given C and V (R101). -/
def aluFlags (r : Word) (c v : Bool) : AluFlags :=
  { n := negFlag r, z := zeroFlag r, c := c, v := v }

/-- The flags of the operations that leave C and V 0 (R101, D17). -/
def aluFlagsPlain (r : Word) : AluFlags := aluFlags r false false

/-- Overflow of a multiply: the high half is not the sign-extension of the low half (R143). -/
def productOverflow (hi lo : Word) : Bool :=
  hi != (if lo.getLsbD 31 then 0xFFFFFFFF#32 else 0x00000000#32)

/-- Both MDU flags 0 (R140). -/
def MduFlags.none : MduFlags := { overflow := false, invalid := false }

/-- The flags of a division by zero (R147). -/
def MduFlags.divideByZero : MduFlags := { overflow := false, invalid := true }

/-- Every FPU flag 0 (R170). -/
def FpuFlags.none : FpuFlags :=
  { inexact := false, overflow := false, underflow := false, invalid := false }

/-- Only invalid (R180, R183, R184). -/
def FpuFlags.onlyInvalid : FpuFlags := { FpuFlags.none with invalid := true }

/-- Only overflow (R184). -/
def FpuFlags.onlyOverflow : FpuFlags := { FpuFlags.none with overflow := true }

/-- Only underflow (R184). -/
def FpuFlags.onlyUnderflow : FpuFlags := { FpuFlags.none with underflow := true }

end Sys2Proof.Machine
end

