-- ==== Sys2Proof/Machine/Alu.lean ====
section
/-! DEFINITION. The integer ALU (spec 41_integer_alu.md R100 to R111): ten operations on 32-bit
operands, each with a fresh flag record. -/

namespace Sys2Proof.Machine

/-- The ALU operations (R100). -/
inductive AluOp where
  | add | sub | and | or | xor | sll | srl | sra | slt | sltu
  deriving DecidableEq, Repr

/-- A result with the flags of the operation. -/
structure AluResult where
  r : Word
  flags : AluFlags
  deriving DecidableEq, Repr

/-- A result whose C and V are 0 (R101). -/
def aluPlain (r : Word) : AluResult := ⟨r, aluFlagsPlain r⟩

/-- ADD (R102). -/
def aluAdd (a b : Word) : AluResult :=
  let sum := rippleAdd 32 a b false
  ⟨sum.1, aluFlags sum.1 sum.2 (addOverflow a b sum.1)⟩

/-- SUB (R103): one pass of the adder (R86). -/
def aluSub (a b : Word) : AluResult :=
  let diff := rippleSub a b
  ⟨diff.1, aluFlags diff.1 diff.2 (subOverflow a b diff.1)⟩

/-- The 0/1 result of a comparison, zero-extended (R110, R111). -/
def boolWord (b : Bool) : Word := (BitVec.ofBool b).setWidth 32

/-- SLT: result negative XOR overflow of SUB (R110). -/
def aluSlt (a b : Word) : AluResult :=
  let flags := (aluSub a b).flags
  aluPlain (boolWord (flags.n ^^ flags.v))

/-- SLTU: no carry out of the subtractor (R111). -/
def aluSltu (a b : Word) : AluResult :=
  aluPlain (boolWord (!(rippleSub a b).2))

/-- The ALU (R100 to R111). -/
def alu (op : AluOp) (a b : Word) : AluResult :=
  match op with
  | .add => aluAdd a b
  | .sub => aluSub a b
  | .and => aluPlain (a &&& b)
  | .or => aluPlain (a ||| b)
  | .xor => aluPlain (a ^^^ b)
  | .sll => aluPlain (shiftLeft a (shiftAmount b))
  | .srl => aluPlain (shiftRightLogical a (shiftAmount b))
  | .sra => aluPlain (shiftRightArith a (shiftAmount b))
  | .slt => aluSlt a b
  | .sltu => aluSltu a b

end Sys2Proof.Machine
end

