-- ==== Sys2Proof/Machine/IntImm.lean ====
section
/-! DEFINITION. The register-immediate ALU instructions (spec 41_integer_alu.md R112, R123 to R131). -/

namespace Sys2Proof.Machine

/-- A register-immediate ALU instruction (R112): the second operand is the given value. -/
def aluRegImm (op : AluOp) (rd rs1 : RegIdx) (operand : Word) (s : State) : Host.Outcome State Fault Refusal :=
  .next (s.commitReg rd (alu op (s.readReg rs1) operand).r)

/-- ADDI rd, rs1, imm (R123). -/
def execAddi (rd rs1 : RegIdx) (imm : BitVec 12) (s : State) :
    Host.Outcome State Fault Refusal :=
  aluRegImm .add rd rs1 (immOperand imm) s

/-- SLTI rd, rs1, imm (R124). -/
def execSlti (rd rs1 : RegIdx) (imm : BitVec 12) (s : State) :
    Host.Outcome State Fault Refusal :=
  aluRegImm .slt rd rs1 (immOperand imm) s

/-- SLTIU rd, rs1, imm (R125). -/
def execSltiu (rd rs1 : RegIdx) (imm : BitVec 12) (s : State) :
    Host.Outcome State Fault Refusal :=
  aluRegImm .sltu rd rs1 (immOperand imm) s

/-- XORI rd, rs1, imm (R126). -/
def execXori (rd rs1 : RegIdx) (imm : BitVec 12) (s : State) :
    Host.Outcome State Fault Refusal :=
  aluRegImm .xor rd rs1 (immOperand imm) s

/-- ORI rd, rs1, imm (R127). -/
def execOri (rd rs1 : RegIdx) (imm : BitVec 12) (s : State) :
    Host.Outcome State Fault Refusal :=
  aluRegImm .or rd rs1 (immOperand imm) s

/-- ANDI rd, rs1, imm (R128). -/
def execAndi (rd rs1 : RegIdx) (imm : BitVec 12) (s : State) :
    Host.Outcome State Fault Refusal :=
  aluRegImm .and rd rs1 (immOperand imm) s

/-- SLLI rd, rs1, shamt (R129). -/
def execSlli (rd rs1 : RegIdx) (shamt : BitVec 5) (s : State) :
    Host.Outcome State Fault Refusal :=
  aluRegImm .sll rd rs1 (shamtOperand shamt) s

/-- SRLI rd, rs1, shamt (R130). -/
def execSrli (rd rs1 : RegIdx) (shamt : BitVec 5) (s : State) :
    Host.Outcome State Fault Refusal :=
  aluRegImm .srl rd rs1 (shamtOperand shamt) s

/-- SRAI rd, rs1, shamt (R131). -/
def execSrai (rd rs1 : RegIdx) (shamt : BitVec 5) (s : State) :
    Host.Outcome State Fault Refusal :=
  aluRegImm .sra rd rs1 (shamtOperand shamt) s

end Sys2Proof.Machine
end

