-- ==== Sys2Proof/Machine/IntReg.lean ====
section
/-! DEFINITION. The register-register ALU instructions (spec 41_integer_alu.md R112 to R122). -/

namespace Sys2Proof.Machine

/-- A register-register ALU instruction (R112): read, compute, write rd, pc + 4; the flags are
discarded (R33). -/
def aluRegReg (op : AluOp) (rd rs1 rs2 : RegIdx) (s : State) : Host.Outcome State Fault Refusal :=
  .next (s.commitReg rd (alu op (s.readReg rs1) (s.readReg rs2)).r)

/-- ADD rd, rs1, rs2 (R113). -/
def execAdd (rd rs1 rs2 : RegIdx) (s : State) : Host.Outcome State Fault Refusal :=
  aluRegReg .add rd rs1 rs2 s

/-- SUB rd, rs1, rs2 (R114). -/
def execSub (rd rs1 rs2 : RegIdx) (s : State) : Host.Outcome State Fault Refusal :=
  aluRegReg .sub rd rs1 rs2 s

/-- SLL rd, rs1, rs2 (R115). -/
def execSll (rd rs1 rs2 : RegIdx) (s : State) : Host.Outcome State Fault Refusal :=
  aluRegReg .sll rd rs1 rs2 s

/-- SLT rd, rs1, rs2 (R116). -/
def execSlt (rd rs1 rs2 : RegIdx) (s : State) : Host.Outcome State Fault Refusal :=
  aluRegReg .slt rd rs1 rs2 s

/-- SLTU rd, rs1, rs2 (R117). -/
def execSltu (rd rs1 rs2 : RegIdx) (s : State) : Host.Outcome State Fault Refusal :=
  aluRegReg .sltu rd rs1 rs2 s

/-- XOR rd, rs1, rs2 (R118). -/
def execXor (rd rs1 rs2 : RegIdx) (s : State) : Host.Outcome State Fault Refusal :=
  aluRegReg .xor rd rs1 rs2 s

/-- SRL rd, rs1, rs2 (R119). -/
def execSrl (rd rs1 rs2 : RegIdx) (s : State) : Host.Outcome State Fault Refusal :=
  aluRegReg .srl rd rs1 rs2 s

/-- SRA rd, rs1, rs2 (R120). -/
def execSra (rd rs1 rs2 : RegIdx) (s : State) : Host.Outcome State Fault Refusal :=
  aluRegReg .sra rd rs1 rs2 s

/-- OR rd, rs1, rs2 (R121). -/
def execOr (rd rs1 rs2 : RegIdx) (s : State) : Host.Outcome State Fault Refusal :=
  aluRegReg .or rd rs1 rs2 s

/-- AND rd, rs1, rs2 (R122). -/
def execAnd (rd rs1 rs2 : RegIdx) (s : State) : Host.Outcome State Fault Refusal :=
  aluRegReg .and rd rs1 rs2 s

end Sys2Proof.Machine
end

