-- ==== Sys2Proof/Machine/LoadStore.lean ====
section
/-! DEFINITION. Loads and stores (spec 46_load_store.md R250 to R260). -/

namespace Sys2Proof.Machine

/-- A load (R250, R251): the alignment check first, then rd gets the value read at the effective
address. A misaligned access raises LoadMisaligned, also with rd = x0 (R77). -/
def loadWith (width : Width) (value : State → Word → Word) (rd rs1 : RegIdx) (imm : BitVec 12)
    (s : State) : Host.Outcome State Fault Refusal :=
  let ea := s.loadAddress rs1 imm
  if width.aligned ea then .next (s.commitReg rd (value s ea))
  else .next (s.raiseFault .loadMisaligned ea)

/-- A store (R250, R251): the alignment check first, then MemWrite at the effective address. A
misaligned access raises StoreMisaligned. -/
def storeWith (width : Width) (rs2 rs1 : RegIdx) (imm : BitVec 12) (s : State) :
    Host.Outcome State Fault Refusal :=
  let ea := s.storeAddress rs1 imm
  if width.aligned ea then
    .next (s.commit (some ⟨ea, width.bytes, s.readReg rs2⟩) none s.pcPlus4)
  else .next (s.raiseFault .storeMisaligned ea)

/-- LB rd, imm(rs1) (R252). -/
def execLb (rd rs1 : RegIdx) (imm : BitVec 12) (s : State) :
    Host.Outcome State Fault Refusal :=
  loadWith .byte (fun s ea => (s.memRead8 ea).signExtend 32) rd rs1 imm s

/-- LH rd, imm(rs1) (R253). -/
def execLh (rd rs1 : RegIdx) (imm : BitVec 12) (s : State) :
    Host.Outcome State Fault Refusal :=
  loadWith .half (fun s ea => (s.memRead16 ea).signExtend 32) rd rs1 imm s

/-- LW rd, imm(rs1) (R254). -/
def execLw (rd rs1 : RegIdx) (imm : BitVec 12) (s : State) :
    Host.Outcome State Fault Refusal :=
  loadWith .word (fun s ea => s.memRead32 ea) rd rs1 imm s

/-- LBU rd, imm(rs1) (R255). -/
def execLbu (rd rs1 : RegIdx) (imm : BitVec 12) (s : State) :
    Host.Outcome State Fault Refusal :=
  loadWith .byte (fun s ea => (s.memRead8 ea).setWidth 32) rd rs1 imm s

/-- LHU rd, imm(rs1) (R256). -/
def execLhu (rd rs1 : RegIdx) (imm : BitVec 12) (s : State) :
    Host.Outcome State Fault Refusal :=
  loadWith .half (fun s ea => (s.memRead16 ea).setWidth 32) rd rs1 imm s

/-- SB rs2, imm(rs1) (R257). -/
def execSb (rs2 rs1 : RegIdx) (imm : BitVec 12) (s : State) :
    Host.Outcome State Fault Refusal :=
  storeWith .byte rs2 rs1 imm s

/-- SH rs2, imm(rs1) (R258). -/
def execSh (rs2 rs1 : RegIdx) (imm : BitVec 12) (s : State) :
    Host.Outcome State Fault Refusal :=
  storeWith .half rs2 rs1 imm s

/-- SW rs2, imm(rs1) (R259). -/
def execSw (rs2 rs1 : RegIdx) (imm : BitVec 12) (s : State) :
    Host.Outcome State Fault Refusal :=
  storeWith .word rs2 rs1 imm s

end Sys2Proof.Machine
end

