-- ==== Sys2Proof/Machine/Mdu.lean ====
section
/-! DEFINITION. The multiply/divide unit (spec 42_mdu.md R140 to R148): a shift-add multiplier on
sign-magnitude operands and a truncating divider, with {overflow, invalid}. -/

namespace Sys2Proof.Machine

/-- The MDU operations (R140). -/
inductive MduOp where
  | mul | mulh | mulhsu | mulhu | div | divu | rem | remu
  deriving DecidableEq, Repr

/-- A result with the flags of the operation. -/
structure MduResult where
  r : Word
  flags : MduFlags
  deriving DecidableEq, Repr

/-- Whether an operand is read as signed or as unsigned (R144, R145). -/
inductive Signedness where
  | signed
  | unsigned
  deriving DecidableEq, Repr

/-- The sign of an operand (R141): 0 for an operand read as unsigned. -/
def signOf (k : Signedness) (v : Word) : Bool :=
  match k with
  | .signed => v.getLsbD 31
  | .unsigned => false

/-- The magnitude of an operand, read unsigned (R141). -/
def magOf (k : Signedness) (v : Word) : Word :=
  if signOf k v then negate v else v

/-- The 64-bit product with its sign applied: Q of R143. -/
def product (ka kb : Signedness) (a b : Word) : BitVec 64 :=
  let p := shiftAdd 64 (magOf ka a) (magOf kb b)
  if signOf ka a != signOf kb b then negate p else p

/-- The high half Q[63:32] (R143). -/
def highHalf (q : BitVec 64) : Word := q.extractLsb' 32 32

/-- The low half Q[31:0] (R143). -/
def lowHalf (q : BitVec 64) : Word := q.extractLsb' 0 32

/-- The flags of a multiply (R143). -/
def mulFlags (q : BitVec 64) : MduFlags :=
  { overflow := productOverflow (highHalf q) (lowHalf q), invalid := false }

/-- A multiply that returns the high half (R144). -/
def mulHigh (ka kb : Signedness) (a b : Word) : MduResult :=
  let q := product ka kb a b
  ⟨highHalf q, mulFlags q⟩

/-- MUL (R144): the low half of the signed product. -/
def mulLow (a b : Word) : MduResult :=
  let q := product .signed .signed a b
  ⟨lowHalf q, mulFlags q⟩

/-- The unsigned quotient q of R145 on the magnitudes. -/
def magQuotient (k : Signedness) (a b : Word) : Word :=
  BitVec.ofNat 32 ((magOf k a).toNat / (magOf k b).toNat)

/-- The unsigned remainder m = A - q*B of R145 on the magnitudes. -/
def magRemainder (k : Signedness) (a b : Word) : Word :=
  BitVec.ofNat 32 ((magOf k a).toNat % (magOf k b).toNat)

/-- DIV and DIVU (R145 to R148). -/
def divide (k : Signedness) (a b : Word) : MduResult :=
  if b = 0#32 then ⟨0xFFFFFFFF#32, MduFlags.divideByZero⟩
  else
    let q := magQuotient k a b
    ⟨if signOf k a != signOf k b then negate q else q, MduFlags.none⟩

/-- REM and REMU (R145 to R148). -/
def remainder (k : Signedness) (a b : Word) : MduResult :=
  if b = 0#32 then ⟨a, MduFlags.divideByZero⟩
  else
    let m := magRemainder k a b
    ⟨if signOf k a then negate m else m, MduFlags.none⟩

/-- The MDU (R140 to R148). -/
def mdu (op : MduOp) (a b : Word) : MduResult :=
  match op with
  | .mul => mulLow a b
  | .mulh => mulHigh .signed .signed a b
  | .mulhsu => mulHigh .signed .unsigned a b
  | .mulhu => mulHigh .unsigned .unsigned a b
  | .div => divide .signed a b
  | .divu => divide .unsigned a b
  | .rem => remainder .signed a b
  | .remu => remainder .unsigned a b

end Sys2Proof.Machine
end

