-- ==== Sys2Proof/Machine/MulDiv.lean ====
section
/-! DEFINITION. The M instructions (spec 42_mdu.md R150 to R158). -/

namespace Sys2Proof.Machine

/-- An M instruction (R150): read, compute, write rd, pc + 4; the flags are discarded (R33). -/
def mduRegReg (op : MduOp) (rd rs1 rs2 : RegIdx) (s : State) : Host.Outcome State Fault Refusal :=
  .next (s.commitReg rd (mdu op (s.readReg rs1) (s.readReg rs2)).r)

/-- MUL rd, rs1, rs2 (R151). -/
def execMul (rd rs1 rs2 : RegIdx) (s : State) : Host.Outcome State Fault Refusal :=
  mduRegReg .mul rd rs1 rs2 s

/-- MULH rd, rs1, rs2 (R152). -/
def execMulh (rd rs1 rs2 : RegIdx) (s : State) : Host.Outcome State Fault Refusal :=
  mduRegReg .mulh rd rs1 rs2 s

/-- MULHSU rd, rs1, rs2 (R153). -/
def execMulhsu (rd rs1 rs2 : RegIdx) (s : State) : Host.Outcome State Fault Refusal :=
  mduRegReg .mulhsu rd rs1 rs2 s

/-- MULHU rd, rs1, rs2 (R154). -/
def execMulhu (rd rs1 rs2 : RegIdx) (s : State) : Host.Outcome State Fault Refusal :=
  mduRegReg .mulhu rd rs1 rs2 s

/-- DIV rd, rs1, rs2 (R155). -/
def execDiv (rd rs1 rs2 : RegIdx) (s : State) : Host.Outcome State Fault Refusal :=
  mduRegReg .div rd rs1 rs2 s

/-- DIVU rd, rs1, rs2 (R156). -/
def execDivu (rd rs1 rs2 : RegIdx) (s : State) : Host.Outcome State Fault Refusal :=
  mduRegReg .divu rd rs1 rs2 s

/-- REM rd, rs1, rs2 (R157). -/
def execRem (rd rs1 rs2 : RegIdx) (s : State) : Host.Outcome State Fault Refusal :=
  mduRegReg .rem rd rs1 rs2 s

/-- REMU rd, rs1, rs2 (R158). -/
def execRemu (rd rs1 rs2 : RegIdx) (s : State) : Host.Outcome State Fault Refusal :=
  mduRegReg .remu rd rs1 rs2 s

end Sys2Proof.Machine
end

