-- ==== Sys2Proof/Machine/Transfer.lean ====
section
/-! DEFINITION. Upper immediates, jumps and the halt sentinel (spec 45_control_transfer.md R230 to R234,
44_execution_engine.md R213). -/

namespace Sys2Proof.Machine

/-- LUI rd, imm20 (R231). -/
def execLui (rd : RegIdx) (imm20 : BitVec 20) (s : State) : Host.Outcome State Fault Refusal :=
  .next (s.commitReg rd (immUpper imm20))

/-- AUIPC rd, imm20 (R232). -/
def execAuipc (rd : RegIdx) (imm20 : BitVec 20) (s : State) : Host.Outcome State Fault Refusal :=
  .next (s.commitReg rd (s.pc + immUpper imm20))

/-- A jump: the link value pc +_32 4 goes to rd, the target becomes the pc (R230). A target that is
not a multiple of 4 faults at the next fetch, not here. -/
def State.jump (s : State) (rd : RegIdx) (target : Word) : State :=
  s.commit none (some ⟨rd, s.pcPlus4⟩) target

/-- JAL rd, offset (R233). -/
def execJal (rd : RegIdx) (offset : BitVec 21) (s : State) : Host.Outcome State Fault Refusal :=
  .next (s.jump rd (s.jalTarget offset))

/-- JALR rd, imm(rs1) (R234). -/
def execJalr (rd rs1 : RegIdx) (imm : BitVec 12) (s : State) : Host.Outcome State Fault Refusal :=
  .next (s.jump rd (s.jalrTarget rs1 imm))

/-- The halt sentinel (R213): the status becomes Halted, nothing else changes. -/
def execHalt (s : State) : Host.Outcome State Fault Refusal := .next s.halt

end Sys2Proof.Machine
end

