-- ==== Sys2Proof/Machine/Step.lean ====
section
/-! DEFINITION. The step (spec 44_execution_engine.md R210): terminal statuses, fetch, decode,
execute. -/

namespace Sys2Proof.Machine

/-- A decoded word: its instruction's meaning, or the no-op of an unrecognised word (R214, R215). -/
def runDecoded (d : Decoded) (s : State) : Host.Outcome State Fault Refusal :=
  match d with
  | .instr i => exec i s
  | .unrecognised _ => .next s.unrecognised

/-- One step (R210): a Halted or Faulted engine does not change (R219); else the fetch alignment fault
(R211), the halt beyond the image (R212), or the decoded word. -/
def step (s : State) : Host.Outcome State Fault Refusal :=
  match s.status with
  | .halted => .next s
  | .faulted => .next s
  | .running =>
    match s.fetch with
    | .misaligned => .next (s.raiseFault .fetchMisaligned s.pc)
    | .outOfRange => .next s.halt
    | .word w => runDecoded (decode s.config.branchSet w) s

/-- The state in which the next step runs the instruction whose `nbits` bits are `w` (log 3, 4): the
word stands in IMEM at pc/4, the status is Running, the pc is 4-aligned (its two low bits cleared),
and BRANCH_SET is FULL where the word is a branch that only FULL recognises. Nothing else differs. -/
def State.withFetchWord (s : State) (nbits w : Nat) : State :=
  let word := BitVec.ofNat 32 (w % 2 ^ nbits)
  let pc := s.pc &&& 0xFFFFFFFC#32
  let branchSet :=
    match decode s.config.branchSet word, decode .full word with
    | .unrecognised _, .instr _ => .full
    | _, _ => s.config.branchSet
  { s with
    pc := pc
    status := .running
    imem := setWord s.imem (pc.toNat / 4) word
    config := { s.config with branchSet := branchSet } }

end Sys2Proof.Machine
end

