-- ==== Sys2Proof/Machine/Fpu.lean ====
section
/-! DEFINITION. The floating-point unit, IEEE-754 binary32 (spec 43_fpu.md R170 to R187): unpacking, the
rounder with guard, round and sticky bits, and the four operations, reached only at the arithmetic
API port (R217). The open parameters are those of R10. -/

namespace Sys2Proof.Machine

/-- The FPU operations (R170). -/
inductive FpuOp where
  | add | sub | mul | div
  deriving DecidableEq, Repr

/-- A result with the flags of the operation. -/
structure FpuResult where
  r : Word
  flags : FpuFlags
  deriving DecidableEq, Repr

/-! ### Format and unpacking (R171) -/

/-- Sign bit x[31]. -/
def fpSign (w : Word) : Bool := w.getLsbD 31
/-- Biased exponent x[30:23]. -/
def fpExponent (w : Word) : BitVec 8 := w.extractLsb' 23 8
/-- Fraction x[22:0]. -/
def fpFraction (w : Word) : BitVec 23 := w.extractLsb' 0 23

/-- A binary32 value from its three fields. -/
def fpPack (sign : Bool) (exponent : BitVec 8) (fraction : BitVec 23) : Word :=
  BitVec.ofBool sign ++ exponent ++ fraction

/-- A signed zero (R173, R183, R184). -/
def fpZero (sign : Bool) : Word := fpPack sign 0x00#8 0#23

/-- A signed infinity (R175, R183, R184). -/
def fpInfinity (sign : Bool) : Word := fpPack sign 0xFF#8 0#23

/-- The unpacked form (R171). A NaN or an Infinity has no exponent and no significand: the spec calls
them undefined and reads them nowhere (log 5). `e` is the unbiased exponent, `m` the 24-bit
significand with its leading bit. -/
inductive Unpacked where
  | nan (sign : Bool)
  | infinity (sign : Bool)
  | zero (sign : Bool)
  | subnormal (sign : Bool) (e : Int) (m : BitVec 24)
  | normal (sign : Bool) (e : Int) (m : BitVec 24)
  deriving DecidableEq, Repr

/-- Unpacking by the exponent field (R171). -/
def unpack (w : Word) : Unpacked :=
  let sign := fpSign w
  let exponent := fpExponent w
  let fraction := fpFraction w
  if exponent = 0xFF#8 then
    if fraction = 0#23 then .infinity sign else .nan sign
  else if exponent = 0x00#8 then
    if fraction = 0#23 then .zero sign else .subnormal sign (-126) (0#1 ++ fraction)
  else .normal sign ((exponent.toNat : Int) - 127) (1#1 ++ fraction)

/-- The unbiased exponent (R171): -126 for Zero and Subnormal, none for a NaN or an Infinity (log 5). -/
def Unpacked.exponent : Unpacked → Option Int
  | .nan _ => none
  | .infinity _ => none
  | .zero _ => some (-126)
  | .subnormal _ e _ => some e
  | .normal _ e _ => some e

/-- The 24-bit significand (R171): 0 for Zero, none for a NaN or an Infinity (log 5). -/
def Unpacked.significand : Unpacked → Option (BitVec 24)
  | .nan _ => none
  | .infinity _ => none
  | .zero _ => some 0#24
  | .subnormal _ _ m => some m
  | .normal _ _ m => some m

/-- A finite nonzero operand: sign, unbiased exponent and significand (R172). -/
structure Finite where
  sign : Bool
  e : Int
  m : Nat
  deriving DecidableEq, Repr

/-- What the special-case tables of R180, R183 and R184 distinguish. -/
inductive FpClass where
  | nan
  | infinity (sign : Bool)
  | zero (sign : Bool)
  | finite (v : Finite)
  deriving DecidableEq, Repr

/-- Subnormal operands are used at full value, beside the normal ones (R172). -/
def Unpacked.toClass : Unpacked → FpClass
  | .nan _ => .nan
  | .infinity sign => .infinity sign
  | .zero sign => .zero sign
  | .subnormal sign e m => .finite ⟨sign, e, m.toNat⟩
  | .normal sign e m => .finite ⟨sign, e, m.toNat⟩

/-- The class of a binary32 value. -/
def classify (w : Word) : FpClass := (unpack w).toClass

/-! ### The rounder (R173 to R177) -/

/-- OR of the bits of M below position k. -/
def stickyBelow (M k : Nat) : Bool := M % 2 ^ k != 0

/-- Bit k - d of M, 0 where that position is below bit 0 (R174). -/
def bitBelow (M k d : Nat) : Bool := decide (d ≤ k) && M.testBit (k - d)

/-- The first rounding (R174): the 24 kept bits, the unbiased exponent after a carry, and inexact1. -/
structure FirstRounding where
  keep : Nat
  e : Int
  inexact : Bool
  deriving DecidableEq, Repr

/-- The top 24 bits of M from its leading 1 at p, before rounding (R174). -/
def keepBits (M p : Nat) : Nat :=
  if p ≤ 23 then M <<< (23 - p) else M >>> (p - 23)

/-- Round to nearest even on the top 24 bits of M · 2^q, M ≠ 0 (R173, R174). -/
def firstRounding (M : Nat) (q : Int) : FirstRounding :=
  let p := M.log2
  let e : Int := p + q
  let kept := keepBits M p
  let guard := bitBelow M p 24
  let round := bitBelow M p 25
  let sticky := decide (26 ≤ p) && stickyBelow M (p - 25)
  let roundUp := guard && (round || sticky || kept.testBit 0)
  let keep := kept + roundUp.toNat
  let inexact := guard || round || sticky
  if keep = 2 ^ 24 then ⟨2 ^ 23, e + 1, inexact⟩ else ⟨keep, e, inexact⟩

/-- M2 · 2^q2 in units of 2^-149, rounded to nearest even, and whether a bit was lost (R177). -/
def subnormalUnits (M2 : Nat) (q2 : Int) : Nat × Bool :=
  let d : Int := -149 - q2
  if d ≤ 0 then (M2 <<< (-d).toNat, false)
  else
    let n := d.toNat
    let k := M2 >>> n
    let guard := M2.testBit (n - 1)
    let below := stickyBelow M2 (n - 1)
    (k + (guard && (below || k.testBit 0)).toNat, stickyBelow M2 n)

/-- The subnormal path (R177). -/
def subnormalPack (mode : SubnormalReround) (sign : Bool) (M : Nat) (q : Int)
    (first : FirstRounding) : FpuResult :=
  let (units, extra) :=
    match mode with
    | .fromUnrounded => (subnormalUnits M q, false)
    | .fromRounded => (subnormalUnits first.keep (first.e - 23), first.inexact)
  let inexact := units.2 || extra
  ⟨fpZero sign ||| BitVec.ofNat 32 units.1,
    { FpuFlags.none with inexact := inexact, underflow := inexact }⟩

/-- RoundPack(s, M, q): the binary32 result for the exact magnitude M · 2^q (R173 to R177). -/
def roundPack (mode : SubnormalReround) (sign : Bool) (M : Nat) (q : Int) : FpuResult :=
  if M = 0 then ⟨fpZero sign, FpuFlags.none⟩
  else
    let first := firstRounding M q
    let biased : Int := first.e + 127
    if 255 ≤ biased then
      ⟨fpInfinity sign, { FpuFlags.none with overflow := true, inexact := true }⟩
    else if 1 ≤ biased then
      ⟨fpPack sign (BitVec.ofNat 8 biased.toNat) (BitVec.ofNat 23 first.keep),
        { FpuFlags.none with inexact := first.inexact }⟩
    else subnormalPack mode sign M q first

/-! ### Special results -/

/-- A result with no flag. -/
def fpExact (r : Word) : FpuResult := ⟨r, FpuFlags.none⟩

/-- The NaN of a NaN operand (R179). -/
def nanResult (c : Config) : FpuResult := ⟨c.canonicalNan, FpuFlags.none⟩

/-- The NaN of an invalid operation (R179, R180, R183, R184). -/
def invalidResult (c : Config) : FpuResult := ⟨c.canonicalNan, FpuFlags.onlyInvalid⟩

/-! ### Addition and subtraction (R180 to R182) -/

/-- The signed significand of an operand at exponent `emin`: (-1)^s · m · 2^(e - emin) (R180). -/
def alignedSignificand (v : Finite) (emin : Int) : Int :=
  (if v.sign then -1 else 1) * ((v.m * 2 ^ (v.e - emin).toNat : Nat) : Int)

/-- The finite computation of f32_add (R180): an exact cancellation gives +0. -/
def addFinite (mode : SubnormalReround) (a b : Finite) : FpuResult :=
  let emin := min a.e b.e
  let n := alignedSignificand a emin + alignedSignificand b emin
  if n = 0 then fpExact (fpZero false)
  else roundPack mode (decide (n < 0)) n.natAbs (emin - 23)

/-- f32_add (R180): the special cases in the order of the table, then the finite computation. -/
def f32Add (c : Config) (a b : Word) : FpuResult :=
  match classify a, classify b with
  | .nan, _ => nanResult c
  | _, .nan => nanResult c
  | .infinity sa, .infinity sb => if sa = sb then fpExact a else invalidResult c
  | .infinity _, _ => fpExact a
  | _, .infinity _ => fpExact b
  | .zero _, _ => fpExact b
  | _, .zero _ => fpExact a
  | .finite va, .finite vb => addFinite c.subnormalReround va vb

/-- f32_sub (R182): f32_add with the sign of b inverted. -/
def f32Sub (c : Config) (a b : Word) : FpuResult := f32Add c a (b ^^^ 0x80000000#32)

/-- The shift of R181 with the lost bits gathered into bit 0. -/
def alignSticky (y dlt : Nat) : Nat :=
  if 27 ≤ dlt then (if y = 0 then 0 else 1)
  else if 0 < dlt then (y >>> dlt) ||| (stickyBelow y dlt).toNat
  else y

/-- The operands in order of magnitude: (e, m) of the first is not below that of the second (R181). -/
def ordered (a b : Finite) : Finite × Finite :=
  if b.e < a.e ∨ (a.e = b.e ∧ b.m ≤ a.m) then (a, b) else (b, a)

/-- The 27-bit datapath of f32_add (R181), 24 bits with guard, round and sticky. -/
def addDatapath (mode : SubnormalReround) (a b : Finite) : FpuResult :=
  let (big, small) := ordered a b
  let x := big.m <<< 3
  let y := alignSticky (small.m <<< 3) (big.e - small.e).toNat
  let sum := if big.sign = small.sign then x + y else x - y
  if sum = 0 then fpExact (fpZero false) else roundPack mode big.sign sum (big.e - 26)

/-! ### Multiplication (R183) -/

/-- The finite computation of f32_mul: the 48-bit product of the significands (R183). -/
def mulFinite (mode : SubnormalReround) (a b : Finite) : FpuResult :=
  let p := shiftAdd 48 (BitVec.ofNat 24 a.m) (BitVec.ofNat 24 b.m)
  roundPack mode (a.sign ^^ b.sign) p.toNat (a.e + b.e - 46)

/-- f32_mul (R183). -/
def f32Mul (c : Config) (a b : Word) : FpuResult :=
  let sign := fpSign a ^^ fpSign b
  match classify a, classify b with
  | .nan, _ => nanResult c
  | _, .nan => nanResult c
  | .zero _, .infinity _ => invalidResult c
  | .infinity _, .zero _ => invalidResult c
  | .infinity _, _ => fpExact (fpInfinity sign)
  | _, .infinity _ => fpExact (fpInfinity sign)
  | .zero _, _ => fpExact (fpZero sign)
  | _, .zero _ => fpExact (fpZero sign)
  | .finite va, .finite vb => mulFinite c.subnormalReround va vb

/-! ### Division (R184, R185) -/

/-- The finite computation of f32_div (R185). -/
def divFinite (c : Config) (a b : Finite) : FpuResult :=
  let sign := a.sign ^^ b.sign
  match c.fdivMode with
  | .ieeeRne =>
    let quotient := (a.m <<< 64) / b.m
    let rem := (a.m <<< 64) % b.m
    roundPack c.subnormalReround sign ((quotient <<< 1) ||| (rem != 0).toNat) (a.e - b.e - 65)
  | .literal =>
    roundPack c.subnormalReround sign ((a.m <<< 23) / b.m) (a.e - b.e - 23)

/-- f32_div (R184, R185): the special cases in the order of the table, then the quotient. -/
def f32Div (c : Config) (a b : Word) : FpuResult :=
  let sign := fpSign a ^^ fpSign b
  match classify a, classify b with
  | .nan, _ => nanResult c
  | _, .nan => nanResult c
  | .zero _, .zero _ => invalidResult c
  | .infinity _, .infinity _ => invalidResult c
  | .infinity _, _ => ⟨fpInfinity sign, FpuFlags.onlyOverflow⟩
  | _, .zero _ => ⟨fpInfinity sign, FpuFlags.onlyOverflow⟩
  | .zero _, _ => ⟨fpZero sign, FpuFlags.onlyUnderflow⟩
  | _, .infinity _ => ⟨fpZero sign, FpuFlags.onlyUnderflow⟩
  | .finite va, .finite vb => divFinite c va vb

/-- The FPU (R170). -/
def fpu (c : Config) (op : FpuOp) (a b : Word) : FpuResult :=
  match op with
  | .add => f32Add c a b
  | .sub => f32Sub c a b
  | .mul => f32Mul c a b
  | .div => f32Div c a b

end Sys2Proof.Machine
end

