-- ==== Sys2Proof/Machine/Api.lean ====
section
/-! DEFINITION. The arithmetic API port (spec 44_execution_engine.md R217, 60_exceptions.md R273): one
ALU, MDU or FPU operation on two 32-bit values, or InvalidOperation. It reads and writes no engine
state; the hexadecimal text of the software is out of scope (R6). -/

namespace Sys2Proof.Machine

/-- The flag record of the unit that answered (R217). -/
inductive ApiFlags where
  | alu (flags : AluFlags)
  | mdu (flags : MduFlags)
  | fpu (flags : FpuFlags)
  deriving DecidableEq, Repr

/-- What the port answers (R217): a result with fresh flags, or the error InvalidOperation. -/
inductive ApiOutcome where
  | result (r : Word) (flags : ApiFlags)
  | invalidOperation
  deriving DecidableEq, Repr

/-- The operation a mnemonic selects. -/
inductive ApiOp where
  | alu (op : AluOp)
  | mdu (op : MduOp)
  | fpu (op : FpuOp)
  deriving DecidableEq, Repr

/-- The ALU mnemonics (R217). -/
def aluMnemonics : List (String × ApiOp) :=
  [("ADD", .alu .add), ("SUB", .alu .sub), ("AND", .alu .and), ("OR", .alu .or),
   ("XOR", .alu .xor), ("SLL", .alu .sll), ("SRL", .alu .srl), ("SRA", .alu .sra),
   ("SLT", .alu .slt), ("SLTU", .alu .sltu)]

/-- The MDU mnemonics (R217). -/
def mduMnemonics : List (String × ApiOp) :=
  [("MUL", .mdu .mul), ("MULH", .mdu .mulh), ("MULHSU", .mdu .mulhsu), ("MULHU", .mdu .mulhu),
   ("DIV", .mdu .div), ("DIVU", .mdu .divu), ("REM", .mdu .rem), ("REMU", .mdu .remu)]

/-- The FPU mnemonics (R217). -/
def fpuMnemonics : List (String × ApiOp) :=
  [("f32_add", .fpu .add), ("f32_sub", .fpu .sub), ("f32_mul", .fpu .mul), ("f32_div", .fpu .div)]

/-- Every mnemonic of the port (R217). -/
def apiMnemonics : List (String × ApiOp) := aluMnemonics ++ mduMnemonics ++ fpuMnemonics

/-- The operation of a mnemonic: the entry of `apiMnemonics` with that name, if any. -/
def apiOpOf (mnemonic : String) : Option ApiOp :=
  (apiMnemonics.find? fun entry => decide (entry.1 = mnemonic)).map Prod.snd

/-- One operation of a unit, with the unit's flags. -/
def apiRun (c : Config) (op : ApiOp) (a b : Word) : ApiOutcome :=
  match op with
  | .alu op => .result (alu op a b).r (.alu (alu op a b).flags)
  | .mdu op => .result (mdu op a b).r (.mdu (mdu op a b).flags)
  | .fpu op => .result (fpu c op a b).r (.fpu (fpu c op a b).flags)

/-- The port (R217): a mnemonic outside the tables gives InvalidOperation (R273). -/
def apiCall (c : Config) (mnemonic : String) (a b : Word) : ApiOutcome :=
  match apiOpOf mnemonic with
  | some op => apiRun c op a b
  | none => .invalidOperation

end Sys2Proof.Machine
end

