-- ==== Sys2Proof/Machine/Assembler.lean ====
section
/-! DEFINITION. Pseudo-instructions and the assembler's names (spec 30_encoding.md R78, R79). They have no
meaning of their own: a pseudo-instruction is the list of instructions it expands to, and the names
are labels. -/

namespace Sys2Proof.Machine

/-! ### Pseudo-instructions (R79) -/

/-- NOP. -/
def pseudoNop : List Instr := [.addi 0#5 0#5 0#12]
/-- HALT, the spec's name of JAL x0, 0. -/
def pseudoHalt : List Instr := [.halt]
/-- lo12 of a 32-bit constant: its low 12 bits. -/
def lo12 (imm : Word) : BitVec 12 := imm.extractLsb' 0 12
/-- hi20 of a 32-bit constant: (imm − sext(lo12))[31:12]. -/
def hi20 (imm : Word) : BitVec 20 := (imm - immSext (lo12 imm)).extractLsb' 12 20
/-- LI rd, imm: one ADDI where −2048 ≤ imm ≤ 2047, else LUI and ADDI. -/
def pseudoLi (rd : RegIdx) (imm : Word) : List Instr :=
  if immSext (lo12 imm) = imm then [.addi rd 0#5 (lo12 imm)]
  else [.lui rd (hi20 imm), .addi rd rd (lo12 imm)]
/-- MV rd, rs. -/
def pseudoMv (rd rs : RegIdx) : List Instr := [.addi rd rs 0#12]
/-- NOT rd, rs. -/
def pseudoNot (rd rs : RegIdx) : List Instr := [.xori rd rs 0xFFF#12]
/-- NEG rd, rs. -/
def pseudoNeg (rd rs : RegIdx) : List Instr := [.sub rd 0#5 rs]
/-- SEQZ rd, rs. -/
def pseudoSeqz (rd rs : RegIdx) : List Instr := [.sltiu rd rs 1#12]
/-- SNEZ rd, rs. -/
def pseudoSnez (rd rs : RegIdx) : List Instr := [.sltu rd 0#5 rs]
/-- SLTZ rd, rs. -/
def pseudoSltz (rd rs : RegIdx) : List Instr := [.slt rd rs 0#5]
/-- SGTZ rd, rs. -/
def pseudoSgtz (rd rs : RegIdx) : List Instr := [.slt rd 0#5 rs]
/-- BEQZ rs, off. -/
def pseudoBeqz (rs : RegIdx) (offset : BitVec 13) : List Instr := [.beq rs 0#5 offset]
/-- BNEZ rs, off. -/
def pseudoBnez (rs : RegIdx) (offset : BitVec 13) : List Instr := [.bne rs 0#5 offset]
/-- J off; `J 0` is the halt sentinel. -/
def pseudoJ (offset : BitVec 21) : List Instr :=
  if offset = 0#21 then [.halt] else [.jal 0#5 offset]
/-- JR rs. -/
def pseudoJr (rs : RegIdx) : List Instr := [.jalr 0#5 rs 0#12]
/-- RET. -/
def pseudoRet : List Instr := [.jalr 0#5 1#5 0#12]
/-- CALL off (near). -/
def pseudoCall (offset : BitVec 21) : List Instr := [.jal 1#5 offset]
/-- LA rd, sym: AUIPC and ADDI on the split of the pc-relative distance. -/
def pseudoLa (rd : RegIdx) (distance : Word) : List Instr :=
  [.auipc rd (hi20 distance), .addi rd rd (lo12 distance)]

/-! The branches below are those R79 names in its last paragraph. The spec says only that they expand to BLT,
BGE, BLTU or BGEU, and only under BRANCH_SET = FULL: which of the four, and in which operand order, is
the model's choice (log 12, PRESUMED: the standard RISC-V assembler's). BGTZ and BLEZ are what the
model reads in the rule's "and the like". -/

/-- BGT rs1, rs2, off: BLT with the operands exchanged (PRESUMED, log 12). -/
def pseudoBgt (rs1 rs2 : RegIdx) (offset : BitVec 13) : List Instr := [.blt rs2 rs1 offset]
/-- BLE rs1, rs2, off: BGE with the operands exchanged (PRESUMED, log 12). -/
def pseudoBle (rs1 rs2 : RegIdx) (offset : BitVec 13) : List Instr := [.bge rs2 rs1 offset]
/-- BGTU rs1, rs2, off: BLTU with the operands exchanged (PRESUMED, log 12). -/
def pseudoBgtu (rs1 rs2 : RegIdx) (offset : BitVec 13) : List Instr := [.bltu rs2 rs1 offset]
/-- BLEU rs1, rs2, off: BGEU with the operands exchanged (PRESUMED, log 12). -/
def pseudoBleu (rs1 rs2 : RegIdx) (offset : BitVec 13) : List Instr := [.bgeu rs2 rs1 offset]
/-- BLTZ rs, off: BLT rs, x0 (PRESUMED, log 12). -/
def pseudoBltz (rs : RegIdx) (offset : BitVec 13) : List Instr := [.blt rs 0#5 offset]
/-- BGEZ rs, off: BGE rs, x0 (PRESUMED, log 12). -/
def pseudoBgez (rs : RegIdx) (offset : BitVec 13) : List Instr := [.bge rs 0#5 offset]
/-- BGTZ rs, off: BLT x0, rs (PRESUMED, log 12). -/
def pseudoBgtz (rs : RegIdx) (offset : BitVec 13) : List Instr := [.blt 0#5 rs offset]
/-- BLEZ rs, off: BGE x0, rs (PRESUMED, log 12). -/
def pseudoBlez (rs : RegIdx) (offset : BitVec 13) : List Instr := [.bge 0#5 rs offset]

/-! ### Names (R78) -/

/-- The register as the source writes it: x0 to x31. -/
def regName (r : RegIdx) : String := "x" ++ toString r.toNat

/-- The ABI names by register number. -/
def abiNames : List String :=
  ["zero", "ra", "sp", "gp", "tp", "t0", "t1", "t2", "s0", "s1", "a0", "a1", "a2", "a3", "a4", "a5"]
    ++ ["a6", "a7", "s2", "s3", "s4", "s5", "s6", "s7", "s8", "s9", "s10", "s11", "t3", "t4", "t5", "t6"]

/-- The ABI name of a register, a label without meaning (R241). -/
def abiName (r : RegIdx) : String := abiNames.getD r.toNat ""

/-- `OP rd, rs1, rs2` and every other form of three comma-separated operands. -/
def asmThree (m : Mnemonic) (a b c : String) : String := m.name ++ " " ++ a ++ ", " ++ b ++ ", " ++ c
/-- `OP a, b`. -/
def asmTwo (m : Mnemonic) (a b : String) : String := m.name ++ " " ++ a ++ ", " ++ b
/-- `imm(rs1)`. -/
def asmAddress (imm : BitVec 12) (rs1 : RegIdx) : String :=
  toString imm.toInt ++ "(" ++ regName rs1 ++ ")"

/-- The assembler text of an instruction in the form of R78. HALT is written JAL x0, 0 (R79). Numbers are
written in decimal (DESIGN CHOICE, log 13: the spec names no radix). -/
def asm (i : Instr) : String :=
  match i with
  | .add rd rs1 rs2 => asmThree .add (regName rd) (regName rs1) (regName rs2)
  | .sub rd rs1 rs2 => asmThree .sub (regName rd) (regName rs1) (regName rs2)
  | .sll rd rs1 rs2 => asmThree .sll (regName rd) (regName rs1) (regName rs2)
  | .slt rd rs1 rs2 => asmThree .slt (regName rd) (regName rs1) (regName rs2)
  | .sltu rd rs1 rs2 => asmThree .sltu (regName rd) (regName rs1) (regName rs2)
  | .xor rd rs1 rs2 => asmThree .xor (regName rd) (regName rs1) (regName rs2)
  | .srl rd rs1 rs2 => asmThree .srl (regName rd) (regName rs1) (regName rs2)
  | .sra rd rs1 rs2 => asmThree .sra (regName rd) (regName rs1) (regName rs2)
  | .or rd rs1 rs2 => asmThree .or (regName rd) (regName rs1) (regName rs2)
  | .and rd rs1 rs2 => asmThree .and (regName rd) (regName rs1) (regName rs2)
  | .addi rd rs1 imm => asmThree .addi (regName rd) (regName rs1) (toString imm.toInt)
  | .slti rd rs1 imm => asmThree .slti (regName rd) (regName rs1) (toString imm.toInt)
  | .sltiu rd rs1 imm => asmThree .sltiu (regName rd) (regName rs1) (toString imm.toInt)
  | .xori rd rs1 imm => asmThree .xori (regName rd) (regName rs1) (toString imm.toInt)
  | .ori rd rs1 imm => asmThree .ori (regName rd) (regName rs1) (toString imm.toInt)
  | .andi rd rs1 imm => asmThree .andi (regName rd) (regName rs1) (toString imm.toInt)
  | .slli rd rs1 shamt => asmThree .slli (regName rd) (regName rs1) (toString shamt.toNat)
  | .srli rd rs1 shamt => asmThree .srli (regName rd) (regName rs1) (toString shamt.toNat)
  | .srai rd rs1 shamt => asmThree .srai (regName rd) (regName rs1) (toString shamt.toNat)
  | .mul rd rs1 rs2 => asmThree .mul (regName rd) (regName rs1) (regName rs2)
  | .mulh rd rs1 rs2 => asmThree .mulh (regName rd) (regName rs1) (regName rs2)
  | .mulhsu rd rs1 rs2 => asmThree .mulhsu (regName rd) (regName rs1) (regName rs2)
  | .mulhu rd rs1 rs2 => asmThree .mulhu (regName rd) (regName rs1) (regName rs2)
  | .div rd rs1 rs2 => asmThree .div (regName rd) (regName rs1) (regName rs2)
  | .divu rd rs1 rs2 => asmThree .divu (regName rd) (regName rs1) (regName rs2)
  | .rem rd rs1 rs2 => asmThree .rem (regName rd) (regName rs1) (regName rs2)
  | .remu rd rs1 rs2 => asmThree .remu (regName rd) (regName rs1) (regName rs2)
  | .lui rd imm20 => asmTwo .lui (regName rd) (toString imm20.toNat)
  | .auipc rd imm20 => asmTwo .auipc (regName rd) (toString imm20.toNat)
  | .jal rd offset => asmTwo .jal (regName rd) (toString offset.toInt)
  | .jalr rd rs1 imm => asmTwo .jalr (regName rd) (asmAddress imm rs1)
  | .beq rs1 rs2 offset => asmThree .beq (regName rs1) (regName rs2) (toString offset.toInt)
  | .bne rs1 rs2 offset => asmThree .bne (regName rs1) (regName rs2) (toString offset.toInt)
  | .blt rs1 rs2 offset => asmThree .blt (regName rs1) (regName rs2) (toString offset.toInt)
  | .bge rs1 rs2 offset => asmThree .bge (regName rs1) (regName rs2) (toString offset.toInt)
  | .bltu rs1 rs2 offset => asmThree .bltu (regName rs1) (regName rs2) (toString offset.toInt)
  | .bgeu rs1 rs2 offset => asmThree .bgeu (regName rs1) (regName rs2) (toString offset.toInt)
  | .lb rd rs1 imm => asmTwo .lb (regName rd) (asmAddress imm rs1)
  | .lh rd rs1 imm => asmTwo .lh (regName rd) (asmAddress imm rs1)
  | .lw rd rs1 imm => asmTwo .lw (regName rd) (asmAddress imm rs1)
  | .lbu rd rs1 imm => asmTwo .lbu (regName rd) (asmAddress imm rs1)
  | .lhu rd rs1 imm => asmTwo .lhu (regName rd) (asmAddress imm rs1)
  | .sb rs2 rs1 imm => asmTwo .sb (regName rs2) (asmAddress imm rs1)
  | .sh rs2 rs1 imm => asmTwo .sh (regName rs2) (asmAddress imm rs1)
  | .sw rs2 rs1 imm => asmTwo .sw (regName rs2) (asmAddress imm rs1)
  | .halt => asmTwo .jal (regName 0#5) "0"

end Sys2Proof.Machine
end

