-- ==== Sys2Proof/Machine/HostLoop.lean ====
section
/-! DEFINITION. The host's side (spec 70_reset_and_hazards.md R293 to R296): the bounded driving loop and
the snapshot. They are not part of the core; MAX_STEPS and SNAPSHOT_WINDOW are their arguments. -/

namespace Sys2Proof.Machine

/-- The state after one call of step. Every step answers a next state (R220), so the other two
outcomes, which keep the state, do not arise. -/
def State.afterStep (s : State) : State :=
  match step s with
  | .next t => t
  | .fault _ => s
  | .refused _ => s

/-- What the host reports at the end of a run (R294, R296). -/
inductive HostStatus where
  | halted
  | faulted
  | budgetExhausted
  deriving DecidableEq, Repr

/-- The host's status of a final state: BudgetExhausted where the core still runs (R296). -/
def hostStatus (s : State) : HostStatus :=
  match s.status with
  | .halted => .halted
  | .faulted => .faulted
  | .running => .budgetExhausted

/-- What the driving loop returns: the host status, the last state, the number of steps (R296). -/
structure RunResult where
  hostStatus : HostStatus
  state : State
  steps : Nat
  deriving DecidableEq, Repr

/-- The loop of R296: `budget` steps are left and n are done. -/
def driveLoop : (budget : Nat) → (n : Nat) → State → RunResult
  | 0, n, s => ⟨hostStatus s, s, n⟩
  | budget + 1, n, s =>
    if s.status = .running then driveLoop budget (n + 1) s.afterStep else ⟨hostStatus s, s, n⟩

/-- run(IMEM, MAX_STEPS) (R296), with the configuration of the machine. -/
def hostRun (config : Config) (image : List Word) (maxSteps : Nat) : RunResult :=
  driveLoop maxSteps 0 (State.resetWith config image)

/-- The snapshot (R295): pc, the 32 registers, and a window of data memory. -/
structure Snapshot where
  pc : Word
  registers : List Word
  window : List Byte
  deriving DecidableEq, Repr

/-- The snapshot of a state for the window of `length` bytes at `base`: a byte below DATA_BASE shows 0
(R295). -/
def State.snapshot (s : State) (base : Word) (length : Nat) : Snapshot where
  pc := s.pc
  registers := (List.range 32).map fun i => s.readReg (BitVec.ofNat 5 i)
  window := (List.range length).map fun i => s.readByte (base + BitVec.ofNat 32 i)

end Sys2Proof.Machine
end

