-- ==== Sys2Proof/Safety.lean ====
section
/-! DEFINITION. The terms the claims are stated in: the invariant of every run, what a safe state is, and
what an instruction writes and leaves unchanged (its frame). -/

namespace Sys2Proof.Machine

/-! ### The invariant -/

/-- A fault record that a step can write (spec 60_exceptions.md R271): the address is misaligned; a
fetch fault's address is the pc, and a load or store faults at a 4-aligned pc. -/
def FaultRecord.wf (r : FaultRecord) : Bool :=
  r.addr.extractLsb' 0 2 != 0#2 &&
    match r.kind with
    | .fetchMisaligned => r.addr == r.pc
    | .loadMisaligned => r.pc.extractLsb' 0 2 == 0#2
    | .storeMisaligned => r.pc.extractLsb' 0 2 == 0#2

/-- The status and the fault record agree (10_state.md R27, R28): a record stands exactly in a Faulted
state, it is one a step can write, and its pc is the state's. -/
def State.statusWf (s : State) : Bool :=
  match s.status, s.fault with
  | .faulted, some r => r.wf && r.pc == s.pc
  | .faulted, none => false
  | .running, none => true
  | .halted, none => true
  | .running, some _ => false
  | .halted, some _ => false

/-- Every listed byte of data memory is mapped (20_memory.md R43, R46). -/
def State.dmemMapped (s : State) : Bool :=
  s.dmem.all fun cell => decide (s.config.dataBase.toNat ≤ cell.1)

/-- The invariant of every run: x0 holds 0 (R21), data memory is in canonical form and holds mapped
bytes only, status and record agree, the parameters meet their constraints (R10), and IMEM fits its
space (R10). -/
def State.wf (s : State) : Bool :=
  s.x[0] == 0#32 && s.dmem.wf && s.dmemMapped && s.statusWf && s.config.valid
    && decide (s.imem.length ≤ 2 ^ 30)

/-- A state of a run that no fault has ended. -/
def State.safe (s : State) : Bool := s.status != .faulted

/-! ### Effects and frames -/

/-- Every register reads as before, but for rd, which reads v; x0 reads 0 whatever rd is (R21). -/
def RegWritten (s t : State) (rd : RegIdx) (v : Word) : Prop :=
  ∀ r : RegIdx, t.readReg r = if r = rd ∧ rd ≠ 0#5 then v else s.readReg r

/-- Every register reads as before. -/
def RegsKept (s t : State) : Prop := ∀ r : RegIdx, t.readReg r = s.readReg r

/-- Every byte of data memory reads as before, mapped or not. -/
def BytesKept (s t : State) : Prop :=
  (∀ a : Nat, t.dmem.read a = s.dmem.read a) ∧ ∀ a : Word, t.readByte a = s.readByte a

/-- The parts of the state no completed instruction changes: the run status, the fault record, IMEM
and the configuration. -/
structure ControlKept (s t : State) : Prop where
  status : t.status = s.status
  fault : t.fault = s.fault
  imem : t.imem = s.imem
  config : t.config = s.config

/-- A completed instruction that writes at most rd and the pc: its effect and its whole frame. The
slot of x0 holds 0 after it (R216). -/
structure RegisterEffect (s t : State) (rd : RegIdx) (v nextPc : Word) : Prop where
  reg : RegWritten s t rd v
  slot0 : t.x[0] = 0#32
  pc : t.pc = nextPc
  dmem : t.dmem = s.dmem
  bytes : BytesKept s t
  out : t.out = s.out
  control : ControlKept s t

/-- A completed instruction that only sets the pc: its effect and its whole frame. -/
structure PcEffect (s t : State) (nextPc : Word) : Prop where
  regs : RegsKept s t
  slot0 : t.x[0] = 0#32
  pc : t.pc = nextPc
  dmem : t.dmem = s.dmem
  bytes : BytesKept s t
  out : t.out = s.out
  control : ControlKept s t

/-- A completed store of the n low bytes of v at the effective address `ea` (R46, R260): at
MMIO_TX_ADDR one byte is emitted and no memory changes; elsewhere byte i of v stands at ea +_32 i
where that address is mapped, and every other byte is unchanged. No register changes. -/
structure StoredEffect (s t : State) (ea : Word) (n : Nat) (v : Word) : Prop where
  regs : RegsKept s t
  slot0 : t.x[0] = 0#32
  pc : t.pc = s.pc + 4#32
  control : ControlKept s t
  emitted : ea = s.config.mmioTxAddr → t.out = s.out ++ [v.extractLsb' 0 8] ∧ t.dmem = s.dmem
  silent : ea ≠ s.config.mmioTxAddr → t.out = s.out
  stored : ea ≠ s.config.mmioTxAddr → ∀ i : Nat, i < n →
    t.readByte (ea + BitVec.ofNat 32 i) =
      if s.config.dataBase ≤ ea + BitVec.ofNat 32 i then v.extractLsb' (8 * i) 8 else 0#8
  frame : ∀ a : Word, (∀ i : Nat, i < n → a ≠ ea + BitVec.ofNat 32 i) →
    t.readByte a = s.readByte a ∧ t.dmem.read a.toNat = s.dmem.read a.toNat
  unmapped : ∀ a : Nat, a < s.config.dataBase.toNat → t.dmem.read a = s.dmem.read a

/-- A faulting step (R270): status and record are set and everything else keeps its value. -/
def FaultEffect (s t : State) (kind : Fault) (addr : Word) : Prop :=
  t = { s with status := .faulted, fault := some ⟨kind, addr, s.pc⟩ }

/-! ### Floating-point patterns and values -/

/-- A NaN pattern: exponent all ones, fraction not zero (43_fpu.md R171). -/
def IsNan (w : Word) : Prop := w.extractLsb' 23 8 = 0xFF#8 ∧ w.extractLsb' 0 23 ≠ 0#23

/-- An infinity: 0x7F800000 or 0xFF800000 (R171). -/
def IsInf (w : Word) : Prop := w = 0x7F800000#32 ∨ w = 0xFF800000#32

/-- A signed zero: 0x00000000 or 0x80000000 (R171). -/
def IsZero (w : Word) : Prop := w = 0x00000000#32 ∨ w = 0x80000000#32

/-- A finite nonzero value, subnormal or normal (R171). -/
def IsFiniteNonzero (w : Word) : Prop := ¬ IsNan w ∧ ¬ IsInf w ∧ ¬ IsZero w

/-- The word with the magnitude `magnitude` (bit 31 of it 0) and the sign s_a ^ s_b (R183, R184). -/
def withProductSign (a b magnitude : Word) : Word := ((a ^^^ b) &&& 0x80000000#32) ||| magnitude

/-- The magnitude of a finite operand: m · 2^(e - 23) (R172). -/
def Finite.magnitude (v : Finite) : ℚ := v.m * (2 : ℚ) ^ (v.e - 23)

/-- The magnitude a binary32 word stands for: 0 for a zero, none for a NaN or an infinity (R172). -/
def fpMagnitude (w : Word) : Option ℚ :=
  match classify w with
  | .nan => none
  | .infinity _ => none
  | .zero _ => some 0
  | .finite v => some v.magnitude

end Sys2Proof.Machine
end

