-- ==== Sys2Proof/Certificates/Slice0/Obligations.lean ====
section
/-! DEFINITION. The statements for the provers. Each docstring names the rules of spec/ it formalises; the
terms (effects, frames, the invariant) are those of Sys2Proof/Safety.lean. Every statement holds for
every value of the configuration. -/

open Sys2Proof Sys2Proof.Machine

/-! ### Encoding -/

/-- R60 to R76: the decoder gives back every instruction the encoder writes, with every operand. -/
def Obligations.DecodeOfEncodeGivesInstruction : Prop :=
  ∀ (bs : BranchSet) (i : Instr), i.wellFormed = true → i.mnemonic.availableIn bs = true →
    decode bs (encode i) = .instr i

/-- R60 to R76: a word the decoder reads as an instruction is the encoding of that instruction, which
is well-formed and recognised under BRANCH_SET: no two words are one instruction. -/
def Obligations.EncodeOfDecodeGivesWord : Prop :=
  ∀ (bs : BranchSet) (w : Word) (i : Instr), decode bs w = .instr i →
    encode i = w ∧ i.wellFormed = true ∧ i.mnemonic.availableIn bs = true

/-- R76 and R75: the decoder names the row of the opcode table under the priority HALT, then the one
matching row, then unrecognised; the rows but for HALT are pairwise disjoint, and HALT's word is
also of the JAL row. -/
def Obligations.DecoderFollowsOpcodeTablePriority : Prop :=
  (∀ (bs : BranchSet) (w : Word), (decode bs w).toOption.map Instr.mnemonic = opcodeLookup bs w) ∧
  (∀ (w : Word) (r r' : OpcodeRow), r ∈ opcodeRows → r' ∈ opcodeRows →
    r.matchesWord w = true → r'.matchesWord w = true → r = r') ∧
  (∀ w : Word, haltRow.matchesWord w = true ↔ w = 0x0000006F#32) ∧
  (∃ r ∈ opcodeRows, r.mnemonic = .jal ∧ r.matchesWord 0x0000006F#32 = true)

/-- R60, R70: a word whose major opcode is none of the nine is unrecognised, whatever its other bits;
among them every word whose bits [1:0] are not 0b11. -/
def Obligations.OnlyNineMajorOpcodesAreRecognised : Prop :=
  (∀ (bs : BranchSet) (w : Word),
    w.extractLsb' 0 7 ∉ [0x37#7, 0x17#7, 0x6F#7, 0x67#7, 0x63#7, 0x03#7, 0x23#7, 0x13#7, 0x33#7] →
    decode bs w = .unrecognised .majorOpcode) ∧
  (∀ (bs : BranchSet) (w : Word), w.extractLsb' 0 2 ≠ 0b11#2 →
    decode bs w = .unrecognised .majorOpcode)

/-- R63 to R67: every bit of the five immediates, for every word. -/
def Obligations.ImmediateBitsComeFromTheirPlaces : Prop :=
  ∀ (w : Word) (i : Nat), i < 32 →
    ((immIOf w).getLsbD i = if i < 11 then w.getLsbD (i + 20) else w.getLsbD 31) ∧
    ((immSOf w).getLsbD i =
      if i < 5 then w.getLsbD (i + 7) else if i < 11 then w.getLsbD (i + 20) else w.getLsbD 31) ∧
    ((immBOf w).getLsbD i =
      if i = 0 then false else if i < 5 then w.getLsbD (i + 7)
      else if i < 11 then w.getLsbD (i + 20) else if i = 11 then w.getLsbD 7 else w.getLsbD 31) ∧
    ((immUOf w).getLsbD i = if i < 12 then false else w.getLsbD i) ∧
    ((immJOf w).getLsbD i =
      if i = 0 then false else if i < 11 then w.getLsbD (i + 20)
      else if i = 11 then w.getLsbD 20 else if i < 20 then w.getLsbD i else w.getLsbD 31)

/-- R61 to R76 on single words written out from the spec's encodings (95_test_vectors.md, 4, 7, 8). -/
def Obligations.WrittenOutWordsDecode : Prop :=
  decode .eqNeOnly 0x002081B3#32 = .instr (.add 3#5 1#5 2#5) ∧
  decode .eqNeOnly 0xFFF00113#32 = .instr (.addi 2#5 0#5 0xFFF#12) ∧
  decode .eqNeOnly 0x40315093#32 = .instr (.srai 1#5 2#5 3#5) ∧
  decode .eqNeOnly 0x022081B3#32 = .instr (.mul 3#5 1#5 2#5) ∧
  decode .eqNeOnly 0xFFFFF0B7#32 = .instr (.lui 1#5 0xFFFFF#20) ∧
  decode .eqNeOnly 0x800000EF#32 = .instr (.jal 1#5 0x100000#21) ∧
  decode .eqNeOnly 0xFE209CE3#32 = .instr (.bne 1#5 2#5 0x1FF8#13) ∧
  decode .eqNeOnly 0xFE112E23#32 = .instr (.sw 1#5 2#5 0xFFC#12) ∧
  decode .eqNeOnly 0x0000006F#32 = .instr .halt ∧
  decode .full 0x0000C463#32 = .instr (.blt 1#5 0#5 8#13) ∧
  decode .eqNeOnly 0x0000C463#32 = .unrecognised .branchFunction ∧
  decode .eqNeOnly 0x402091B3#32 = .unrecognised .opFunction

/-! ### The integer instructions -/

/-- R113, R114: ADD and SUB, their encodings, results and frames. -/
def Obligations.AddSubWriteWrappedSum : Prop :=
  ∀ (bs : BranchSet) (rd rs1 rs2 : RegIdx) (s : State),
    decode bs (0b0000000#7 ++ rs2 ++ rs1 ++ 0b000#3 ++ rd ++ 0b0110011#7) =
      .instr (.add rd rs1 rs2) ∧
    decode bs (0b0100000#7 ++ rs2 ++ rs1 ++ 0b000#3 ++ rd ++ 0b0110011#7) =
      .instr (.sub rd rs1 rs2) ∧
    (∃ t, exec (.add rd rs1 rs2) s = .next t ∧
      RegisterEffect s t rd (s.readReg rs1 + s.readReg rs2) (s.pc + 4#32)) ∧
    (∃ t, exec (.sub rd rs1 rs2) s = .next t ∧
      RegisterEffect s t rd (s.readReg rs1 - s.readReg rs2) (s.pc + 4#32))

/-- R118, R121, R122: XOR, OR and AND. -/
def Obligations.LogicOpsWriteBitwiseResult : Prop :=
  ∀ (bs : BranchSet) (rd rs1 rs2 : RegIdx) (s : State),
    decode bs (0b0000000#7 ++ rs2 ++ rs1 ++ 0b100#3 ++ rd ++ 0b0110011#7) =
      .instr (.xor rd rs1 rs2) ∧
    decode bs (0b0000000#7 ++ rs2 ++ rs1 ++ 0b110#3 ++ rd ++ 0b0110011#7) =
      .instr (.or rd rs1 rs2) ∧
    decode bs (0b0000000#7 ++ rs2 ++ rs1 ++ 0b111#3 ++ rd ++ 0b0110011#7) =
      .instr (.and rd rs1 rs2) ∧
    (∃ t, exec (.xor rd rs1 rs2) s = .next t ∧
      RegisterEffect s t rd (s.readReg rs1 ^^^ s.readReg rs2) (s.pc + 4#32)) ∧
    (∃ t, exec (.or rd rs1 rs2) s = .next t ∧
      RegisterEffect s t rd (s.readReg rs1 ||| s.readReg rs2) (s.pc + 4#32)) ∧
    (∃ t, exec (.and rd rs1 rs2) s = .next t ∧
      RegisterEffect s t rd (s.readReg rs1 &&& s.readReg rs2) (s.pc + 4#32))

/-- R115, R119, R120: SLL, SRL and SRA shift by x[rs2] mod 32; the results as integers. -/
def Obligations.RegisterShiftsWriteShiftedValue : Prop :=
  ∀ (bs : BranchSet) (rd rs1 rs2 : RegIdx) (s : State),
    decode bs (0b0000000#7 ++ rs2 ++ rs1 ++ 0b001#3 ++ rd ++ 0b0110011#7) =
      .instr (.sll rd rs1 rs2) ∧
    decode bs (0b0000000#7 ++ rs2 ++ rs1 ++ 0b101#3 ++ rd ++ 0b0110011#7) =
      .instr (.srl rd rs1 rs2) ∧
    decode bs (0b0100000#7 ++ rs2 ++ rs1 ++ 0b101#3 ++ rd ++ 0b0110011#7) =
      .instr (.sra rd rs1 rs2) ∧
    (∃ t, exec (.sll rd rs1 rs2) s = .next t ∧
      RegisterEffect s t rd
        (BitVec.ofNat 32 ((s.readReg rs1).toNat * 2 ^ ((s.readReg rs2).toNat % 32)))
        (s.pc + 4#32)) ∧
    (∃ t, exec (.srl rd rs1 rs2) s = .next t ∧
      RegisterEffect s t rd
        (BitVec.ofNat 32 ((s.readReg rs1).toNat / 2 ^ ((s.readReg rs2).toNat % 32)))
        (s.pc + 4#32)) ∧
    (∃ t, exec (.sra rd rs1 rs2) s = .next t ∧
      RegisterEffect s t rd
        (BitVec.ofInt 32 ((s.readReg rs1).toInt / 2 ^ ((s.readReg rs2).toNat % 32)))
        (s.pc + 4#32))

/-- R116, R117: SLT and SLTU write 1 or 0 by the signed or the unsigned order. -/
def Obligations.ComparesWriteOneOrZero : Prop :=
  ∀ (bs : BranchSet) (rd rs1 rs2 : RegIdx) (s : State),
    decode bs (0b0000000#7 ++ rs2 ++ rs1 ++ 0b010#3 ++ rd ++ 0b0110011#7) =
      .instr (.slt rd rs1 rs2) ∧
    decode bs (0b0000000#7 ++ rs2 ++ rs1 ++ 0b011#3 ++ rd ++ 0b0110011#7) =
      .instr (.sltu rd rs1 rs2) ∧
    (∃ t, exec (.slt rd rs1 rs2) s = .next t ∧
      RegisterEffect s t rd
        (if (s.readReg rs1).toInt < (s.readReg rs2).toInt then 1#32 else 0#32) (s.pc + 4#32)) ∧
    (∃ t, exec (.sltu rd rs1 rs2) s = .next t ∧
      RegisterEffect s t rd
        (if (s.readReg rs1).toNat < (s.readReg rs2).toNat then 1#32 else 0#32) (s.pc + 4#32))

/-- R123, R126, R127, R128: ADDI, XORI, ORI and ANDI with the sign-extended immediate. -/
def Obligations.ImmediateArithmeticUsesSignedImmediate : Prop :=
  ∀ (bs : BranchSet) (rd rs1 : RegIdx) (imm : BitVec 12) (s : State),
    decode bs (imm ++ rs1 ++ 0b000#3 ++ rd ++ 0b0010011#7) = .instr (.addi rd rs1 imm) ∧
    decode bs (imm ++ rs1 ++ 0b100#3 ++ rd ++ 0b0010011#7) = .instr (.xori rd rs1 imm) ∧
    decode bs (imm ++ rs1 ++ 0b110#3 ++ rd ++ 0b0010011#7) = .instr (.ori rd rs1 imm) ∧
    decode bs (imm ++ rs1 ++ 0b111#3 ++ rd ++ 0b0010011#7) = .instr (.andi rd rs1 imm) ∧
    (∃ t, exec (.addi rd rs1 imm) s = .next t ∧
      RegisterEffect s t rd (s.readReg rs1 + BitVec.ofInt 32 imm.toInt) (s.pc + 4#32)) ∧
    (∃ t, exec (.xori rd rs1 imm) s = .next t ∧
      RegisterEffect s t rd (s.readReg rs1 ^^^ BitVec.ofInt 32 imm.toInt) (s.pc + 4#32)) ∧
    (∃ t, exec (.ori rd rs1 imm) s = .next t ∧
      RegisterEffect s t rd (s.readReg rs1 ||| BitVec.ofInt 32 imm.toInt) (s.pc + 4#32)) ∧
    (∃ t, exec (.andi rd rs1 imm) s = .next t ∧
      RegisterEffect s t rd (s.readReg rs1 &&& BitVec.ofInt 32 imm.toInt) (s.pc + 4#32))

/-- R124, R125: SLTI compares signed; SLTIU compares unsigned against the sign-extended immediate. -/
def Obligations.ImmediateComparesWriteOneOrZero : Prop :=
  ∀ (bs : BranchSet) (rd rs1 : RegIdx) (imm : BitVec 12) (s : State),
    decode bs (imm ++ rs1 ++ 0b010#3 ++ rd ++ 0b0010011#7) = .instr (.slti rd rs1 imm) ∧
    decode bs (imm ++ rs1 ++ 0b011#3 ++ rd ++ 0b0010011#7) = .instr (.sltiu rd rs1 imm) ∧
    (∃ t, exec (.slti rd rs1 imm) s = .next t ∧
      RegisterEffect s t rd
        (if (s.readReg rs1).toInt < imm.toInt then 1#32 else 0#32) (s.pc + 4#32)) ∧
    (∃ t, exec (.sltiu rd rs1 imm) s = .next t ∧
      RegisterEffect s t rd
        (if (s.readReg rs1).toNat < (BitVec.ofInt 32 imm.toInt).toNat then 1#32 else 0#32)
        (s.pc + 4#32))

/-- R129, R130, R131: SLLI, SRLI and SRAI, and the shift words of OP-IMM that are none of them,
which execute as a no-op. -/
def Obligations.ImmediateShiftsWriteShiftedValue : Prop :=
  ∀ (bs : BranchSet) (rd rs1 : RegIdx) (shamt : BitVec 5) (f : BitVec 7) (s : State),
    decode bs (0b0000000#7 ++ shamt ++ rs1 ++ 0b001#3 ++ rd ++ 0b0010011#7) =
      .instr (.slli rd rs1 shamt) ∧
    decode bs (0b0000000#7 ++ shamt ++ rs1 ++ 0b101#3 ++ rd ++ 0b0010011#7) =
      .instr (.srli rd rs1 shamt) ∧
    decode bs (0b0100000#7 ++ shamt ++ rs1 ++ 0b101#3 ++ rd ++ 0b0010011#7) =
      .instr (.srai rd rs1 shamt) ∧
    (f ≠ 0b0000000#7 →
      decode bs (f ++ shamt ++ rs1 ++ 0b001#3 ++ rd ++ 0b0010011#7) =
        .unrecognised .opImmFunction) ∧
    (f ≠ 0b0000000#7 → f ≠ 0b0100000#7 →
      decode bs (f ++ shamt ++ rs1 ++ 0b101#3 ++ rd ++ 0b0010011#7) =
        .unrecognised .opImmFunction) ∧
    (s.status = .running → f ≠ 0b0000000#7 →
      (s.fetch = .word (f ++ shamt ++ rs1 ++ 0b001#3 ++ rd ++ 0b0010011#7) ∨
        (f ≠ 0b0100000#7 ∧ s.fetch = .word (f ++ shamt ++ rs1 ++ 0b101#3 ++ rd ++ 0b0010011#7))) →
      ∃ t, step s = .next t ∧ PcEffect s t (s.pc + 4#32)) ∧
    (∃ t, exec (.slli rd rs1 shamt) s = .next t ∧
      RegisterEffect s t rd (BitVec.ofNat 32 ((s.readReg rs1).toNat * 2 ^ shamt.toNat))
        (s.pc + 4#32)) ∧
    (∃ t, exec (.srli rd rs1 shamt) s = .next t ∧
      RegisterEffect s t rd (BitVec.ofNat 32 ((s.readReg rs1).toNat / 2 ^ shamt.toNat))
        (s.pc + 4#32)) ∧
    (∃ t, exec (.srai rd rs1 shamt) s = .next t ∧
      RegisterEffect s t rd (BitVec.ofInt 32 ((s.readReg rs1).toInt / 2 ^ shamt.toNat))
        (s.pc + 4#32))

/-- R151 to R154: MUL writes the low half, MULH, MULHSU and MULHU the high half, of the exact product
of the operands read as signed or unsigned. -/
def Obligations.MultipliesWriteHalfOfExactProduct : Prop :=
  ∀ (bs : BranchSet) (rd rs1 rs2 : RegIdx) (s : State),
    decode bs (0b0000001#7 ++ rs2 ++ rs1 ++ 0b000#3 ++ rd ++ 0b0110011#7) =
      .instr (.mul rd rs1 rs2) ∧
    decode bs (0b0000001#7 ++ rs2 ++ rs1 ++ 0b001#3 ++ rd ++ 0b0110011#7) =
      .instr (.mulh rd rs1 rs2) ∧
    decode bs (0b0000001#7 ++ rs2 ++ rs1 ++ 0b010#3 ++ rd ++ 0b0110011#7) =
      .instr (.mulhsu rd rs1 rs2) ∧
    decode bs (0b0000001#7 ++ rs2 ++ rs1 ++ 0b011#3 ++ rd ++ 0b0110011#7) =
      .instr (.mulhu rd rs1 rs2) ∧
    (∃ t, exec (.mul rd rs1 rs2) s = .next t ∧
      RegisterEffect s t rd
        (BitVec.ofInt 32 ((s.readReg rs1).toInt * (s.readReg rs2).toInt)) (s.pc + 4#32)) ∧
    (∃ t, exec (.mulh rd rs1 rs2) s = .next t ∧
      RegisterEffect s t rd
        (BitVec.ofInt 32 ((s.readReg rs1).toInt * (s.readReg rs2).toInt / 2 ^ 32))
        (s.pc + 4#32)) ∧
    (∃ t, exec (.mulhsu rd rs1 rs2) s = .next t ∧
      RegisterEffect s t rd
        (BitVec.ofInt 32 ((s.readReg rs1).toInt * ((s.readReg rs2).toNat : Int) / 2 ^ 32))
        (s.pc + 4#32)) ∧
    (∃ t, exec (.mulhu rd rs1 rs2) s = .next t ∧
      RegisterEffect s t rd
        (BitVec.ofNat 32 ((s.readReg rs1).toNat * (s.readReg rs2).toNat / 2 ^ 32))
        (s.pc + 4#32))

/-- R155 to R158: DIV and REM truncate toward zero, DIVU and REMU are unsigned, and a zero divisor
gives all ones or the dividend. -/
def Obligations.DividesTruncateOrGiveSentinel : Prop :=
  ∀ (bs : BranchSet) (rd rs1 rs2 : RegIdx) (s : State),
    decode bs (0b0000001#7 ++ rs2 ++ rs1 ++ 0b100#3 ++ rd ++ 0b0110011#7) =
      .instr (.div rd rs1 rs2) ∧
    decode bs (0b0000001#7 ++ rs2 ++ rs1 ++ 0b101#3 ++ rd ++ 0b0110011#7) =
      .instr (.divu rd rs1 rs2) ∧
    decode bs (0b0000001#7 ++ rs2 ++ rs1 ++ 0b110#3 ++ rd ++ 0b0110011#7) =
      .instr (.rem rd rs1 rs2) ∧
    decode bs (0b0000001#7 ++ rs2 ++ rs1 ++ 0b111#3 ++ rd ++ 0b0110011#7) =
      .instr (.remu rd rs1 rs2) ∧
    (∃ t, exec (.div rd rs1 rs2) s = .next t ∧
      RegisterEffect s t rd
        (if s.readReg rs2 = 0#32 then 0xFFFFFFFF#32
          else BitVec.ofInt 32 ((s.readReg rs1).toInt.tdiv (s.readReg rs2).toInt))
        (s.pc + 4#32)) ∧
    (∃ t, exec (.divu rd rs1 rs2) s = .next t ∧
      RegisterEffect s t rd
        (if s.readReg rs2 = 0#32 then 0xFFFFFFFF#32
          else BitVec.ofNat 32 ((s.readReg rs1).toNat / (s.readReg rs2).toNat))
        (s.pc + 4#32)) ∧
    (∃ t, exec (.rem rd rs1 rs2) s = .next t ∧
      RegisterEffect s t rd
        (if s.readReg rs2 = 0#32 then s.readReg rs1
          else BitVec.ofInt 32 ((s.readReg rs1).toInt
            - (s.readReg rs2).toInt * (s.readReg rs1).toInt.tdiv (s.readReg rs2).toInt))
        (s.pc + 4#32)) ∧
    (∃ t, exec (.remu rd rs1 rs2) s = .next t ∧
      RegisterEffect s t rd
        (if s.readReg rs2 = 0#32 then s.readReg rs1
          else BitVec.ofNat 32 ((s.readReg rs1).toNat % (s.readReg rs2).toNat))
        (s.pc + 4#32))

/-! ### Upper immediates, jumps, branches, halt -/

/-- R231, R232: LUI and AUIPC. -/
def Obligations.UpperImmediatesWriteUpperBits : Prop :=
  ∀ (bs : BranchSet) (rd : RegIdx) (imm20 : BitVec 20) (s : State),
    decode bs (imm20 ++ rd ++ 0b0110111#7) = .instr (.lui rd imm20) ∧
    decode bs (imm20 ++ rd ++ 0b0010111#7) = .instr (.auipc rd imm20) ∧
    (∃ t, exec (.lui rd imm20) s = .next t ∧
      RegisterEffect s t rd (BitVec.ofNat 32 (imm20.toNat * 4096)) (s.pc + 4#32)) ∧
    (∃ t, exec (.auipc rd imm20) s = .next t ∧
      RegisterEffect s t rd (s.pc + BitVec.ofNat 32 (imm20.toNat * 4096)) (s.pc + 4#32))

/-- R233: JAL writes the link and jumps; its encoding with the offset bits in their places; the halt
sentinel is not JAL; a misaligned target faults at the next fetch, not here. -/
def Obligations.JalLinksAndJumps : Prop :=
  ∀ (bs : BranchSet) (rd : RegIdx) (offset : BitVec 21) (s : State),
    (offset.getLsbD 0 = false → ¬ (rd = 0#5 ∧ offset = 0#21) →
      decode bs (offset.extractLsb' 20 1 ++ offset.extractLsb' 1 10 ++ offset.extractLsb' 11 1
        ++ offset.extractLsb' 12 8 ++ rd ++ 0b1101111#7) = .instr (.jal rd offset)) ∧
    decode bs 0x0000006F#32 = .instr .halt ∧
    ∃ t, exec (.jal rd offset) s = .next t ∧
      RegisterEffect s t rd (s.pc + 4#32) (s.pc + BitVec.ofInt 32 offset.toInt) ∧
      (s.status = .running → (s.pc + BitVec.ofInt 32 offset.toInt).extractLsb' 0 2 ≠ 0#2 →
        ∃ u, step t = .next u ∧
          FaultEffect t u .fetchMisaligned (s.pc + BitVec.ofInt 32 offset.toInt))

/-- R234: JALR jumps to x[rs1] + imm with bit 0 cleared, x[rs1] read before the link is written; other
funct3 values are unrecognised; a target with bit 1 set faults at the next fetch. -/
def Obligations.JalrLinksAndJumps : Prop :=
  ∀ (bs : BranchSet) (rd rs1 : RegIdx) (imm : BitVec 12) (f : BitVec 3) (s : State),
    decode bs (imm ++ rs1 ++ 0b000#3 ++ rd ++ 0b1100111#7) = .instr (.jalr rd rs1 imm) ∧
    (f ≠ 0b000#3 →
      decode bs (imm ++ rs1 ++ f ++ rd ++ 0b1100111#7) = .unrecognised .jalrFunction) ∧
    ∃ t, exec (.jalr rd rs1 imm) s = .next t ∧
      RegisterEffect s t rd (s.pc + 4#32)
        (BitVec.ofNat 32 ((s.readReg rs1 + BitVec.ofInt 32 imm.toInt).toNat / 2 * 2)) ∧
      (s.status = .running → t.pc.getLsbD 1 = true →
        ∃ u, step t = .next u ∧ FaultEffect t u .fetchMisaligned t.pc)

/-- R235, R236: BEQ and BNE, encodings, both outcomes, and their whole frame. -/
def Obligations.EqualityBranchesRedirectPc : Prop :=
  ∀ (bs : BranchSet) (rs1 rs2 : RegIdx) (offset : BitVec 13) (s : State),
    (offset.getLsbD 0 = false →
      decode bs (offset.extractLsb' 12 1 ++ offset.extractLsb' 5 6 ++ rs2 ++ rs1 ++ 0b000#3
        ++ offset.extractLsb' 1 4 ++ offset.extractLsb' 11 1 ++ 0b1100011#7) =
        .instr (.beq rs1 rs2 offset) ∧
      decode bs (offset.extractLsb' 12 1 ++ offset.extractLsb' 5 6 ++ rs2 ++ rs1 ++ 0b001#3
        ++ offset.extractLsb' 1 4 ++ offset.extractLsb' 11 1 ++ 0b1100011#7) =
        .instr (.bne rs1 rs2 offset)) ∧
    (∃ t, exec (.beq rs1 rs2 offset) s = .next t ∧
      PcEffect s t (if s.readReg rs1 = s.readReg rs2 then s.pc + BitVec.ofInt 32 offset.toInt
        else s.pc + 4#32)) ∧
    (∃ t, exec (.bne rs1 rs2 offset) s = .next t ∧
      PcEffect s t (if s.readReg rs1 = s.readReg rs2 then s.pc + 4#32
        else s.pc + BitVec.ofInt 32 offset.toInt))

/-- R237 to R240: BLT, BGE, BLTU and BGEU, decoded under FULL; under EQ_NE_ONLY their words are
unrecognised and execute as a no-op. -/
def Obligations.OrderBranchesRedirectPcUnderFull : Prop :=
  ∀ (rs1 rs2 : RegIdx) (offset : BitVec 13) (s : State),
    (offset.getLsbD 0 = false → ∀ p ∈ [(0b100#3, Instr.blt rs1 rs2 offset),
        (0b101#3, Instr.bge rs1 rs2 offset), (0b110#3, Instr.bltu rs1 rs2 offset),
        (0b111#3, Instr.bgeu rs1 rs2 offset)],
      decode .full (offset.extractLsb' 12 1 ++ offset.extractLsb' 5 6 ++ rs2 ++ rs1 ++ p.1
        ++ offset.extractLsb' 1 4 ++ offset.extractLsb' 11 1 ++ 0b1100011#7) = .instr p.2 ∧
      decode .eqNeOnly (offset.extractLsb' 12 1 ++ offset.extractLsb' 5 6 ++ rs2 ++ rs1 ++ p.1
        ++ offset.extractLsb' 1 4 ++ offset.extractLsb' 11 1 ++ 0b1100011#7) =
        .unrecognised .branchFunction ∧
      (s.status = .running → s.config.branchSet = .eqNeOnly →
        s.fetch = .word (offset.extractLsb' 12 1 ++ offset.extractLsb' 5 6 ++ rs2 ++ rs1 ++ p.1
          ++ offset.extractLsb' 1 4 ++ offset.extractLsb' 11 1 ++ 0b1100011#7) →
        ∃ t, step s = .next t ∧ PcEffect s t (s.pc + 4#32))) ∧
    (∃ t, exec (.blt rs1 rs2 offset) s = .next t ∧
      PcEffect s t (if (s.readReg rs1).toInt < (s.readReg rs2).toInt
        then s.pc + BitVec.ofInt 32 offset.toInt else s.pc + 4#32)) ∧
    (∃ t, exec (.bge rs1 rs2 offset) s = .next t ∧
      PcEffect s t (if (s.readReg rs1).toInt < (s.readReg rs2).toInt
        then s.pc + 4#32 else s.pc + BitVec.ofInt 32 offset.toInt)) ∧
    (∃ t, exec (.bltu rs1 rs2 offset) s = .next t ∧
      PcEffect s t (if (s.readReg rs1).toNat < (s.readReg rs2).toNat
        then s.pc + BitVec.ofInt 32 offset.toInt else s.pc + 4#32)) ∧
    (∃ t, exec (.bgeu rs1 rs2 offset) s = .next t ∧
      PcEffect s t (if (s.readReg rs1).toNat < (s.readReg rs2).toNat
        then s.pc + 4#32 else s.pc + BitVec.ofInt 32 offset.toInt))

/-- R213: the word 0x0000006F halts without jumping and changes nothing else, only this word halts a
step that has fetched one, and every other JAL word is an ordinary JAL. -/
def Obligations.OnlyHaltSentinelHalts : Prop :=
  (∀ bs : BranchSet, decode bs 0x0000006F#32 = .instr .halt) ∧
  (∀ s : State, exec .halt s = .next { s with status := .halted }) ∧
  (∀ (bs : BranchSet) (rd : RegIdx) (offset : BitVec 21), offset.getLsbD 0 = false →
    ¬ (rd = 0#5 ∧ offset = 0#21) →
    decode bs (offset.extractLsb' 20 1 ++ offset.extractLsb' 1 10 ++ offset.extractLsb' 11 1
      ++ offset.extractLsb' 12 8 ++ rd ++ 0b1101111#7) = .instr (.jal rd offset)) ∧
  (∀ (s : State) (w : Word), s.status = .running → s.pc.extractLsb' 0 2 = 0#2 →
    s.imem[s.pc.toNat / 4]? = some w →
    ((∃ t, step s = .next t ∧ t.status = .halted) ↔ w = 0x0000006F#32))

/-! ### Loads and stores -/

/-- R252 to R256: each load's encoding, its value, sign- or zero-extended and little-endian, its frame,
and its fault where it is misaligned, also with rd = x0; an unmapped byte reads as 0, and no word
straddles a DATA_BASE that is a multiple of 4. -/
def Obligations.LoadsWriteExtendedBytesOrFault : Prop :=
  ∀ (bs : BranchSet) (rd rs1 : RegIdx) (imm : BitVec 12) (s : State) (ea : Word),
    ea = s.readReg rs1 + BitVec.ofInt 32 imm.toInt →
    decode bs (imm ++ rs1 ++ 0b000#3 ++ rd ++ 0b0000011#7) = .instr (.lb rd rs1 imm) ∧
    decode bs (imm ++ rs1 ++ 0b001#3 ++ rd ++ 0b0000011#7) = .instr (.lh rd rs1 imm) ∧
    decode bs (imm ++ rs1 ++ 0b010#3 ++ rd ++ 0b0000011#7) = .instr (.lw rd rs1 imm) ∧
    decode bs (imm ++ rs1 ++ 0b100#3 ++ rd ++ 0b0000011#7) = .instr (.lbu rd rs1 imm) ∧
    decode bs (imm ++ rs1 ++ 0b101#3 ++ rd ++ 0b0000011#7) = .instr (.lhu rd rs1 imm) ∧
    (∃ t, exec (.lb rd rs1 imm) s = .next t ∧
      RegisterEffect s t rd (BitVec.ofInt 32 (s.readByte ea).toInt) (s.pc + 4#32)) ∧
    (∃ t, exec (.lbu rd rs1 imm) s = .next t ∧
      RegisterEffect s t rd (BitVec.ofNat 32 (s.readByte ea).toNat) (s.pc + 4#32)) ∧
    (ea.getLsbD 0 = false →
      (∃ t, exec (.lh rd rs1 imm) s = .next t ∧
        RegisterEffect s t rd
          (BitVec.ofInt 32 ((s.readByte (ea + 1#32)).toInt * 256 + (s.readByte ea).toNat))
          (s.pc + 4#32)) ∧
      (∃ t, exec (.lhu rd rs1 imm) s = .next t ∧
        RegisterEffect s t rd
          (BitVec.ofNat 32 ((s.readByte (ea + 1#32)).toNat * 256 + (s.readByte ea).toNat))
          (s.pc + 4#32))) ∧
    (ea.getLsbD 0 = true →
      (∃ t, exec (.lh rd rs1 imm) s = .next t ∧ FaultEffect s t .loadMisaligned ea) ∧
      (∃ t, exec (.lhu rd rs1 imm) s = .next t ∧ FaultEffect s t .loadMisaligned ea)) ∧
    (ea.extractLsb' 0 2 = 0#2 → ∃ t, exec (.lw rd rs1 imm) s = .next t ∧
      RegisterEffect s t rd
        (BitVec.ofNat 32 ((s.readByte (ea + 3#32)).toNat * 2 ^ 24
          + (s.readByte (ea + 2#32)).toNat * 2 ^ 16 + (s.readByte (ea + 1#32)).toNat * 2 ^ 8
          + (s.readByte ea).toNat))
        (s.pc + 4#32)) ∧
    (ea.extractLsb' 0 2 ≠ 0#2 → ∃ t, exec (.lw rd rs1 imm) s = .next t ∧
      FaultEffect s t .loadMisaligned ea) ∧
    (ea < s.config.dataBase → s.readByte ea = 0#8) ∧
    (s.config.dataBase.extractLsb' 0 2 = 0#2 → ea.extractLsb' 0 2 = 0#2 → ∀ i : Nat, i < 4 →
      (s.config.dataBase ≤ ea + BitVec.ofNat 32 i ↔ s.config.dataBase ≤ ea))

/-- R257, R258, R259: each store's encoding, what it stores at the computed address, what it emits at
MMIO_TX_ADDR, every byte it leaves alone, and its fault where it is misaligned. -/
def Obligations.StoresWriteBytesOrEmitOrFault : Prop :=
  ∀ (bs : BranchSet) (rs2 rs1 : RegIdx) (imm : BitVec 12) (s : State) (ea : Word),
    s.dmem.wf = true → ea = s.storeAddress rs1 imm →
    ea = s.readReg rs1 + BitVec.ofInt 32 imm.toInt ∧
    decode bs (imm.extractLsb' 5 7 ++ rs2 ++ rs1 ++ 0b000#3 ++ imm.extractLsb' 0 5 ++ 0b0100011#7) =
      .instr (.sb rs2 rs1 imm) ∧
    decode bs (imm.extractLsb' 5 7 ++ rs2 ++ rs1 ++ 0b001#3 ++ imm.extractLsb' 0 5 ++ 0b0100011#7) =
      .instr (.sh rs2 rs1 imm) ∧
    decode bs (imm.extractLsb' 5 7 ++ rs2 ++ rs1 ++ 0b010#3 ++ imm.extractLsb' 0 5 ++ 0b0100011#7) =
      .instr (.sw rs2 rs1 imm) ∧
    (∃ t, exec (.sb rs2 rs1 imm) s = .next t ∧ StoredEffect s t ea 1 (s.readReg rs2)) ∧
    (ea.getLsbD 0 = false → ∃ t, exec (.sh rs2 rs1 imm) s = .next t ∧
      StoredEffect s t ea 2 (s.readReg rs2)) ∧
    (ea.getLsbD 0 = true → ∃ t, exec (.sh rs2 rs1 imm) s = .next t ∧
      FaultEffect s t .storeMisaligned ea) ∧
    (ea.extractLsb' 0 2 = 0#2 → ∃ t, exec (.sw rs2 rs1 imm) s = .next t ∧
      StoredEffect s t ea 4 (s.readReg rs2)) ∧
    (ea.extractLsb' 0 2 ≠ 0#2 → ∃ t, exec (.sw rs2 rs1 imm) s = .next t ∧
      FaultEffect s t .storeMisaligned ea)

/-- R47, R52: after a word store at a mapped address that is not MMIO_TX_ADDR, a word load of that
address gives the word back, and byte and halfword loads inside it see its bytes, the least
significant at the lowest address. -/
def Obligations.LoadsSeeLatestStoreLittleEndian : Prop :=
  ∀ (rs2 rs1 rd rb : RegIdx) (imm imm' : BitVec 12) (s t : State) (i : Nat),
    s.dmem.wf = true → s.config.valid = true →
    s.config.dataBase ≤ s.storeAddress rs1 imm →
    (s.storeAddress rs1 imm).extractLsb' 0 2 = 0#2 →
    exec (.sw rs2 rs1 imm) s = .next t →
    i < 4 → t.loadAddress rb imm' = s.storeAddress rs1 imm + BitVec.ofNat 32 i → rd ≠ 0#5 →
    (∃ u, exec (.lbu rd rb imm') t = .next u ∧
      (u.readReg rd).toNat = (s.readReg rs2).toNat / 2 ^ (8 * i) % 2 ^ 8) ∧
    (i % 2 = 0 → ∃ u, exec (.lhu rd rb imm') t = .next u ∧
      (u.readReg rd).toNat = (s.readReg rs2).toNat / 2 ^ (8 * i) % 2 ^ 16) ∧
    (i = 0 → ∃ u, exec (.lw rd rb imm') t = .next u ∧ u.readReg rd = s.readReg rs2)

/-- R43, R45, R46, R254: below DATA_BASE an aligned load of any width reads 0, at MMIO_TX_ADDR too, and
an aligned store elsewhere than MMIO_TX_ADDR changes no byte and emits nothing. -/
def Obligations.UnmappedAccessesReadZeroAndDiscard : Prop :=
  ∀ (r rs1 : RegIdx) (imm : BitVec 12) (s : State),
    s.config.valid = true → s.storeAddress rs1 imm < s.config.dataBase →
    (s.storeAddress rs1 imm).extractLsb' 0 2 = 0#2 →
    (∀ i ∈ [Instr.lb r rs1 imm, .lh r rs1 imm, .lw r rs1 imm, .lbu r rs1 imm, .lhu r rs1 imm],
      ∃ t, exec i s = .next t ∧ RegisterEffect s t r 0#32 (s.pc + 4#32)) ∧
    (s.storeAddress rs1 imm ≠ s.config.mmioTxAddr →
      ∀ i ∈ [Instr.sb r rs1 imm, .sh r rs1 imm, .sw r rs1 imm],
        ∃ t, exec i s = .next t ∧ PcEffect s t (s.pc + 4#32))

/-! ### The step -/

/-- R210, R215: a step runs the decoded instruction. The step adds nothing around it: the meaning moves
the pc itself. -/
def Obligations.StepRunsDecodedInstruction : Prop :=
  ∀ (s : State) (w : Word) (i : Instr), s.status = .running → s.pc.extractLsb' 0 2 = 0#2 →
    s.imem[s.pc.toNat / 4]? = some w → decode s.config.branchSet w = .instr i → step s = exec i s

/-- R214: a word that decodes as unrecognised is a no-op that moves the pc by 4, and so are the words
of the MISC-MEM, SYSTEM, AMO and floating-point opcodes. -/
def Obligations.UnrecognisedWordIsNoOp : Prop :=
  (∀ (s : State) (w : Word) (why : Unrecognised), s.status = .running →
    s.pc.extractLsb' 0 2 = 0#2 → s.imem[s.pc.toNat / 4]? = some w →
    decode s.config.branchSet w = .unrecognised why →
    ∃ t, step s = .next t ∧ PcEffect s t (s.pc + 4#32)) ∧
  (∀ (bs : BranchSet) (w : Word), w.extractLsb' 0 7 ∈ [0x0F#7, 0x73#7, 0x2F#7, 0x07#7, 0x27#7,
      0x43#7, 0x47#7, 0x4B#7, 0x4F#7, 0x53#7] →
    ∃ why, decode bs w = .unrecognised why)

/-- R211: a pc that is not a multiple of 4 faults at the fetch, also beyond the end of IMEM. -/
def Obligations.MisalignedFetchFaults : Prop :=
  ∀ s : State, s.status = .running → s.pc.toNat % 4 ≠ 0 →
    ∃ t, step s = .next t ∧ FaultEffect s t .fetchMisaligned s.pc

/-- R212: a 4-aligned pc beyond IMEM halts and changes nothing else; an empty image halts at once. -/
def Obligations.PcBeyondImageHalts : Prop :=
  (∀ s : State, s.status = .running → s.pc.toNat % 4 = 0 → s.imem.length ≤ s.pc.toNat / 4 →
    step s = .next { s with status := .halted }) ∧
  (∀ c : Config, step (State.resetWith c []) =
    .next { State.resetWith c [] with status := .halted })

/-- R219: a step of a Halted or Faulted engine returns the state unchanged, however often. -/
def Obligations.TerminalStatusNeverChanges : Prop :=
  ∀ s : State, s.status ≠ .running →
    step s = .next s ∧ ∀ n : Nat, Sys2Proof.core.run n s = .next s

/-- R220: every step answers a next state, and on a Running state it is one of the five rows of the
table. No step ends in a stop of the model. -/
def Obligations.EveryStepIsOneOfFiveOutcomes : Prop :=
  ∀ s : State, ∃ t, step s = .next t ∧
    (s.status ≠ .running → t = s) ∧
    (s.status = .running →
      (∃ w i, s.fetch = .word w ∧ decode s.config.branchSet w = .instr i ∧ i ≠ .halt ∧
        exec i s = .next t ∧ t.status = .running ∧ ControlKept s t ∧ t.x[0] = 0#32) ∨
      (∃ w why, s.fetch = .word w ∧ decode s.config.branchSet w = .unrecognised why ∧
        PcEffect s t (s.pc + 4#32)) ∨
      (s.fetch = .outOfRange ∧ t = { s with status := .halted }) ∨
      (s.fetch = .word 0x0000006F#32 ∧ t = { s with status := .halted }) ∨
      (∃ kind addr, FaultEffect s t kind addr ∧ addr.extractLsb' 0 2 ≠ 0#2))

/-- The invariant holds at reset, with every valid configuration and every image that fits. -/
def Obligations.ResetMeetsInvariant : Prop :=
  State.reset.wf = true ∧
  ∀ (c : Config) (image : List Word), c.valid = true → image.length ≤ 2 ^ 30 →
    (State.resetWith c image).wf = true

/-- R21, R27, R28, R42, R46, R271: every step keeps the invariant: x0 holds 0, data memory stays
canonical and holds mapped bytes only, status and fault record agree. -/
def Obligations.StepKeepsInvariant : Prop :=
  ∀ s t : State, s.wf = true → step s = .next t → t.wf = true

/-- R290: what reset leaves, for every configuration and image, and that a step leaves neither Halted
nor Faulted. -/
def Obligations.ResetLeavesSpecifiedState : Prop :=
  (∀ (c : Config) (image : List Word),
    (∀ r : RegIdx, (State.resetWith c image).readReg r = 0#32) ∧
    (∀ i : Fin 32, (State.resetWith c image).x[i] = 0#32) ∧
    (State.resetWith c image).pc = 0#32 ∧
    (State.resetWith c image).status = .running ∧
    (State.resetWith c image).fault = none ∧
    (∀ a : Nat, (State.resetWith c image).dmem.read a = 0#8) ∧
    (∀ a : Word, (State.resetWith c image).readByte a = 0#8) ∧
    (State.resetWith c image).out = [] ∧
    (State.resetWith c image).imem = image ∧
    (State.resetWith c image).config = c) ∧
  (∀ s t : State, s.status ≠ .running → step s = .next t → t.status = s.status)

/-- R55, R31, R41: no step changes IMEM or the configuration, so every later fetch at every pc reads
what it would have read before. -/
def Obligations.NoStepChangesWhatFetchReads : Prop :=
  ∀ (s t : State) (pc : Word), step s = .next t →
    t.imem = s.imem ∧ t.config = s.config ∧
      ({ t with pc := pc } : State).fetch = ({ s with pc := pc } : State).fetch

/-- R30, R44: a step changes the output stream only where it runs a store whose effective address is
MMIO_TX_ADDR, and then by the low byte of x[rs2]. -/
def Obligations.OutputGrowsOnlyByTransmitStore : Prop :=
  ∀ s t : State, step s = .next t →
    t.out = s.out ∨
    ∃ w rs2 rs1 imm, s.status = .running ∧ s.fetch = .word w ∧
      (decode s.config.branchSet w = .instr (.sb rs2 rs1 imm) ∨
        decode s.config.branchSet w = .instr (.sh rs2 rs1 imm) ∨
        decode s.config.branchSet w = .instr (.sw rs2 rs1 imm)) ∧
      s.storeAddress rs1 imm = s.config.mmioTxAddr ∧
      t.out = s.out ++ [(s.readReg rs2).extractLsb' 0 8] ∧ t.dmem = s.dmem

/-- R46, R49: a step that runs no store leaves data memory as it was, and one that runs SB, SH or SW
changes none but the 1, 2 or 4 bytes from its effective address on. -/
def Obligations.OnlyStoresWriteDataMemory : Prop :=
  ∀ s t : State, step s = .next t →
    t.dmem = s.dmem ∨
    ∃ (w : Word) (rs2 rs1 : RegIdx) (imm : BitVec 12) (n : Nat),
      s.status = .running ∧ s.fetch = .word w ∧
      ((decode s.config.branchSet w = .instr (.sb rs2 rs1 imm) ∧ n = 1) ∨
        (decode s.config.branchSet w = .instr (.sh rs2 rs1 imm) ∧ n = 2) ∨
        (decode s.config.branchSet w = .instr (.sw rs2 rs1 imm) ∧ n = 4)) ∧
      s.storeAddress rs1 imm ≠ s.config.mmioTxAddr ∧
      ∀ a : Word, (∀ i : Nat, i < n → a ≠ s.storeAddress rs1 imm + BitVec.ofNat 32 i) →
        t.readByte a = s.readByte a

/-- R270, R275: a step that raises a fault sets status and record and changes nothing else, and no later
step changes anything. -/
def Obligations.FaultsArePreciseAndFinal : Prop :=
  ∀ s t : State, s.status = .running → step s = .next t → t.status = .faulted →
    ∃ kind addr, FaultEffect s t kind addr ∧ addr.extractLsb' 0 2 ≠ 0#2 ∧
      ∀ n : Nat, Sys2Proof.core.run n t = .next t

/-- R21: what the register slot of x0 holds is seen by no step: two states that differ only there step
to states that agree in every register read and every other field. -/
def Obligations.SlotOfX0IsInvisible : Prop :=
  ∀ (s : State) (v : Word), ∃ t t' : State,
    step s = .next t ∧ step { s with x := s.x.set 0 v } = .next t' ∧
    (∀ r : RegIdx, t'.readReg r = t.readReg r) ∧ t'.pc = t.pc ∧ t'.status = t.status ∧
    t'.fault = t.fault ∧ t'.dmem = t.dmem ∧ t'.out = t.out ∧ t'.imem = t.imem ∧
    t'.config = t.config

/-! ### The units -/

/-- R83: the ripple adder's full-adder chain, and that sum and carry are the exact sum, for every
width. -/
def Obligations.RippleAdderIsExact : Prop :=
  (∀ (w : Nat) (a b : BitVec w) (cin : Bool), ∃ c : Nat → Bool, c 0 = cin ∧
    (∀ i, i < w → (rippleAdd w a b cin).1.getLsbD i = (a.getLsbD i ^^ b.getLsbD i ^^ c i) ∧
      c (i + 1) = ((a.getLsbD i && b.getLsbD i) || (c i && (a.getLsbD i ^^ b.getLsbD i)))) ∧
    (rippleAdd w a b cin).2 = c w) ∧
  (∀ (w : Nat) (a b : BitVec w) (cin : Bool),
    (rippleAdd w a b cin).1.toNat + (rippleAdd w a b cin).2.toNat * 2 ^ w
      = a.toNat + b.toNat + cin.toNat) ∧
  (∀ w : Nat, rippleAdd w (BitVec.allOnes w) (BitVec.allOnes w) true = (BitVec.allOnes w, true))

/-- R84, R86: negation and the one-pass subtractor, whose carry says that there is no borrow, and which
agrees with adding the negation, for every width. -/
def Obligations.NegationAndSubtractionAreModular : Prop :=
  (∀ (w : Nat) (b : BitVec w), negate b = (rippleAdd w (~~~b) (BitVec.ofNat w 1) false).1 ∧
    (negate b).toNat = (2 ^ w - b.toNat) % 2 ^ w) ∧
  (∀ (w : Nat) (a b : BitVec w), rippleSub a b = rippleAdd w a (~~~b) true ∧
    (rippleSub a b).1 = (rippleAdd w a (negate b) false).1 ∧
    ((rippleSub a b).2 = true ↔ b.toNat ≤ a.toNat)) ∧
  negate 0x80000000#32 = 0x80000000#32 ∧ negate 0#32 = 0#32 ∧ negate 1#32 = 0xFFFFFFFF#32 ∧
  rippleSub 5#32 0#32 = (5#32, true) ∧ rippleSub 0#32 1#32 = (0xFFFFFFFF#32, false)

/-- R88, R89, R90: the shifter, bit by bit and as integers. -/
def Obligations.ShifterMovesBits : Prop :=
  ∀ (a : Word) (sh : BitVec 5),
    (∀ i, i < 32 →
      ((shiftLeft a sh).getLsbD i = if sh.toNat ≤ i then a.getLsbD (i - sh.toNat) else false) ∧
      ((shiftRightLogical a sh).getLsbD i =
        if i + sh.toNat ≤ 31 then a.getLsbD (i + sh.toNat) else false) ∧
      ((shiftRightArith a sh).getLsbD i =
        if i + sh.toNat ≤ 31 then a.getLsbD (i + sh.toNat) else a.getLsbD 31)) ∧
    (shiftLeft a sh).toNat = a.toNat * 2 ^ sh.toNat % 2 ^ 32 ∧
    (shiftRightLogical a sh).toNat = a.toNat / 2 ^ sh.toNat ∧
    (shiftRightArith a sh).toInt = a.toInt / 2 ^ sh.toNat

/-- R101, R102, R103: the flags of the ALU. C and V of ADD and SUB say that the unsigned and the signed
result did not fit (that V is signed overflow is a consequence of the two rules, in no rule's words);
the other operations leave C and V 0, which is the spec's own choice (92_eei_decisions.md D17), not the
source's. -/
def Obligations.AluFlagsDescribeResult : Prop :=
  (∀ (op : AluOp) (a b : Word),
    ((alu op a b).flags.n = (alu op a b).r.getLsbD 31) ∧
    ((alu op a b).flags.z = true ↔ (alu op a b).r = 0#32) ∧
    (op ≠ .add → op ≠ .sub → (alu op a b).flags.c = false ∧ (alu op a b).flags.v = false)) ∧
  (∀ a b : Word,
    ((alu .add a b).flags.c = true ↔ 2 ^ 32 ≤ a.toNat + b.toNat) ∧
    ((alu .add a b).flags.v = true ↔
      a.getLsbD 31 = b.getLsbD 31 ∧ (alu .add a b).r.getLsbD 31 ≠ a.getLsbD 31) ∧
    ((alu .add a b).flags.v = true ↔ (alu .add a b).r.toInt ≠ a.toInt + b.toInt) ∧
    ((alu .sub a b).flags.c = true ↔ b.toNat ≤ a.toNat) ∧
    ((alu .sub a b).flags.v = true ↔
      a.getLsbD 31 ≠ b.getLsbD 31 ∧ (alu .sub a b).r.getLsbD 31 ≠ a.getLsbD 31) ∧
    ((alu .sub a b).flags.v = true ↔ (alu .sub a b).r.toInt ≠ a.toInt - b.toInt) ∧
    (alu .add a b).r = a + b ∧ (alu .sub a b).r = a - b)

/-- R143, R144: the multiply results and flags at the API port: overflow is set exactly where the 64-bit
product read as signed does not fit in 32 bits. -/
def Obligations.MultiplyOverflowMeansProductDoesNotFit : Prop :=
  ∀ (c : Config) (a b : Word), ∀ p ∈ [("MUL", a.toInt * b.toInt, 0),
      ("MULH", a.toInt * b.toInt, 32), ("MULHSU", a.toInt * (b.toNat : Int), 32),
      ("MULHU", (a.toNat : Int) * (b.toNat : Int), 32)],
    apiCall c p.1 a b = .result ((BitVec.ofInt 64 p.2.1).extractLsb' p.2.2 32)
      (.mdu ⟨decide ((BitVec.ofInt 64 p.2.1).toInt < -2 ^ 31 ∨
        2 ^ 31 ≤ (BitVec.ofInt 64 p.2.1).toInt), false⟩)

/-- R147, R148: division by zero gives the sentinels with invalid; 0x80000000 / -1 gives 0x80000000 and
remainder 0 with no flag. -/
def Obligations.DivisionCornersAtApi : Prop :=
  (∀ (c : Config) (a : Word),
    apiCall c "DIV" a 0#32 = .result 0xFFFFFFFF#32 (.mdu ⟨false, true⟩) ∧
    apiCall c "DIVU" a 0#32 = .result 0xFFFFFFFF#32 (.mdu ⟨false, true⟩) ∧
    apiCall c "REM" a 0#32 = .result a (.mdu ⟨false, true⟩) ∧
    apiCall c "REMU" a 0#32 = .result a (.mdu ⟨false, true⟩) ∧
    apiCall c "DIV" 0x80000000#32 0xFFFFFFFF#32 = .result 0x80000000#32 (.mdu ⟨false, false⟩) ∧
    apiCall c "REM" 0x80000000#32 0xFFFFFFFF#32 = .result 0#32 (.mdu ⟨false, false⟩)) ∧
  (∀ (op : MduOp) (a b : Word), (mdu op a b).flags.invalid = true ↔
    b = 0#32 ∧ (op = .div ∨ op = .divu ∨ op = .rem ∨ op = .remu))

/-- R159: for a nonzero divisor quotient times divisor plus remainder is the dividend modulo 2^32, and
the remainder is smaller than the divisor and has the sign of the dividend. -/
def Obligations.QuotientTimesDivisorPlusRemainder : Prop :=
  ∀ a b : Word, b ≠ 0#32 →
    (mdu .div a b).r * b + (mdu .rem a b).r = a ∧
    (mdu .divu a b).r * b + (mdu .remu a b).r = a ∧
    (mdu .rem a b).r.toInt.natAbs < b.toInt.natAbs ∧
    (mdu .remu a b).r.toNat < b.toNat ∧
    ((mdu .rem a b).r = 0#32 ∨ (mdu .rem a b).r.getLsbD 31 = a.getLsbD 31)

/-- R217, R273: the API port answers with the selected unit's record, and with InvalidOperation for
every mnemonic outside its table, the immediate forms among them. -/
def Obligations.ApiPortAnswersOnlyItsMnemonics : Prop :=
  ∀ (c : Config) (mnemonic : String) (a b : Word),
    (apiCall c mnemonic a b = .invalidOperation ↔ mnemonic ∉ ["ADD", "SUB", "AND", "OR", "XOR",
      "SLL", "SRL", "SRA", "SLT", "SLTU", "MUL", "MULH", "MULHSU", "MULHU", "DIV", "DIVU", "REM",
      "REMU", "f32_add", "f32_sub", "f32_mul", "f32_div"]) ∧
    apiCall c "ADDI" a b = .invalidOperation ∧
    (∀ p ∈ [("ADD", AluOp.add), ("SUB", .sub), ("AND", .and), ("OR", .or), ("XOR", .xor),
        ("SLL", .sll), ("SRL", .srl), ("SRA", .sra), ("SLT", .slt), ("SLTU", .sltu)],
      apiCall c p.1 a b = .result (alu p.2 a b).r (.alu (alu p.2 a b).flags)) ∧
    (∀ p ∈ [("MUL", MduOp.mul), ("MULH", .mulh), ("MULHSU", .mulhsu), ("MULHU", .mulhu),
        ("DIV", .div), ("DIVU", .divu), ("REM", .rem), ("REMU", .remu)],
      apiCall c p.1 a b = .result (mdu p.2 a b).r (.mdu (mdu p.2 a b).flags)) ∧
    (∀ p ∈ [("f32_add", f32Add c a b), ("f32_sub", f32Sub c a b), ("f32_mul", f32Mul c a b),
        ("f32_div", f32Div c a b)],
      apiCall c p.1 a b = .result p.2.r (.fpu p.2.flags))

/-! ### The floating-point unit -/

/-- R180: the table of special cases of f32_add, in its order, and for two finite nonzero operands the exact
sum N · 2^(emin - 23): +0 where it is 0, else its rounding. -/
def Obligations.AddFollowsItsTable : Prop :=
  ∀ (c : Config) (a b : Word),
    (IsNan a ∨ IsNan b → f32Add c a b = ⟨c.canonicalNan, FpuFlags.none⟩) ∧
    (IsInf a → IsInf b → a ≠ b → f32Add c a b = ⟨c.canonicalNan, FpuFlags.onlyInvalid⟩) ∧
    (IsInf a → IsInf b → a = b → f32Add c a b = ⟨a, FpuFlags.none⟩) ∧
    (IsInf a → ¬ IsInf b → ¬ IsNan b → f32Add c a b = ⟨a, FpuFlags.none⟩) ∧
    (IsInf b → ¬ IsInf a → ¬ IsNan a → f32Add c a b = ⟨b, FpuFlags.none⟩) ∧
    (IsZero a → ¬ IsNan b → f32Add c a b = ⟨b, FpuFlags.none⟩) ∧
    (IsZero b → ¬ IsNan a → ¬ IsZero a → f32Add c a b = ⟨a, FpuFlags.none⟩) ∧
    (∀ (va vb : Finite) (N : Int), classify a = .finite va → classify b = .finite vb →
      (N : ℚ) * (2 : ℚ) ^ (min va.e vb.e - 23) =
        (if va.sign then -va.magnitude else va.magnitude) +
          (if vb.sign then -vb.magnitude else vb.magnitude) →
      f32Add c a b = if N = 0 then ⟨0x00000000#32, FpuFlags.none⟩
        else roundPack c.subnormalReround (decide (N < 0)) N.natAbs (min va.e vb.e - 23))

/-- R182: f32_sub is f32_add with the sign of b inverted; x - x is +0 for every finite nonzero x, and
(+0) - (+0) is -0. -/
def Obligations.SubtractionInvertsSign : Prop :=
  (∀ (c : Config) (a b : Word), f32Sub c a b = f32Add c a (b ^^^ 0x80000000#32)) ∧
  (∀ (c : Config) (x : Word), IsFiniteNonzero x → f32Sub c x x = ⟨0x00000000#32, FpuFlags.none⟩) ∧
  (∀ (c : Config) (b : Word), ¬ IsNan b →
    f32Sub c 0x00000000#32 b = ⟨b ^^^ 0x80000000#32, FpuFlags.none⟩) ∧
  (∀ c : Config, f32Sub c 0x7F800000#32 0x7F800000#32 = ⟨c.canonicalNan, FpuFlags.onlyInvalid⟩)

/-- R183: the table of special cases of f32_mul, in its order, and for two finite nonzero operands the
rounding of the exact product. -/
def Obligations.MulFollowsItsTable : Prop :=
  ∀ (c : Config) (a b : Word),
    (IsNan a ∨ IsNan b → f32Mul c a b = ⟨c.canonicalNan, FpuFlags.none⟩) ∧
    ((IsZero a ∧ IsInf b) ∨ (IsInf a ∧ IsZero b) →
      f32Mul c a b = ⟨c.canonicalNan, FpuFlags.onlyInvalid⟩) ∧
    (¬ IsNan a → ¬ IsNan b → ¬ IsZero a → ¬ IsZero b → IsInf a ∨ IsInf b →
      f32Mul c a b = ⟨withProductSign a b 0x7F800000#32, FpuFlags.none⟩) ∧
    (¬ IsNan a → ¬ IsNan b → ¬ IsInf a → ¬ IsInf b → IsZero a ∨ IsZero b →
      f32Mul c a b = ⟨withProductSign a b 0x00000000#32, FpuFlags.none⟩) ∧
    (∀ va vb : Finite, classify a = .finite va → classify b = .finite vb →
      (shiftAdd 48 (BitVec.ofNat 24 va.m) (BitVec.ofNat 24 vb.m)).toNat = va.m * vb.m ∧
      f32Mul c a b =
        roundPack c.subnormalReround (va.sign ^^ vb.sign) (va.m * vb.m) (va.e + vb.e - 46) ∧
      (2 ^ 23 ≤ va.m → 2 ^ 23 ≤ vb.m → 2 ^ 46 ≤ va.m * vb.m ∧ va.m * vb.m < 2 ^ 48))

/-- R184: the table of special cases of f32_div, in its order; inexact is set in no row. The row of an
infinite divisor (0 with underflow) is not in the source's list: it is the spec's own reading of
"symmetric", and so are the signs and the flag of infinity / 0 (92_eei_decisions.md D24). -/
def Obligations.DivSpecialCases : Prop :=
  ∀ (c : Config) (a b : Word),
    (IsNan a ∨ IsNan b → f32Div c a b = ⟨c.canonicalNan, FpuFlags.none⟩) ∧
    ((IsZero a ∧ IsZero b) ∨ (IsInf a ∧ IsInf b) →
      f32Div c a b = ⟨c.canonicalNan, FpuFlags.onlyInvalid⟩) ∧
    (IsInf a → ¬ IsNan b → ¬ IsInf b →
      f32Div c a b = ⟨withProductSign a b 0x7F800000#32, FpuFlags.onlyOverflow⟩) ∧
    (IsZero b → IsFiniteNonzero a →
      f32Div c a b = ⟨withProductSign a b 0x7F800000#32, FpuFlags.onlyOverflow⟩) ∧
    (IsZero a → ¬ IsNan b → ¬ IsZero b →
      f32Div c a b = ⟨withProductSign a b 0x00000000#32, FpuFlags.onlyUnderflow⟩) ∧
    (IsInf b → IsFiniteNonzero a →
      f32Div c a b = ⟨withProductSign a b 0x00000000#32, FpuFlags.onlyUnderflow⟩) ∧
    f32Div c 0x3F800000#32 0x00000000#32 = ⟨0x7F800000#32, FpuFlags.onlyOverflow⟩ ∧
    f32Div c 0xBF800000#32 0x00000000#32 = ⟨0xFF800000#32, FpuFlags.onlyOverflow⟩

/-- R185, R178: f32_div of two finite nonzero operands. In both modes, and in both modes of the subnormal
path, it is RoundPack of the mode's quotient, with the sign s_a ^ s_b: under IEEE_RNE the quotient of the
64-bit shifted dividend with its remainder as the sticky bit, under LITERAL that of the 23-bit shifted
dividend, remainder discarded. Under IEEE_RNE with FROM_UNROUNDED this is the exact quotient correctly
rounded: nearest, a tie to the even significand, infinity exactly from 2^128 - 2^103 on, never a NaN;
inexact clear exactly where the result is the quotient, overflow exactly where it is an infinity,
underflow exactly where it is inexact and tiny after rounding, invalid never. -/
def Obligations.DivisionFollowsItsMode : Prop :=
  ∀ (c : Config) (a b : Word) (va vb : Finite), classify a = .finite va → classify b = .finite vb →
    (c.fdivMode = .ieeeRne →
      f32Div c a b = roundPack c.subnormalReround (va.sign ^^ vb.sign)
        (2 * (va.m * 2 ^ 64 / vb.m) + if va.m * 2 ^ 64 % vb.m = 0 then 0 else 1)
        (va.e - vb.e - 65)) ∧
    (c.fdivMode = .ieeeRne → c.subnormalReround = .fromUnrounded →
      (∀ (w : Word) (y z : ℚ), fpMagnitude (f32Div c a b).r = some y → fpMagnitude w = some z →
        |y - va.magnitude / vb.magnitude| ≤ |z - va.magnitude / vb.magnitude| ∧
        (z ≠ y → |y - va.magnitude / vb.magnitude| = |z - va.magnitude / vb.magnitude| →
          (f32Div c a b).r.getLsbD 0 = false)) ∧
      (IsInf (f32Div c a b).r ↔
        (2 : ℚ) ^ (128 : Int) - (2 : ℚ) ^ (103 : Int) ≤ va.magnitude / vb.magnitude) ∧
      ¬ IsNan (f32Div c a b).r ∧
      fpSign (f32Div c a b).r = (va.sign ^^ vb.sign) ∧
      ((f32Div c a b).flags.inexact = false ↔
        fpMagnitude (f32Div c a b).r = some (va.magnitude / vb.magnitude)) ∧
      ((f32Div c a b).flags.overflow = true ↔ IsInf (f32Div c a b).r) ∧
      ((f32Div c a b).flags.underflow = true ↔
        (f32Div c a b).flags.inexact = true ∧
          va.magnitude / vb.magnitude < (2 : ℚ) ^ (-126 : Int) - (2 : ℚ) ^ (-151 : Int)) ∧
      (f32Div c a b).flags.invalid = false) ∧
    (c.fdivMode = .literal →
      f32Div c a b = roundPack c.subnormalReround (va.sign ^^ vb.sign) (va.m * 2 ^ 23 / vb.m)
        (va.e - vb.e - 23))

/-- R179, R188: under a CANONICAL_NAN that is a NaN pattern, no operation produces another NaN. -/
def Obligations.OnlyCanonicalNanIsProduced : Prop :=
  ∀ (c : Config) (op : FpuOp) (a b : Word), IsNan c.canonicalNan →
    IsNan (fpu c op a b).r → (fpu c op a b).r = c.canonicalNan

/-- R188: f32_mul commutes in result and flags, and so does f32_add unless both operands are zeros,
where the second operand is returned. -/
def Obligations.AddAndMulCommute : Prop :=
  (∀ (c : Config) (a b : Word), f32Mul c a b = f32Mul c b a) ∧
  (∀ (c : Config) (a b : Word), ¬ (IsZero a ∧ IsZero b) → f32Add c a b = f32Add c b a) ∧
  (∀ (c : Config) (a b : Word), IsZero a → IsZero b → f32Add c a b = ⟨b, FpuFlags.none⟩)

/-- R171, R173 to R177: every finite nonzero binary32 value, unpacked and packed again, is itself, with
no flag, in both rounding modes of the subnormal path. -/
def Obligations.FiniteValuesPackToThemselves : Prop :=
  ∀ (mode : SubnormalReround) (w : Word) (v : Finite), classify w = .finite v →
    roundPack mode v.sign v.m (v.e - 23) = ⟨w, FpuFlags.none⟩

/-- R178: the flags of the rounder under FROM_UNROUNDED: inexact is clear exactly where the result has the
exact magnitude M · 2^q, overflow says that the result is an infinity, underflow that the result is
inexact and tiny after rounding: below 2^-126 - 2^-151, the least magnitude that 24 bits with unbounded
exponent round to 2^-126. Invalid is never set. -/
def Obligations.RounderFlagsDescribeResult : Prop :=
  ∀ (sign : Bool) (M : Nat) (q : Int),
    ((roundPack .fromUnrounded sign M q).flags.inexact = false ↔
      fpMagnitude (roundPack .fromUnrounded sign M q).r = some ((M : ℚ) * (2 : ℚ) ^ q)) ∧
    ((roundPack .fromUnrounded sign M q).flags.overflow = true ↔
      IsInf (roundPack .fromUnrounded sign M q).r) ∧
    ((roundPack .fromUnrounded sign M q).flags.underflow = true ↔
      (roundPack .fromUnrounded sign M q).flags.inexact = true ∧
        (M : ℚ) * (2 : ℚ) ^ q < (2 : ℚ) ^ (-126 : Int) - (2 : ℚ) ^ (-151 : Int)) ∧
    (roundPack .fromUnrounded sign M q).flags.invalid = false

/-- R178: the rounder under FROM_UNROUNDED returns a value nearest to M · 2^q (no binary32 magnitude is
nearer), a tie has the even significand, the magnitudes from 2^128 - 2^103 on give infinity and no
others do, and the sign is kept. -/
def Obligations.RounderReturnsNearestValue : Prop :=
  ∀ (sign : Bool) (M : Nat) (q : Int),
    (∀ (w : Word) (y z : ℚ), fpMagnitude (roundPack .fromUnrounded sign M q).r = some y →
      fpMagnitude w = some z →
      |y - (M : ℚ) * (2 : ℚ) ^ q| ≤ |z - (M : ℚ) * (2 : ℚ) ^ q| ∧
      (z ≠ y → |y - (M : ℚ) * (2 : ℚ) ^ q| = |z - (M : ℚ) * (2 : ℚ) ^ q| →
        (roundPack .fromUnrounded sign M q).r.getLsbD 0 = false)) ∧
    (IsInf (roundPack .fromUnrounded sign M q).r ↔
      (2 : ℚ) ^ (128 : Int) - (2 : ℚ) ^ (103 : Int) ≤ (M : ℚ) * (2 : ℚ) ^ q) ∧
    ¬ IsNan (roundPack .fromUnrounded sign M q).r ∧
    fpSign (roundPack .fromUnrounded sign M q).r = sign

/-- R181: the 27-bit datapath of f32_add gives the result and flags of the exact computation of R180 for
every pair of finite nonzero operands. -/
def Obligations.AddDatapathEqualsExactSum : Prop :=
  ∀ (mode : SubnormalReround) (a b : Word) (va vb : Finite), classify a = .finite va →
    classify b = .finite vb → addDatapath mode va vb = addFinite mode va vb

/-! ### The host and the assembler -/

/-- R296, R294: the driving loop takes at most MAX_STEPS steps, stops early only in a terminal state,
reports Halted, Faulted or BudgetExhausted exactly where the last state is Halted, Faulted or still
Running, and a larger budget changes nothing about a run that ended. -/
def Obligations.DrivingLoopStopsAtBudgetOrTerminal : Prop :=
  ∀ (budget : Nat) (s : State),
    (driveLoop budget 0 s).steps ≤ budget ∧
    ((driveLoop budget 0 s).steps < budget → (driveLoop budget 0 s).state.status ≠ .running) ∧
    ((driveLoop budget 0 s).hostStatus = .halted ↔
      (driveLoop budget 0 s).state.status = .halted) ∧
    ((driveLoop budget 0 s).hostStatus = .faulted ↔
      (driveLoop budget 0 s).state.status = .faulted) ∧
    ((driveLoop budget 0 s).hostStatus = .budgetExhausted ↔
      (driveLoop budget 0 s).state.status = .running) ∧
    Sys2Proof.core.run (driveLoop budget 0 s).steps s = .next (driveLoop budget 0 s).state ∧
    ((driveLoop budget 0 s).state.status ≠ .running →
      ∀ more : Nat, driveLoop (budget + more) 0 s = driveLoop budget 0 s)

/-- R79: the expansion of LI, run on any state, leaves the constant in rd and touches no other
register. -/
def Obligations.LoadImmediateExpansionWritesConstant : Prop :=
  ∀ (rd : RegIdx) (imm : Word) (s : State),
    ((pseudoLi rd imm = [.addi rd 0#5 (lo12 imm)] ∧ -2048 ≤ imm.toInt ∧ imm.toInt ≤ 2047) ∨
      (pseudoLi rd imm = [.lui rd (hi20 imm), .addi rd rd (lo12 imm)] ∧
        ¬ (-2048 ≤ imm.toInt ∧ imm.toInt ≤ 2047))) ∧
    (rd ≠ 0#5 → ∃ t u, exec (.lui rd (hi20 imm)) s = .next t ∧
      exec (.addi rd rd (lo12 imm)) t = .next u ∧ RegWritten s u rd imm) ∧
    (-2048 ≤ imm.toInt → imm.toInt ≤ 2047 → ∃ t, exec (.addi rd 0#5 (lo12 imm)) s = .next t ∧
      RegWritten s t rd imm)
end

