-- ==== Sys2Proof/Laws/Adder.lean ====
section
/-! SUPPORT. What the ripple adder, negation and the shift-add loop compute, as `BitVec` and `Nat`
arithmetic; the units' proofs cite these and never unfold the adder. -/

namespace Sys2Proof.Machine

set_option Elab.async false

theorem toNat_eq_low_add_high {w : Nat} (a : BitVec (w + 1)) :
    a.toNat = (a.getLsbD 0).toNat + 2 * (a.extractLsb' 1 w).toNat := by
  have h : a.toNat < 2 * 2 ^ w := by have := a.isLt; omega
  have hm : a.toNat / 2 % 2 ^ w = a.toNat / 2 := Nat.mod_eq_of_lt (by omega)
  simp only [BitVec.getLsbD, BitVec.extractLsb'_toNat, Nat.testBit_zero, Nat.shiftRight_one, hm]
  rcases Nat.mod_two_eq_zero_or_one a.toNat with h0 | h1
  · simp [h0]; omega
  · simp [h1]; omega

/-- R83: sum and carry are the exact sum, split at 2^w. -/
theorem rippleAdd_exact : ∀ (w : Nat) (a b : BitVec w) (c : Bool),
    (rippleAdd w a b c).1.toNat + (rippleAdd w a b c).2.toNat * 2 ^ w
      = a.toNat + b.toNat + c.toNat
  | 0, a, b, c => by
    have ha : a = 0#0 := Subsingleton.elim _ _
    have hb : b = 0#0 := Subsingleton.elim _ _
    subst ha hb
    simp [rippleAdd]
  | w + 1, a, b, c => by
    have ih := rippleAdd_exact w (a.extractLsb' 1 w) (b.extractLsb' 1 w)
      (fullCarry (a.getLsbD 0) (b.getLsbD 0) c)
    rw [toNat_eq_low_add_high a, toNat_eq_low_add_high b]
    simp only [rippleAdd, BitVec.toNat_concat, Nat.pow_succ]
    generalize (rippleAdd w _ _ _).1.toNat = s at *
    generalize (rippleAdd w _ _ _).2.toNat = k at *
    generalize (a.extractLsb' 1 w).toNat = ah at *
    generalize (b.extractLsb' 1 w).toNat = bh at *
    have hfull : (fullSum (a.getLsbD 0) (b.getLsbD 0) c).toNat
        + 2 * (fullCarry (a.getLsbD 0) (b.getLsbD 0) c).toNat
        = (a.getLsbD 0).toNat + (b.getLsbD 0).toNat + c.toNat := by
      cases a.getLsbD 0 <;> cases b.getLsbD 0 <;> cases c <;> rfl
    have e : k * (2 ^ w * 2) = 2 * (k * 2 ^ w) := by ring
    omega

theorem rippleAdd_carry_toNat {w : Nat} (a b : BitVec w) (c : Bool) :
    (rippleAdd w a b c).2.toNat = (a.toNat + b.toNat + c.toNat) / 2 ^ w := by
  have h := rippleAdd_exact w a b c
  have hs := (rippleAdd w a b c).1.isLt
  rw [← h, Nat.add_mul_div_right _ _ (Nat.two_pow_pos w), Nat.div_eq_of_lt hs, Nat.zero_add]

theorem rippleAdd_sum_toNat {w : Nat} (a b : BitVec w) (c : Bool) :
    (rippleAdd w a b c).1.toNat = (a.toNat + b.toNat + c.toNat) % 2 ^ w := by
  have h := rippleAdd_exact w a b c
  have hs := (rippleAdd w a b c).1.isLt
  rw [← h, Nat.add_mul_mod_self_right, Nat.mod_eq_of_lt hs]

/-- With no carry in, the sum output is `+` (R12, R83). -/
@[simp] theorem rippleAdd_false_fst {w : Nat} (a b : BitVec w) :
    (rippleAdd w a b false).1 = a + b := by
  apply BitVec.eq_of_toNat_eq
  rw [rippleAdd_sum_toNat, BitVec.toNat_add]; simp

@[simp] theorem rippleAdd_false_snd {w : Nat} (a b : BitVec w) :
    (rippleAdd w a b false).2 = decide (2 ^ w ≤ a.toNat + b.toNat) := by
  have h := rippleAdd_carry_toNat a b false
  have ha := a.isLt
  have hb := b.isLt
  simp only [Bool.toNat_false, Nat.add_zero] at h
  by_cases hc : 2 ^ w ≤ a.toNat + b.toNat
  · have : (a.toNat + b.toNat) / 2 ^ w = 1 :=
      Nat.div_eq_of_lt_le (by omega) (by omega)
    rw [this] at h
    simp [hc, Bool.toNat_eq_one.mp h]
  · rw [Nat.div_eq_of_lt (by omega)] at h
    simp [hc, Bool.toNat_eq_zero.mp h]

/-- R84: negation is two's-complement negation. -/
@[simp] theorem negate_eq {w : Nat} (b : BitVec w) : negate b = -b := by
  simp [negate, BitVec.neg_eq_not_add]

/-- R86: the difference output is `-`. -/
@[simp] theorem rippleSub_fst {w : Nat} (a b : BitVec w) : (rippleSub a b).1 = a - b := by
  apply BitVec.eq_of_toNat_eq
  have hb := b.isLt
  rw [rippleSub, rippleAdd_sum_toNat, BitVec.toNat_not, BitVec.toNat_sub]
  congr 1
  simp only [Bool.toNat_true]
  omega

/-- R86: the carry out of the subtractor says that there is no borrow. -/
@[simp] theorem rippleSub_snd {w : Nat} (a b : BitVec w) :
    (rippleSub a b).2 = decide (b.toNat ≤ a.toNat) := by
  have h := rippleAdd_carry_toNat a (~~~b) true
  have ha := a.isLt
  have hb := b.isLt
  rw [BitVec.toNat_not] at h
  simp only [Bool.toNat_true] at h
  rw [rippleSub]
  by_cases hc : b.toNat ≤ a.toNat
  · have : (a.toNat + (2 ^ w - 1 - b.toNat) + 1) / 2 ^ w = 1 :=
      Nat.div_eq_of_lt_le (by omega) (by omega)
    rw [this] at h
    simp [hc, Bool.toNat_eq_one.mp h]
  · rw [Nat.div_eq_of_lt (by omega)] at h
    simp [hc, Bool.toNat_eq_zero.mp h]

/-! ### The shift-add loop (R142) -/

theorem shiftAddLoop_eq {W n : Nat} : ∀ (k : Nat) (acc mc : BitVec W) (mp : BitVec n),
    mp.toNat < 2 ^ k → shiftAddLoop k acc mc mp = acc + mc * BitVec.ofNat W mp.toNat
  | 0, acc, mc, mp, h => by
    have : mp.toNat = 0 := by omega
    simp [shiftAddLoop, this]
  | k + 1, acc, mc, mp, h => by
    have hlow : mp.toNat = (mp.getLsbD 0).toNat + 2 * (mp >>> 1).toNat := by
      simp only [BitVec.getLsbD, Nat.testBit_zero, BitVec.toNat_ushiftRight, Nat.shiftRight_one]
      rcases Nat.mod_two_eq_zero_or_one mp.toNat with h0 | h1
      · simp [h0]; omega
      · simp [h1]; omega
    have hrest : (mp >>> 1).toNat < 2 ^ k := by omega
    rw [shiftAddLoop, shiftAddLoop_eq k _ _ _ hrest]
    conv_rhs => rw [hlow]
    generalize (mp >>> 1).toNat = m
    have hmc : mc <<< 1 = mc * 2#W := by
      apply BitVec.eq_of_toNat_eq
      simp [BitVec.toNat_mul, Nat.shiftLeft_eq]
    rw [hmc]
    cases hb : mp.getLsbD 0
    · simp only [Bool.false_eq_true, if_false, Bool.toNat_false, Nat.zero_add]
      rw [BitVec.ofNat_mul, BitVec.mul_assoc]
    · simp only [if_true, Bool.toNat_true, rippleAdd_false_fst]
      rw [BitVec.ofNat_add, BitVec.ofNat_mul, BitVec.mul_add, BitVec.mul_assoc, BitVec.mul_one,
        BitVec.add_assoc]

/-- R142: the loop computes the exact product when the accumulator is wide enough. -/
theorem shiftAdd_toNat {W n : Nat} (h : n + n ≤ W) (a b : BitVec n) :
    (shiftAdd W a b).toNat = a.toNat * b.toNat := by
  have ha := a.isLt
  have hb := b.isLt
  have hprod : a.toNat * b.toNat < 2 ^ W :=
    calc a.toNat * b.toNat < 2 ^ n * 2 ^ n := Nat.mul_lt_mul'' ha hb
      _ = 2 ^ (n + n) := (Nat.pow_add 2 n n).symm
      _ ≤ 2 ^ W := Nat.pow_le_pow_right (by decide) h
  have hw : 2 ^ n ≤ 2 ^ W := Nat.pow_le_pow_right (by decide) (by omega)
  rw [shiftAdd, shiftAddLoop_eq n _ _ _ hb]
  simp only [padTo, BitVec.zero_add, BitVec.toNat_mul, BitVec.toNat_setWidth, BitVec.toNat_ofNat]
  rw [Nat.mod_eq_of_lt (Nat.lt_of_lt_of_le ha hw), Nat.mod_eq_of_lt (Nat.lt_of_lt_of_le hb hw),
    Nat.mod_eq_of_lt hprod]

end Sys2Proof.Machine
end

