-- ==== Sys2Proof/Laws/Alu.lean ====
section
/-! SUPPORT. The values of the ALU's results as integer arithmetic (spec 41_integer_alu.md R102 to
R111). -/

namespace Sys2Proof.Machine

set_option Elab.async false

@[simp] theorem aluPlain_r (r : Word) : (aluPlain r).r = r := rfl
@[simp] theorem aluPlain_flags (r : Word) : (aluPlain r).flags = aluFlagsPlain r := rfl

@[simp] theorem aluAdd_r (a b : Word) : (aluAdd a b).r = a + b := by simp [aluAdd]
@[simp] theorem aluSub_r (a b : Word) : (aluSub a b).r = a - b := by simp [aluSub]

theorem boolWord_eq (b : Bool) : boolWord b = if b then 1#32 else 0#32 := by cases b <;> rfl

theorem toInt_of_sign (a : Word) :
    a.toInt = if a.getLsbD 31 then (a.toNat : Int) - 2 ^ 32 else (a.toNat : Int) := by
  rw [BitVec.toInt_eq_msb_cond, BitVec.msb_eq_getLsbD_last]; simp

theorem getLsbD_31 (a : Word) : a.getLsbD 31 = decide (2 ^ 31 ≤ a.toNat) := by
  have := BitVec.msb_eq_decide a
  simpa [BitVec.msb_eq_getLsbD_last] using this

/-- R110: N XOR V of the subtraction is the signed comparison. -/
theorem subFlags_signed_less (a b : Word) :
    (negFlag (a - b) ^^ subOverflow a b (a - b)) = decide (a.toInt < b.toInt) := by
  have ha := a.isLt
  have hb := b.isLt
  have hd : (a - b).toNat = (2 ^ 32 - b.toNat + a.toNat) % 2 ^ 32 := BitVec.toNat_sub ..
  simp only [negFlag, subOverflow, toInt_of_sign, getLsbD_31]
  by_cases h1 : 2 ^ 31 ≤ a.toNat <;> by_cases h2 : 2 ^ 31 ≤ b.toNat <;>
    by_cases h3 : 2 ^ 31 ≤ (a - b).toNat <;>
    simp only [h1, h2, h3, decide_true, decide_false, if_true, if_false, Bool.false_eq_true] <;>
    simp <;> omega

@[simp] theorem aluSlt_r (a b : Word) :
    (aluSlt a b).r = if a.toInt < b.toInt then 1#32 else 0#32 := by
  have hn : (aluSub a b).flags.n = negFlag (a - b) := by
    rw [← aluSub_r]; rfl
  have hv : (aluSub a b).flags.v = subOverflow a b (a - b) := by
    rw [← aluSub_r]; rfl
  rw [aluSlt, aluPlain_r, boolWord_eq, hn, hv, subFlags_signed_less]
  by_cases h : a.toInt < b.toInt <;> simp only [h, decide_true, decide_false, if_true] <;> rfl

@[simp] theorem aluSltu_r (a b : Word) :
    (aluSltu a b).r = if a.toNat < b.toNat then 1#32 else 0#32 := by
  rw [aluSltu, aluPlain_r, boolWord_eq, rippleSub_snd]
  by_cases h : a.toNat < b.toNat
  · simp [h]
  · simp [h, Nat.not_lt.mp h]

/-- The results of the ten operations. -/
theorem alu_r (op : AluOp) (a b : Word) :
    (alu op a b).r =
      match op with
      | .add => a + b
      | .sub => a - b
      | .and => a &&& b
      | .or => a ||| b
      | .xor => a ^^^ b
      | .sll => a <<< (b.toNat % 32)
      | .srl => a >>> (b.toNat % 32)
      | .sra => a.sshiftRight (b.toNat % 32)
      | .slt => if a.toInt < b.toInt then 1#32 else 0#32
      | .sltu => if a.toNat < b.toNat then 1#32 else 0#32 := by
  have hsh : (shiftAmount b).toNat = b.toNat % 32 := by simp [shiftAmount]
  cases op with
  | add => exact aluAdd_r a b
  | sub => exact aluSub_r a b
  | slt => exact aluSlt_r a b
  | sltu => exact aluSltu_r a b
  | and | or | xor => rfl
  | sll => simp only [alu, aluPlain_r, shiftLeft, hsh]
  | srl => simp only [alu, aluPlain_r, shiftRightLogical, hsh]
  | sra => simp only [alu, aluPlain_r, shiftRightArith, hsh]

end Sys2Proof.Machine
end

