-- ==== Sys2Proof/Laws/Decode.lean ====
section
/-! SUPPORT. The fields of an encoded word, and the word put together again from its fields, format by
format (spec 30_encoding.md R61 to R68). -/

namespace Sys2Proof

set_option Elab.async false

/-! ### The bits of the formats -/

variable (funct7 opcode : BitVec 7) (rs2 rs1 rd : RegIdx) (funct3 : BitVec 3)

theorem getLsbD_encodeR (i : Nat) : (encodeR funct7 rs2 rs1 funct3 rd opcode).getLsbD i =
    if i < 7 then opcode.getLsbD i else if i < 12 then rd.getLsbD (i - 7)
    else if i < 15 then funct3.getLsbD (i - 12) else if i < 20 then rs1.getLsbD (i - 15)
    else if i < 25 then rs2.getLsbD (i - 20) else funct7.getLsbD (i - 25) := by
  change (funct7 ++ rs2 ++ rs1 ++ funct3 ++ rd ++ opcode).getLsbD i = _
  simp only [BitVec.getLsbD_append]
  repeat' split
  all_goals first | omega | rfl

theorem getLsbD_encodeI (imm : BitVec 12) (i : Nat) :
    (encodeI imm rs1 funct3 rd opcode).getLsbD i =
    if i < 7 then opcode.getLsbD i else if i < 12 then rd.getLsbD (i - 7)
    else if i < 15 then funct3.getLsbD (i - 12) else if i < 20 then rs1.getLsbD (i - 15)
    else imm.getLsbD (i - 20) := by
  change (imm ++ rs1 ++ funct3 ++ rd ++ opcode).getLsbD i = _
  simp only [BitVec.getLsbD_append]
  repeat' split
  all_goals first | omega | rfl

theorem getLsbD_encodeS (imm : BitVec 12) (i : Nat) :
    (encodeS imm rs2 rs1 funct3 opcode).getLsbD i =
    if i < 7 then opcode.getLsbD i else if i < 12 then imm.getLsbD (i - 7)
    else if i < 15 then funct3.getLsbD (i - 12) else if i < 20 then rs1.getLsbD (i - 15)
    else if i < 25 then rs2.getLsbD (i - 20) else imm.getLsbD (i - 20) := by
  change (imm.extractLsb' 5 7 ++ rs2 ++ rs1 ++ funct3 ++ imm.extractLsb' 0 5 ++ opcode).getLsbD i = _
  simp only [BitVec.getLsbD_append, BitVec.getLsbD_extractLsb']
  repeat' split
  all_goals first | omega | rfl | skip
  · rw [decide_eq_true (by omega), Bool.true_and, Nat.zero_add]
  · by_cases h : i < 32
    · rw [decide_eq_true (by omega), Bool.true_and]; congr 1; omega
    · rw [decide_eq_false (by omega), Bool.false_and, BitVec.getLsbD_of_ge _ _ (by omega)]

theorem getLsbD_encodeB (offset : BitVec 13) (i : Nat) :
    (encodeB offset rs2 rs1 funct3 opcode).getLsbD i =
    if i < 7 then opcode.getLsbD i else if i < 8 then offset.getLsbD 11
    else if i < 12 then offset.getLsbD (i - 7)
    else if i < 15 then funct3.getLsbD (i - 12) else if i < 20 then rs1.getLsbD (i - 15)
    else if i < 25 then rs2.getLsbD (i - 20) else if i < 31 then offset.getLsbD (i - 20)
    else if i < 32 then offset.getLsbD 12 else false := by
  change (offset.extractLsb' 12 1 ++ offset.extractLsb' 5 6 ++ rs2 ++ rs1 ++ funct3
    ++ offset.extractLsb' 1 4 ++ offset.extractLsb' 11 1 ++ opcode).getLsbD i = _
  rcases (by omega : i < 7 ∨ i = 7 ∨ (8 ≤ i ∧ i < 12) ∨ (12 ≤ i ∧ i < 15) ∨ (15 ≤ i ∧ i < 20)
      ∨ (20 ≤ i ∧ i < 25) ∨ (25 ≤ i ∧ i < 31) ∨ i = 31 ∨ 32 ≤ i) with
    h | rfl | h | h | h | h | h | rfl | h
  all_goals simp (disch := omega) only [BitVec.getLsbD_append, if_pos, if_neg,
    BitVec.getLsbD_extractLsb', decide_eq_true, decide_eq_false, Bool.true_and, Bool.false_and]
  all_goals congr 1 <;> omega

theorem getLsbD_encodeU (imm20 : BitVec 20) (i : Nat) : (encodeU imm20 rd opcode).getLsbD i =
    if i < 7 then opcode.getLsbD i else if i < 12 then rd.getLsbD (i - 7)
    else imm20.getLsbD (i - 12) := by
  change (imm20 ++ rd ++ opcode).getLsbD i = _
  simp only [BitVec.getLsbD_append]
  repeat' split
  all_goals first | omega | rfl

theorem getLsbD_encodeJ (offset : BitVec 21) (i : Nat) : (encodeJ offset rd opcode).getLsbD i =
    if i < 7 then opcode.getLsbD i else if i < 12 then rd.getLsbD (i - 7)
    else if i < 20 then offset.getLsbD i else if i < 21 then offset.getLsbD 11
    else if i < 31 then offset.getLsbD (i - 20)
    else if i < 32 then offset.getLsbD 20 else false := by
  change (offset.extractLsb' 20 1 ++ offset.extractLsb' 1 10 ++ offset.extractLsb' 11 1
    ++ offset.extractLsb' 12 8 ++ rd ++ opcode).getLsbD i = _
  simp only [BitVec.getLsbD_append, BitVec.getLsbD_extractLsb']
  repeat' split
  all_goals first
    | omega
    | rfl
    | (rw [decide_eq_true (by omega), Bool.true_and]; congr 1; omega)
    | rw [decide_eq_false (by omega), Bool.false_and]

/-! ### The bits of the immediate fields -/

theorem getLsbD_sFieldOf (w : Word) (i : Nat) : (sFieldOf w).getLsbD i =
    if i < 5 then w.getLsbD (i + 7) else if i < 12 then w.getLsbD (i + 20) else false := by
  change (w.extractLsb' 25 7 ++ w.extractLsb' 7 5).getLsbD i = _
  simp only [BitVec.getLsbD_append, BitVec.getLsbD_extractLsb']
  repeat' split
  all_goals first
    | omega
    | (rw [decide_eq_true (by omega), Bool.true_and]; congr 1; omega)
    | rw [decide_eq_false (by omega), Bool.false_and]

theorem getLsbD_bFieldOf (w : Word) (i : Nat) : (bFieldOf w).getLsbD i =
    if i < 1 then false else if i < 5 then w.getLsbD (i + 7) else if i < 11 then w.getLsbD (i + 20)
    else if i < 12 then w.getLsbD 7 else if i < 13 then w.getLsbD 31 else false := by
  change (w.extractLsb' 31 1 ++ w.extractLsb' 7 1 ++ w.extractLsb' 25 6 ++ w.extractLsb' 8 4
    ++ 0#1).getLsbD i = _
  simp only [BitVec.getLsbD_append, BitVec.getLsbD_extractLsb']
  repeat' split
  all_goals first
    | omega
    | (rw [decide_eq_true (by omega), Bool.true_and]; congr 1; omega)
    | rw [decide_eq_false (by omega), Bool.false_and]
    | exact BitVec.getLsbD_zero

theorem getLsbD_jFieldOf (w : Word) (i : Nat) : (jFieldOf w).getLsbD i =
    if i < 1 then false else if i < 11 then w.getLsbD (i + 20) else if i < 12 then w.getLsbD 20
    else if i < 20 then w.getLsbD i else if i < 21 then w.getLsbD 31 else false := by
  change (w.extractLsb' 31 1 ++ w.extractLsb' 12 8 ++ w.extractLsb' 20 1 ++ w.extractLsb' 21 10
    ++ 0#1).getLsbD i = _
  simp only [BitVec.getLsbD_append, BitVec.getLsbD_extractLsb']
  repeat' split
  all_goals first
    | omega
    | (rw [decide_eq_true (by omega), Bool.true_and]; congr 1; omega)
    | rw [decide_eq_false (by omega), Bool.false_and]
    | exact BitVec.getLsbD_zero

/-- A branch offset read from a word is even. -/
@[simp] theorem evenOffset_bFieldOf (w : Word) : evenOffset (bFieldOf w) = true := by
  rw [evenOffset, getLsbD_bFieldOf]; rfl

/-- A jump offset read from a word is even. -/
@[simp] theorem evenOffset_jFieldOf (w : Word) : evenOffset (jFieldOf w) = true := by
  rw [evenOffset, getLsbD_jFieldOf]; rfl

/-! ### Fields of an encoded word -/

@[simp] theorem opcodeOf_encodeR : opcodeOf (encodeR funct7 rs2 rs1 funct3 rd opcode) = opcode := by
  apply BitVec.eq_of_getLsbD_eq
  intro i hi
  rw [opcodeOf, BitVec.getLsbD_extractLsb', getLsbD_encodeR, decide_eq_true hi, Bool.true_and]
  interval_cases i <;> rfl

@[simp] theorem rdOf_encodeR : rdOf (encodeR funct7 rs2 rs1 funct3 rd opcode) = rd := by
  apply BitVec.eq_of_getLsbD_eq
  intro i hi
  rw [rdOf, BitVec.getLsbD_extractLsb', getLsbD_encodeR, decide_eq_true hi, Bool.true_and]
  interval_cases i <;> rfl

@[simp] theorem funct3Of_encodeR : funct3Of (encodeR funct7 rs2 rs1 funct3 rd opcode) = funct3 := by
  apply BitVec.eq_of_getLsbD_eq
  intro i hi
  rw [funct3Of, BitVec.getLsbD_extractLsb', getLsbD_encodeR, decide_eq_true hi, Bool.true_and]
  interval_cases i <;> rfl

@[simp] theorem rs1Of_encodeR : rs1Of (encodeR funct7 rs2 rs1 funct3 rd opcode) = rs1 := by
  apply BitVec.eq_of_getLsbD_eq
  intro i hi
  rw [rs1Of, BitVec.getLsbD_extractLsb', getLsbD_encodeR, decide_eq_true hi, Bool.true_and]
  interval_cases i <;> rfl

@[simp] theorem rs2Of_encodeR : rs2Of (encodeR funct7 rs2 rs1 funct3 rd opcode) = rs2 := by
  apply BitVec.eq_of_getLsbD_eq
  intro i hi
  rw [rs2Of, BitVec.getLsbD_extractLsb', getLsbD_encodeR, decide_eq_true hi, Bool.true_and]
  interval_cases i <;> rfl

@[simp] theorem shamtOf_encodeR : shamtOf (encodeR funct7 rs2 rs1 funct3 rd opcode) = rs2 := by
  apply BitVec.eq_of_getLsbD_eq
  intro i hi
  rw [shamtOf, BitVec.getLsbD_extractLsb', getLsbD_encodeR, decide_eq_true hi, Bool.true_and]
  interval_cases i <;> rfl

@[simp] theorem funct7Of_encodeR : funct7Of (encodeR funct7 rs2 rs1 funct3 rd opcode) = funct7 := by
  apply BitVec.eq_of_getLsbD_eq
  intro i hi
  rw [funct7Of, BitVec.getLsbD_extractLsb', getLsbD_encodeR, decide_eq_true hi, Bool.true_and]
  interval_cases i <;> rfl

@[simp] theorem opcodeOf_encodeI (imm : BitVec 12) : opcodeOf (encodeI imm rs1 funct3 rd opcode) = opcode := by
  apply BitVec.eq_of_getLsbD_eq
  intro i hi
  rw [opcodeOf, BitVec.getLsbD_extractLsb', getLsbD_encodeI, decide_eq_true hi, Bool.true_and]
  interval_cases i <;> rfl

@[simp] theorem rdOf_encodeI (imm : BitVec 12) : rdOf (encodeI imm rs1 funct3 rd opcode) = rd := by
  apply BitVec.eq_of_getLsbD_eq
  intro i hi
  rw [rdOf, BitVec.getLsbD_extractLsb', getLsbD_encodeI, decide_eq_true hi, Bool.true_and]
  interval_cases i <;> rfl

@[simp] theorem funct3Of_encodeI (imm : BitVec 12) : funct3Of (encodeI imm rs1 funct3 rd opcode) = funct3 := by
  apply BitVec.eq_of_getLsbD_eq
  intro i hi
  rw [funct3Of, BitVec.getLsbD_extractLsb', getLsbD_encodeI, decide_eq_true hi, Bool.true_and]
  interval_cases i <;> rfl

@[simp] theorem rs1Of_encodeI (imm : BitVec 12) : rs1Of (encodeI imm rs1 funct3 rd opcode) = rs1 := by
  apply BitVec.eq_of_getLsbD_eq
  intro i hi
  rw [rs1Of, BitVec.getLsbD_extractLsb', getLsbD_encodeI, decide_eq_true hi, Bool.true_and]
  interval_cases i <;> rfl

@[simp] theorem iFieldOf_encodeI (imm : BitVec 12) : iFieldOf (encodeI imm rs1 funct3 rd opcode) = imm := by
  apply BitVec.eq_of_getLsbD_eq
  intro i hi
  rw [iFieldOf, BitVec.getLsbD_extractLsb', getLsbD_encodeI, decide_eq_true hi, Bool.true_and]
  interval_cases i <;> rfl

@[simp] theorem opcodeOf_encodeS (imm : BitVec 12) : opcodeOf (encodeS imm rs2 rs1 funct3 opcode) = opcode := by
  apply BitVec.eq_of_getLsbD_eq
  intro i hi
  rw [opcodeOf, BitVec.getLsbD_extractLsb', getLsbD_encodeS, decide_eq_true hi, Bool.true_and]
  interval_cases i <;> rfl

@[simp] theorem funct3Of_encodeS (imm : BitVec 12) : funct3Of (encodeS imm rs2 rs1 funct3 opcode) = funct3 := by
  apply BitVec.eq_of_getLsbD_eq
  intro i hi
  rw [funct3Of, BitVec.getLsbD_extractLsb', getLsbD_encodeS, decide_eq_true hi, Bool.true_and]
  interval_cases i <;> rfl

@[simp] theorem rs1Of_encodeS (imm : BitVec 12) : rs1Of (encodeS imm rs2 rs1 funct3 opcode) = rs1 := by
  apply BitVec.eq_of_getLsbD_eq
  intro i hi
  rw [rs1Of, BitVec.getLsbD_extractLsb', getLsbD_encodeS, decide_eq_true hi, Bool.true_and]
  interval_cases i <;> rfl

@[simp] theorem rs2Of_encodeS (imm : BitVec 12) : rs2Of (encodeS imm rs2 rs1 funct3 opcode) = rs2 := by
  apply BitVec.eq_of_getLsbD_eq
  intro i hi
  rw [rs2Of, BitVec.getLsbD_extractLsb', getLsbD_encodeS, decide_eq_true hi, Bool.true_and]
  interval_cases i <;> rfl

@[simp] theorem opcodeOf_encodeB (offset : BitVec 13) : opcodeOf (encodeB offset rs2 rs1 funct3 opcode) = opcode := by
  apply BitVec.eq_of_getLsbD_eq
  intro i hi
  rw [opcodeOf, BitVec.getLsbD_extractLsb', getLsbD_encodeB, decide_eq_true hi, Bool.true_and]
  interval_cases i <;> rfl

@[simp] theorem funct3Of_encodeB (offset : BitVec 13) : funct3Of (encodeB offset rs2 rs1 funct3 opcode) = funct3 := by
  apply BitVec.eq_of_getLsbD_eq
  intro i hi
  rw [funct3Of, BitVec.getLsbD_extractLsb', getLsbD_encodeB, decide_eq_true hi, Bool.true_and]
  interval_cases i <;> rfl

@[simp] theorem rs1Of_encodeB (offset : BitVec 13) : rs1Of (encodeB offset rs2 rs1 funct3 opcode) = rs1 := by
  apply BitVec.eq_of_getLsbD_eq
  intro i hi
  rw [rs1Of, BitVec.getLsbD_extractLsb', getLsbD_encodeB, decide_eq_true hi, Bool.true_and]
  interval_cases i <;> rfl

@[simp] theorem rs2Of_encodeB (offset : BitVec 13) : rs2Of (encodeB offset rs2 rs1 funct3 opcode) = rs2 := by
  apply BitVec.eq_of_getLsbD_eq
  intro i hi
  rw [rs2Of, BitVec.getLsbD_extractLsb', getLsbD_encodeB, decide_eq_true hi, Bool.true_and]
  interval_cases i <;> rfl

@[simp] theorem opcodeOf_encodeU (imm20 : BitVec 20) : opcodeOf (encodeU imm20 rd opcode) = opcode := by
  apply BitVec.eq_of_getLsbD_eq
  intro i hi
  rw [opcodeOf, BitVec.getLsbD_extractLsb', getLsbD_encodeU, decide_eq_true hi, Bool.true_and]
  interval_cases i <;> rfl

@[simp] theorem rdOf_encodeU (imm20 : BitVec 20) : rdOf (encodeU imm20 rd opcode) = rd := by
  apply BitVec.eq_of_getLsbD_eq
  intro i hi
  rw [rdOf, BitVec.getLsbD_extractLsb', getLsbD_encodeU, decide_eq_true hi, Bool.true_and]
  interval_cases i <;> rfl

@[simp] theorem uFieldOf_encodeU (imm20 : BitVec 20) : uFieldOf (encodeU imm20 rd opcode) = imm20 := by
  apply BitVec.eq_of_getLsbD_eq
  intro i hi
  rw [uFieldOf, BitVec.getLsbD_extractLsb', getLsbD_encodeU, decide_eq_true hi, Bool.true_and]
  interval_cases i <;> rfl

@[simp] theorem opcodeOf_encodeJ (offset : BitVec 21) : opcodeOf (encodeJ offset rd opcode) = opcode := by
  apply BitVec.eq_of_getLsbD_eq
  intro i hi
  rw [opcodeOf, BitVec.getLsbD_extractLsb', getLsbD_encodeJ, decide_eq_true hi, Bool.true_and]
  interval_cases i <;> rfl

@[simp] theorem rdOf_encodeJ (offset : BitVec 21) : rdOf (encodeJ offset rd opcode) = rd := by
  apply BitVec.eq_of_getLsbD_eq
  intro i hi
  rw [rdOf, BitVec.getLsbD_extractLsb', getLsbD_encodeJ, decide_eq_true hi, Bool.true_and]
  interval_cases i <;> rfl

@[simp] theorem sFieldOf_encodeS (imm : BitVec 12) :
    sFieldOf (encodeS imm rs2 rs1 funct3 opcode) = imm := by
  apply BitVec.eq_of_getLsbD_eq
  intro i hi
  rw [getLsbD_sFieldOf]
  simp only [getLsbD_encodeS]
  interval_cases i <;> rfl

theorem bFieldOf_encodeB {offset : BitVec 13} (h : evenOffset offset) :
    bFieldOf (encodeB offset rs2 rs1 funct3 opcode) = offset := by
  have h0 : offset.getLsbD 0 = false := by simpa [evenOffset] using h
  apply BitVec.eq_of_getLsbD_eq
  intro i hi
  rw [getLsbD_bFieldOf]
  simp only [getLsbD_encodeB]
  interval_cases i
  · exact h0.symm
  all_goals rfl

theorem jFieldOf_encodeJ {offset : BitVec 21} (h : evenOffset offset) :
    jFieldOf (encodeJ offset rd opcode) = offset := by
  have h0 : offset.getLsbD 0 = false := by simpa [evenOffset] using h
  apply BitVec.eq_of_getLsbD_eq
  intro i hi
  rw [getLsbD_jFieldOf]
  simp only [getLsbD_encodeJ]
  interval_cases i
  · exact h0.symm
  all_goals rfl

/-! ### A word put together from its fields -/

@[simp] theorem encodeR_fields (w : Word) :
    encodeR (funct7Of w) (rs2Of w) (rs1Of w) (funct3Of w) (rdOf w) (opcodeOf w) = w := by
  apply BitVec.eq_of_getLsbD_eq
  intro i hi
  simp only [getLsbD_encodeR, opcodeOf, rdOf, funct3Of, rs1Of, rs2Of, funct7Of,
    BitVec.getLsbD_extractLsb']
  interval_cases i <;> rfl

@[simp] theorem encodeI_fields (w : Word) :
    encodeI (iFieldOf w) (rs1Of w) (funct3Of w) (rdOf w) (opcodeOf w) = w := by
  apply BitVec.eq_of_getLsbD_eq
  intro i hi
  simp only [getLsbD_encodeI, opcodeOf, rdOf, funct3Of, rs1Of, iFieldOf,
    BitVec.getLsbD_extractLsb']
  interval_cases i <;> rfl

@[simp] theorem encodeS_fields (w : Word) :
    encodeS (sFieldOf w) (rs2Of w) (rs1Of w) (funct3Of w) (opcodeOf w) = w := by
  apply BitVec.eq_of_getLsbD_eq
  intro i hi
  simp only [getLsbD_encodeS, opcodeOf, funct3Of, rs1Of, rs2Of,
    BitVec.getLsbD_extractLsb', getLsbD_sFieldOf]
  interval_cases i <;> rfl

@[simp] theorem encodeB_fields (w : Word) :
    encodeB (bFieldOf w) (rs2Of w) (rs1Of w) (funct3Of w) (opcodeOf w) = w := by
  apply BitVec.eq_of_getLsbD_eq
  intro i hi
  simp only [getLsbD_encodeB, opcodeOf, funct3Of, rs1Of, rs2Of,
    BitVec.getLsbD_extractLsb', getLsbD_bFieldOf]
  interval_cases i <;> rfl

@[simp] theorem encodeU_fields (w : Word) :
    encodeU (uFieldOf w) (rdOf w) (opcodeOf w) = w := by
  apply BitVec.eq_of_getLsbD_eq
  intro i hi
  simp only [getLsbD_encodeU, opcodeOf, rdOf, uFieldOf,
    BitVec.getLsbD_extractLsb']
  interval_cases i <;> rfl

@[simp] theorem encodeJ_fields (w : Word) :
    encodeJ (jFieldOf w) (rdOf w) (opcodeOf w) = w := by
  apply BitVec.eq_of_getLsbD_eq
  intro i hi
  simp only [getLsbD_encodeJ, opcodeOf, rdOf,
    BitVec.getLsbD_extractLsb', getLsbD_jFieldOf]
  interval_cases i <;> rfl

end Sys2Proof
end

