-- ==== Sys2Proof/Laws/DecodeMajor.lean ====
section
/-! SUPPORT. One lemma per major opcode of the decoder (spec 30_encoding.md R70), and what the masks of
the opcode table select (R76): a word is of a row where its opcode, funct3 and funct7 fields are the
row's. -/

namespace Sys2Proof

set_option Elab.async false

/-! ### The decoder by major opcode -/

/-- The halt sentinel has the JAL opcode, so no other word of another opcode is it (R76). -/
theorem ne_haltWord {w : Word} (h : opcodeOf w ≠ 0b1101111#7) : w ≠ haltWord := by
  rintro rfl; exact h rfl

theorem decode_haltWord (bs : BranchSet) : decode bs haltWord = .instr .halt := if_pos rfl

theorem decode_lui {bs : BranchSet} {w : Word} (h : opcodeOf w = 0b0110111#7) :
    decode bs w = .instr (.lui (rdOf w) (uFieldOf w)) := by
  rw [decode, if_neg (ne_haltWord (by rw [h]; decide)), h]; rfl

theorem decode_auipc {bs : BranchSet} {w : Word} (h : opcodeOf w = 0b0010111#7) :
    decode bs w = .instr (.auipc (rdOf w) (uFieldOf w)) := by
  rw [decode, if_neg (ne_haltWord (by rw [h]; decide)), h]; rfl

theorem decode_jal {bs : BranchSet} {w : Word} (hw : w ≠ haltWord) (h : opcodeOf w = 0b1101111#7) :
    decode bs w = .instr (.jal (rdOf w) (jFieldOf w)) := by
  rw [decode, if_neg hw, h]; rfl

theorem decode_jalr {bs : BranchSet} {w : Word} (h : opcodeOf w = 0b1100111#7) :
    decode bs w = decodeJalr w := by
  rw [decode, if_neg (ne_haltWord (by rw [h]; decide)), h]; rfl

theorem decode_branch {bs : BranchSet} {w : Word} (h : opcodeOf w = 0b1100011#7) :
    decode bs w = decodeBranch bs w := by
  rw [decode, if_neg (ne_haltWord (by rw [h]; decide)), h]; rfl

theorem decode_load {bs : BranchSet} {w : Word} (h : opcodeOf w = 0b0000011#7) :
    decode bs w = decodeLoad w := by
  rw [decode, if_neg (ne_haltWord (by rw [h]; decide)), h]; rfl

theorem decode_store {bs : BranchSet} {w : Word} (h : opcodeOf w = 0b0100011#7) :
    decode bs w = decodeStore w := by
  rw [decode, if_neg (ne_haltWord (by rw [h]; decide)), h]; rfl

theorem decode_opImm {bs : BranchSet} {w : Word} (h : opcodeOf w = 0b0010011#7) :
    decode bs w = decodeOpImm w := by
  rw [decode, if_neg (ne_haltWord (by rw [h]; decide)), h]; rfl

theorem decode_op {bs : BranchSet} {w : Word} (h : opcodeOf w = 0b0110011#7) :
    decode bs w = decodeOp w := by
  rw [decode, if_neg (ne_haltWord (by rw [h]; decide)), h]; rfl

/-- The word of a well-formed JAL is not the halt sentinel (R213). -/
theorem encodeJ_ne_haltWord {rd : RegIdx} {offset : BitVec 21} (he : evenOffset offset = true)
    (hs : isHaltSentinel rd offset = false) : encodeJ offset rd 0b1101111#7 ≠ haltWord := by
  intro h
  have hrd := congrArg rdOf h
  have hoff := congrArg jFieldOf h
  rw [rdOf_encodeJ] at hrd
  rw [jFieldOf_encodeJ _ _ he] at hoff
  rw [hrd, hoff] at hs
  exact absurd hs (by decide)

/-! ### The masks of the opcode table -/

/-- The mask of a U or J row selects the opcode field. -/
theorem mask_opcode (w : Word) : w &&& 0x0000007F#32 = 0#25 ++ opcodeOf w := by
  apply BitVec.eq_of_getLsbD_eq
  intro i hi
  change _ = (0#25 ++ opcodeOf w).getLsbD i
  rw [BitVec.getLsbD_and, BitVec.getLsbD_append, opcodeOf, BitVec.getLsbD_extractLsb']
  interval_cases i <;> simp

/-- The mask of an I, S or B row selects the opcode and funct3 fields. -/
theorem mask_opcode_funct3 (w : Word) :
    w &&& 0x0000707F#32 = 0#17 ++ funct3Of w ++ 0#5 ++ opcodeOf w := by
  apply BitVec.eq_of_getLsbD_eq
  intro i hi
  change _ = (0#17 ++ funct3Of w ++ 0#5 ++ opcodeOf w).getLsbD i
  simp only [BitVec.getLsbD_and, BitVec.getLsbD_append, opcodeOf, funct3Of,
    BitVec.getLsbD_extractLsb']
  interval_cases i <;> simp

/-- The mask of an R row selects the opcode, funct3 and funct7 fields. -/
theorem mask_opcode_funct3_funct7 (w : Word) :
    w &&& 0xFE00707F#32 = funct7Of w ++ 0#10 ++ funct3Of w ++ 0#5 ++ opcodeOf w := by
  apply BitVec.eq_of_getLsbD_eq
  intro i hi
  change _ = (funct7Of w ++ 0#10 ++ funct3Of w ++ 0#5 ++ opcodeOf w).getLsbD i
  simp only [BitVec.getLsbD_and, BitVec.getLsbD_append, opcodeOf, funct3Of, funct7Of,
    BitVec.getLsbD_extractLsb']
  interval_cases i <;> simp

theorem mask_all (w : Word) : w &&& 0xFFFFFFFF#32 = w := by
  have h : (0xFFFFFFFF#32 : Word) = BitVec.allOnes 32 := by decide
  rw [h, BitVec.and_allOnes]

/-- Only the halt sentinel is of the HALT row (R76). -/
theorem haltRow_matchesWord (w : Word) : haltRow.matchesWord w = decide (w = haltWord) := by
  rw [OpcodeRow.matchesWord, haltRow, mask_all]
  rfl

end Sys2Proof
end

