-- ==== Sys2Proof/Laws/Exec.lean ====
section
/-! SUPPORT. One equation per instruction: its meaning as the shared operation it is (spec 41_integer_alu.md
R112, 42_mdu.md R150, 45_control_transfer.md R230 to R240, 46_load_store.md R250 to R260). -/

namespace Sys2Proof.Machine

set_option Elab.async false

variable (s : State) (rd rs1 rs2 : RegIdx)

theorem exec_add : exec (.add rd rs1 rs2) s =
    .next (s.commitReg rd (alu .add (s.readReg rs1) (s.readReg rs2)).r) := by
  rw [exec, execAdd, aluRegReg]

theorem exec_sub : exec (.sub rd rs1 rs2) s =
    .next (s.commitReg rd (alu .sub (s.readReg rs1) (s.readReg rs2)).r) := by
  rw [exec, execSub, aluRegReg]

theorem exec_sll : exec (.sll rd rs1 rs2) s =
    .next (s.commitReg rd (alu .sll (s.readReg rs1) (s.readReg rs2)).r) := by
  rw [exec, execSll, aluRegReg]

theorem exec_slt : exec (.slt rd rs1 rs2) s =
    .next (s.commitReg rd (alu .slt (s.readReg rs1) (s.readReg rs2)).r) := by
  rw [exec, execSlt, aluRegReg]

theorem exec_sltu : exec (.sltu rd rs1 rs2) s =
    .next (s.commitReg rd (alu .sltu (s.readReg rs1) (s.readReg rs2)).r) := by
  rw [exec, execSltu, aluRegReg]

theorem exec_xor : exec (.xor rd rs1 rs2) s =
    .next (s.commitReg rd (alu .xor (s.readReg rs1) (s.readReg rs2)).r) := by
  rw [exec, execXor, aluRegReg]

theorem exec_srl : exec (.srl rd rs1 rs2) s =
    .next (s.commitReg rd (alu .srl (s.readReg rs1) (s.readReg rs2)).r) := by
  rw [exec, execSrl, aluRegReg]

theorem exec_sra : exec (.sra rd rs1 rs2) s =
    .next (s.commitReg rd (alu .sra (s.readReg rs1) (s.readReg rs2)).r) := by
  rw [exec, execSra, aluRegReg]

theorem exec_or : exec (.or rd rs1 rs2) s =
    .next (s.commitReg rd (alu .or (s.readReg rs1) (s.readReg rs2)).r) := by
  rw [exec, execOr, aluRegReg]

theorem exec_and : exec (.and rd rs1 rs2) s =
    .next (s.commitReg rd (alu .and (s.readReg rs1) (s.readReg rs2)).r) := by
  rw [exec, execAnd, aluRegReg]

theorem exec_mul : exec (.mul rd rs1 rs2) s =
    .next (s.commitReg rd (mdu .mul (s.readReg rs1) (s.readReg rs2)).r) := by
  rw [exec, execMul, mduRegReg]

theorem exec_mulh : exec (.mulh rd rs1 rs2) s =
    .next (s.commitReg rd (mdu .mulh (s.readReg rs1) (s.readReg rs2)).r) := by
  rw [exec, execMulh, mduRegReg]

theorem exec_mulhsu : exec (.mulhsu rd rs1 rs2) s =
    .next (s.commitReg rd (mdu .mulhsu (s.readReg rs1) (s.readReg rs2)).r) := by
  rw [exec, execMulhsu, mduRegReg]

theorem exec_mulhu : exec (.mulhu rd rs1 rs2) s =
    .next (s.commitReg rd (mdu .mulhu (s.readReg rs1) (s.readReg rs2)).r) := by
  rw [exec, execMulhu, mduRegReg]

theorem exec_div : exec (.div rd rs1 rs2) s =
    .next (s.commitReg rd (mdu .div (s.readReg rs1) (s.readReg rs2)).r) := by
  rw [exec, execDiv, mduRegReg]

theorem exec_divu : exec (.divu rd rs1 rs2) s =
    .next (s.commitReg rd (mdu .divu (s.readReg rs1) (s.readReg rs2)).r) := by
  rw [exec, execDivu, mduRegReg]

theorem exec_rem : exec (.rem rd rs1 rs2) s =
    .next (s.commitReg rd (mdu .rem (s.readReg rs1) (s.readReg rs2)).r) := by
  rw [exec, execRem, mduRegReg]

theorem exec_remu : exec (.remu rd rs1 rs2) s =
    .next (s.commitReg rd (mdu .remu (s.readReg rs1) (s.readReg rs2)).r) := by
  rw [exec, execRemu, mduRegReg]

theorem exec_addi (imm : BitVec 12) : exec (.addi rd rs1 imm) s =
    .next (s.commitReg rd (alu .add (s.readReg rs1) (immOperand imm)).r) := by
  rw [exec, execAddi, aluRegImm]

theorem exec_slti (imm : BitVec 12) : exec (.slti rd rs1 imm) s =
    .next (s.commitReg rd (alu .slt (s.readReg rs1) (immOperand imm)).r) := by
  rw [exec, execSlti, aluRegImm]

theorem exec_sltiu (imm : BitVec 12) : exec (.sltiu rd rs1 imm) s =
    .next (s.commitReg rd (alu .sltu (s.readReg rs1) (immOperand imm)).r) := by
  rw [exec, execSltiu, aluRegImm]

theorem exec_xori (imm : BitVec 12) : exec (.xori rd rs1 imm) s =
    .next (s.commitReg rd (alu .xor (s.readReg rs1) (immOperand imm)).r) := by
  rw [exec, execXori, aluRegImm]

theorem exec_ori (imm : BitVec 12) : exec (.ori rd rs1 imm) s =
    .next (s.commitReg rd (alu .or (s.readReg rs1) (immOperand imm)).r) := by
  rw [exec, execOri, aluRegImm]

theorem exec_andi (imm : BitVec 12) : exec (.andi rd rs1 imm) s =
    .next (s.commitReg rd (alu .and (s.readReg rs1) (immOperand imm)).r) := by
  rw [exec, execAndi, aluRegImm]

theorem exec_slli (shamt : BitVec 5) : exec (.slli rd rs1 shamt) s =
    .next (s.commitReg rd (alu .sll (s.readReg rs1) (shamtOperand shamt)).r) := by
  rw [exec, execSlli, aluRegImm]

theorem exec_srli (shamt : BitVec 5) : exec (.srli rd rs1 shamt) s =
    .next (s.commitReg rd (alu .srl (s.readReg rs1) (shamtOperand shamt)).r) := by
  rw [exec, execSrli, aluRegImm]

theorem exec_srai (shamt : BitVec 5) : exec (.srai rd rs1 shamt) s =
    .next (s.commitReg rd (alu .sra (s.readReg rs1) (shamtOperand shamt)).r) := by
  rw [exec, execSrai, aluRegImm]

theorem exec_lui (imm20 : BitVec 20) : exec (.lui rd imm20) s =
    .next (s.commitReg rd (immUpper imm20)) := by
  rw [exec, execLui]

theorem exec_auipc (imm20 : BitVec 20) : exec (.auipc rd imm20) s =
    .next (s.commitReg rd (s.pc + immUpper imm20)) := by
  rw [exec, execAuipc]

theorem exec_jal (offset : BitVec 21) : exec (.jal rd offset) s =
    .next (s.jump rd (s.jalTarget offset)) := by
  rw [exec, execJal]

theorem exec_jalr (imm : BitVec 12) : exec (.jalr rd rs1 imm) s =
    .next (s.jump rd (s.jalrTarget rs1 imm)) := by
  rw [exec, execJalr]

theorem exec_beq (offset : BitVec 13) : exec (.beq rs1 rs2 offset) s =
    branchIf (decide (s.readReg rs1 = s.readReg rs2)) offset s := by
  rw [exec, execBeq]

theorem exec_bne (offset : BitVec 13) : exec (.bne rs1 rs2 offset) s =
    branchIf (decide (s.readReg rs1 ≠ s.readReg rs2)) offset s := by
  rw [exec, execBne]

theorem exec_blt (offset : BitVec 13) : exec (.blt rs1 rs2 offset) s =
    branchIf (decide ((s.readReg rs1).toInt < (s.readReg rs2).toInt)) offset s := by
  rw [exec, execBlt]

theorem exec_bge (offset : BitVec 13) : exec (.bge rs1 rs2 offset) s =
    branchIf (decide ((s.readReg rs2).toInt ≤ (s.readReg rs1).toInt)) offset s := by
  rw [exec, execBge]

theorem exec_bltu (offset : BitVec 13) : exec (.bltu rs1 rs2 offset) s =
    branchIf (decide ((s.readReg rs1).toNat < (s.readReg rs2).toNat)) offset s := by
  rw [exec, execBltu]

theorem exec_bgeu (offset : BitVec 13) : exec (.bgeu rs1 rs2 offset) s =
    branchIf (decide ((s.readReg rs2).toNat ≤ (s.readReg rs1).toNat)) offset s := by
  rw [exec, execBgeu]

theorem exec_lb (imm : BitVec 12) : exec (.lb rd rs1 imm) s =
    loadWith .byte (fun s ea => (s.memRead8 ea).signExtend 32) rd rs1 imm s := by
  rw [exec, execLb]

theorem exec_lh (imm : BitVec 12) : exec (.lh rd rs1 imm) s =
    loadWith .half (fun s ea => (s.memRead16 ea).signExtend 32) rd rs1 imm s := by
  rw [exec, execLh]

theorem exec_lw (imm : BitVec 12) : exec (.lw rd rs1 imm) s =
    loadWith .word (fun s ea => s.memRead32 ea) rd rs1 imm s := by
  rw [exec, execLw]

theorem exec_lbu (imm : BitVec 12) : exec (.lbu rd rs1 imm) s =
    loadWith .byte (fun s ea => (s.memRead8 ea).setWidth 32) rd rs1 imm s := by
  rw [exec, execLbu]

theorem exec_lhu (imm : BitVec 12) : exec (.lhu rd rs1 imm) s =
    loadWith .half (fun s ea => (s.memRead16 ea).setWidth 32) rd rs1 imm s := by
  rw [exec, execLhu]

theorem exec_sb (imm : BitVec 12) : exec (.sb rs2 rs1 imm) s =
    storeWith .byte rs2 rs1 imm s := by
  rw [exec, execSb]

theorem exec_sh (imm : BitVec 12) : exec (.sh rs2 rs1 imm) s =
    storeWith .half rs2 rs1 imm s := by
  rw [exec, execSh]

theorem exec_sw (imm : BitVec 12) : exec (.sw rs2 rs1 imm) s =
    storeWith .word rs2 rs1 imm s := by
  rw [exec, execSw]

theorem exec_halt : exec .halt s =
    .next s.halt := by
  rw [exec, execHalt]

end Sys2Proof.Machine
end

