-- ==== Sys2Proof/Laws/Fpu.lean ====
section
/-! SUPPORT. The class of a binary32 pattern and the range of a finite operand (spec 43_fpu.md R171, R172). -/

namespace Sys2Proof.Machine

set_option Elab.async false

/-- A word is its three fields (R171). -/
theorem fpPack_fields (w : Word) : fpPack (fpSign w) (fpExponent w) (fpFraction w) = w := by
  apply BitVec.eq_of_getLsbD_eq
  intro i hi
  change (BitVec.ofBool (w.getLsbD 31) ++ w.extractLsb' 23 8 ++ w.extractLsb' 0 23).getLsbD i = _
  simp only [BitVec.getLsbD_append, BitVec.getLsbD_extractLsb', BitVec.getLsbD_ofBool]
  interval_cases i <;> simp

theorem classify_of_allOnes {w : Word} (h : fpExponent w = 0xFF#8) :
    classify w = if fpFraction w = 0#23 then .infinity (fpSign w) else .nan := by
  simp only [classify, unpack, h, if_true]
  split <;> rfl

theorem classify_of_zero {w : Word} (h : fpExponent w = 0x00#8) :
    classify w = if fpFraction w = 0#23 then .zero (fpSign w)
      else .finite ⟨fpSign w, -126, (0#1 ++ fpFraction w).toNat⟩ := by
  simp only [classify, unpack, h]
  rw [if_neg (by decide), if_pos trivial]
  split <;> rfl

theorem classify_of_normal {w : Word} (h : fpExponent w ≠ 0xFF#8) (h0 : fpExponent w ≠ 0x00#8) :
    classify w = .finite ⟨fpSign w, ((fpExponent w).toNat : Int) - 127, (1#1 ++ fpFraction w).toNat⟩ := by
  simp only [classify, unpack, h, h0, if_false]
  rfl

theorem isInf_iff (w : Word) : IsInf w ↔ fpExponent w = 0xFF#8 ∧ fpFraction w = 0#23 := by
  constructor
  · rintro (rfl | rfl) <;> decide
  · rintro ⟨he, hf⟩
    have := fpPack_fields w
    rw [he, hf] at this
    rw [← this]
    cases fpSign w
    · exact .inl (by decide)
    · exact .inr (by decide)

theorem isZero_iff (w : Word) : IsZero w ↔ fpExponent w = 0x00#8 ∧ fpFraction w = 0#23 := by
  constructor
  · rintro (rfl | rfl) <;> decide
  · rintro ⟨he, hf⟩
    have := fpPack_fields w
    rw [he, hf] at this
    rw [← this]
    cases fpSign w
    · exact .inl (by decide)
    · exact .inr (by decide)

theorem isNan_iff (w : Word) : IsNan w ↔ fpExponent w = 0xFF#8 ∧ fpFraction w ≠ 0#23 := Iff.rfl

/-- The class of a word, by the three patterns of the special-case tables. -/
theorem classify_nan {w : Word} (h : IsNan w) : classify w = .nan := by
  rw [isNan_iff] at h
  rw [classify_of_allOnes h.1, if_neg h.2]

theorem classify_inf {w : Word} (h : IsInf w) : classify w = .infinity (fpSign w) := by
  rw [isInf_iff] at h
  rw [classify_of_allOnes h.1, if_pos h.2]

theorem classify_zero {w : Word} (h : IsZero w) : classify w = .zero (fpSign w) := by
  rw [isZero_iff] at h
  rw [classify_of_zero h.1, if_pos h.2]

theorem classify_finite {w : Word} (h : IsFiniteNonzero w) :
    ∃ v, classify w = .finite v ∧ v.sign = fpSign w := by
  obtain ⟨hn, hi, hz⟩ := h
  rw [isNan_iff] at hn
  rw [isInf_iff] at hi
  rw [isZero_iff] at hz
  by_cases h1 : fpExponent w = 0xFF#8
  · by_cases hf : fpFraction w = 0#23
    · exact absurd ⟨h1, hf⟩ hi
    · exact absurd ⟨h1, hf⟩ hn
  · by_cases h0 : fpExponent w = 0x00#8
    · have hf : fpFraction w ≠ 0#23 := fun hf => hz ⟨h0, hf⟩
      exact ⟨_, by rw [classify_of_zero h0, if_neg hf], rfl⟩
    · exact ⟨_, classify_of_normal h1 h0, rfl⟩

/-- The range of a finite operand: normal, with 24 significant bits, or subnormal, at the least
exponent (R171, R172). -/
theorem classify_range {w : Word} {v : Finite} (h : classify w = .finite v) :
    (2 ^ 23 ≤ v.m ∧ v.m < 2 ^ 24 ∧ -126 ≤ v.e ∧ v.e ≤ 127) ∨ (0 < v.m ∧ v.m < 2 ^ 23 ∧ v.e = -126) := by
  have hlt := (fpFraction w).isLt
  by_cases h1 : fpExponent w = 0xFF#8
  · rw [classify_of_allOnes h1] at h
    split at h <;> cases h
  · by_cases h0 : fpExponent w = 0x00#8
    · rw [classify_of_zero h0] at h
      split at h
      · cases h
      · rename_i hf
        cases h
        have : (fpFraction w).toNat ≠ 0 := fun hz => hf (BitVec.eq_of_toNat_eq hz)
        right
        simp only [BitVec.toNat_append, BitVec.toNat_ofNat, Nat.zero_mod, Nat.zero_shiftLeft,
          Nat.zero_or]
        exact ⟨by omega, by omega, trivial⟩
    · rw [classify_of_normal h1 h0] at h
      cases h
      have he := (fpExponent w).isLt
      have h1' : (fpExponent w).toNat ≠ 255 := fun e => h1 (BitVec.eq_of_toNat_eq e)
      have h0' : (fpExponent w).toNat ≠ 0 := fun e => h0 (BitVec.eq_of_toNat_eq e)
      left
      rw [BitVec.toNat_append, ← Nat.shiftLeft_add_eq_or_of_lt hlt, Nat.shiftLeft_eq]
      simp only [BitVec.toNat_ofNat]
      omega

end Sys2Proof.Machine
end

