-- ==== Sys2Proof/Laws/Mdu.lean ====
section
/-! SUPPORT. The values of the MDU's results as integer arithmetic (spec 42_mdu.md R141 to R148). -/

namespace Sys2Proof.Machine

set_option Elab.async false

/-- The integer an operand stands for under a signedness (R144). -/
def valueOf (k : Signedness) (v : Word) : Int :=
  match k with
  | .signed => v.toInt
  | .unsigned => v.toNat

/-- R141: an operand is its magnitude with its sign. -/
theorem valueOf_eq (k : Signedness) (v : Word) :
    valueOf k v = if signOf k v then -((magOf k v).toNat : Int) else ((magOf k v).toNat : Int) := by
  cases k with
  | unsigned => simp [valueOf, signOf, magOf]
  | signed =>
    have hv := v.isLt
    simp only [valueOf, signOf, magOf, toInt_of_sign, negate_eq]
    cases h : v.getLsbD 31
    · simp
    · have hp : 2 ^ 31 ≤ v.toNat := by rw [getLsbD_31] at h; exact of_decide_eq_true h
      have hn : (-v).toNat = 2 ^ 32 - v.toNat := by
        rw [BitVec.toNat_neg, Nat.mod_eq_of_lt (by omega)]
      simp only [if_true, hn]
      omega

theorem mag_ne_zero {k : Signedness} {v : Word} (h : v ≠ 0#32) : (magOf k v).toNat ≠ 0 := by
  intro h0
  apply h
  by_cases hs : signOf k v
  · have : -v = 0#32 := BitVec.eq_of_toNat_eq (by simpa [magOf, hs] using h0)
    simpa using this
  · exact BitVec.eq_of_toNat_eq (by simpa [magOf, hs] using h0)

/-- R142, R143: the 64-bit product is the exact product modulo 2^64. -/
theorem product_eq (ka kb : Signedness) (a b : Word) :
    product ka kb a b = BitVec.ofInt 64 (valueOf ka a * valueOf kb b) := by
  have hp : shiftAdd 64 (magOf ka a) (magOf kb b)
      = BitVec.ofInt 64 (((magOf ka a).toNat * (magOf kb b).toNat : Nat) : Int) := by
    apply BitVec.eq_of_toNat_eq
    rw [shiftAdd_toNat (by decide), BitVec.ofInt_natCast, BitVec.toNat_ofNat, Nat.mod_eq_of_lt]
    calc _ < 2 ^ 32 * 2 ^ 32 := Nat.mul_lt_mul'' (magOf ka a).isLt (magOf kb b).isLt
      _ = 2 ^ 64 := by norm_num
  rw [valueOf_eq, valueOf_eq, product]
  simp only [hp, negate_eq, ← BitVec.ofInt_neg]
  cases signOf ka a <;> cases signOf kb b <;> simp

@[simp] theorem mdu_mul_r (a b : Word) :
    (mdu .mul a b).r = (BitVec.ofInt 64 (a.toInt * b.toInt)).extractLsb' 0 32 := by
  simp [mdu, mulLow, product_eq, valueOf, lowHalf]

@[simp] theorem mdu_mulh_r (a b : Word) :
    (mdu .mulh a b).r = (BitVec.ofInt 64 (a.toInt * b.toInt)).extractLsb' 32 32 := by
  simp [mdu, mulHigh, product_eq, valueOf, highHalf]

@[simp] theorem mdu_mulhsu_r (a b : Word) :
    (mdu .mulhsu a b).r = (BitVec.ofInt 64 (a.toInt * b.toNat)).extractLsb' 32 32 := by
  simp [mdu, mulHigh, product_eq, valueOf, highHalf]

@[simp] theorem mdu_mulhu_r (a b : Word) :
    (mdu .mulhu a b).r = (BitVec.ofNat 64 (a.toNat * b.toNat)).extractLsb' 32 32 := by
  simp only [mdu, mulHigh, product_eq, valueOf, highHalf]
  rw [← Int.natCast_mul, BitVec.ofInt_natCast]

/-- R145, R146: the quotient truncates toward zero. -/
theorem divide_r (k : Signedness) (a b : Word) :
    (divide k a b).r = if b = 0#32 then 0xFFFFFFFF#32
      else BitVec.ofInt 32 ((valueOf k a).tdiv (valueOf k b)) := by
  by_cases hb : b = 0#32
  · simp [divide, hb]
  · have hq : magQuotient k a b
        = BitVec.ofInt 32 (((magOf k a).toNat : Int).tdiv (magOf k b).toNat) := by
      rw [magQuotient, ← Int.ofNat_tdiv, BitVec.ofInt_natCast]
    rw [valueOf_eq, valueOf_eq, divide]
    simp only [hb, if_false, hq, negate_eq, ← BitVec.ofInt_neg]
    cases signOf k a <;> cases signOf k b <;> simp [Int.tdiv_neg, Int.neg_tdiv]

/-- R145, R146: the remainder takes the sign of the dividend. -/
theorem remainder_r (k : Signedness) (a b : Word) :
    (remainder k a b).r = if b = 0#32 then a
      else BitVec.ofInt 32 ((valueOf k a).tmod (valueOf k b)) := by
  by_cases hb : b = 0#32
  · simp [remainder, hb]
  · have hm : magRemainder k a b
        = BitVec.ofInt 32 (((magOf k a).toNat : Int).tmod (magOf k b).toNat) := by
      rw [magRemainder, ← Int.ofNat_tmod, BitVec.ofInt_natCast]
    rw [valueOf_eq, valueOf_eq, remainder]
    simp only [hb, if_false, hm, negate_eq, ← BitVec.ofInt_neg]
    cases signOf k a <;> cases signOf k b <;> simp [Int.tmod_neg, Int.neg_tmod]

@[simp] theorem mdu_div_r (a b : Word) :
    (mdu .div a b).r = if b = 0#32 then 0xFFFFFFFF#32
      else BitVec.ofInt 32 (a.toInt.tdiv b.toInt) := divide_r .signed a b

@[simp] theorem mdu_rem_r (a b : Word) :
    (mdu .rem a b).r = if b = 0#32 then a
      else BitVec.ofInt 32 (a.toInt.tmod b.toInt) := remainder_r .signed a b

@[simp] theorem mdu_divu_r (a b : Word) :
    (mdu .divu a b).r = if b = 0#32 then 0xFFFFFFFF#32
      else BitVec.ofNat 32 (a.toNat / b.toNat) := by
  rw [show (mdu .divu a b).r = (divide .unsigned a b).r from rfl, divide_r]
  simp only [valueOf, ← Int.ofNat_tdiv, BitVec.ofInt_natCast]

@[simp] theorem mdu_remu_r (a b : Word) :
    (mdu .remu a b).r = if b = 0#32 then a else BitVec.ofNat 32 (a.toNat % b.toNat) := by
  rw [show (mdu .remu a b).r = (remainder .unsigned a b).r from rfl, remainder_r]
  simp only [valueOf, ← Int.ofNat_tmod, BitVec.ofInt_natCast]

end Sys2Proof.Machine
end

