-- ==== Sys2Proof/Laws/State.lean ====
section
/-! SUPPORT. One lemma per field per update of `State`, so that no later proof unfolds a record
update, and the fields of the reset state. -/

namespace Sys2Proof.Machine

set_option Elab.async false

@[simp] theorem setX_x (s : State) (v : Vector Word 32) : (s.setX v).x = v := rfl
@[simp] theorem setX_pc (s : State) (v : Vector Word 32) : (s.setX v).pc = s.pc := rfl
@[simp] theorem setX_status (s : State) (v : Vector Word 32) : (s.setX v).status = s.status := rfl
@[simp] theorem setX_fault (s : State) (v : Vector Word 32) : (s.setX v).fault = s.fault := rfl
@[simp] theorem setX_dmem (s : State) (v : Vector Word 32) : (s.setX v).dmem = s.dmem := rfl
@[simp] theorem setX_out (s : State) (v : Vector Word 32) : (s.setX v).out = s.out := rfl
@[simp] theorem setX_imem (s : State) (v : Vector Word 32) : (s.setX v).imem = s.imem := rfl
@[simp] theorem setX_config (s : State) (v : Vector Word 32) : (s.setX v).config = s.config := rfl

@[simp] theorem setPc_x (s : State) (v : Word) : (s.setPc v).x = s.x := rfl
@[simp] theorem setPc_pc (s : State) (v : Word) : (s.setPc v).pc = v := rfl
@[simp] theorem setPc_status (s : State) (v : Word) : (s.setPc v).status = s.status := rfl
@[simp] theorem setPc_fault (s : State) (v : Word) : (s.setPc v).fault = s.fault := rfl
@[simp] theorem setPc_dmem (s : State) (v : Word) : (s.setPc v).dmem = s.dmem := rfl
@[simp] theorem setPc_out (s : State) (v : Word) : (s.setPc v).out = s.out := rfl
@[simp] theorem setPc_imem (s : State) (v : Word) : (s.setPc v).imem = s.imem := rfl
@[simp] theorem setPc_config (s : State) (v : Word) : (s.setPc v).config = s.config := rfl

@[simp] theorem setStatus_x (s : State) (v : Status) : (s.setStatus v).x = s.x := rfl
@[simp] theorem setStatus_pc (s : State) (v : Status) : (s.setStatus v).pc = s.pc := rfl
@[simp] theorem setStatus_status (s : State) (v : Status) : (s.setStatus v).status = v := rfl
@[simp] theorem setStatus_fault (s : State) (v : Status) : (s.setStatus v).fault = s.fault := rfl
@[simp] theorem setStatus_dmem (s : State) (v : Status) : (s.setStatus v).dmem = s.dmem := rfl
@[simp] theorem setStatus_out (s : State) (v : Status) : (s.setStatus v).out = s.out := rfl
@[simp] theorem setStatus_imem (s : State) (v : Status) : (s.setStatus v).imem = s.imem := rfl
@[simp] theorem setStatus_config (s : State) (v : Status) : (s.setStatus v).config = s.config := rfl

@[simp] theorem setFault_x (s : State) (v : Option FaultRecord) : (s.setFault v).x = s.x := rfl
@[simp] theorem setFault_pc (s : State) (v : Option FaultRecord) : (s.setFault v).pc = s.pc := rfl
@[simp] theorem setFault_status (s : State) (v : Option FaultRecord) : (s.setFault v).status = s.status := rfl
@[simp] theorem setFault_fault (s : State) (v : Option FaultRecord) : (s.setFault v).fault = v := rfl
@[simp] theorem setFault_dmem (s : State) (v : Option FaultRecord) : (s.setFault v).dmem = s.dmem := rfl
@[simp] theorem setFault_out (s : State) (v : Option FaultRecord) : (s.setFault v).out = s.out := rfl
@[simp] theorem setFault_imem (s : State) (v : Option FaultRecord) : (s.setFault v).imem = s.imem := rfl
@[simp] theorem setFault_config (s : State) (v : Option FaultRecord) : (s.setFault v).config = s.config := rfl

@[simp] theorem setDmem_x (s : State) (v : Memory) : (s.setDmem v).x = s.x := rfl
@[simp] theorem setDmem_pc (s : State) (v : Memory) : (s.setDmem v).pc = s.pc := rfl
@[simp] theorem setDmem_status (s : State) (v : Memory) : (s.setDmem v).status = s.status := rfl
@[simp] theorem setDmem_fault (s : State) (v : Memory) : (s.setDmem v).fault = s.fault := rfl
@[simp] theorem setDmem_dmem (s : State) (v : Memory) : (s.setDmem v).dmem = v := rfl
@[simp] theorem setDmem_out (s : State) (v : Memory) : (s.setDmem v).out = s.out := rfl
@[simp] theorem setDmem_imem (s : State) (v : Memory) : (s.setDmem v).imem = s.imem := rfl
@[simp] theorem setDmem_config (s : State) (v : Memory) : (s.setDmem v).config = s.config := rfl

@[simp] theorem appendOut_x (s : State) (b : Byte) : (s.appendOut b).x = s.x := rfl
@[simp] theorem appendOut_pc (s : State) (b : Byte) : (s.appendOut b).pc = s.pc := rfl
@[simp] theorem appendOut_status (s : State) (b : Byte) : (s.appendOut b).status = s.status := rfl
@[simp] theorem appendOut_fault (s : State) (b : Byte) : (s.appendOut b).fault = s.fault := rfl
@[simp] theorem appendOut_dmem (s : State) (b : Byte) : (s.appendOut b).dmem = s.dmem := rfl
@[simp] theorem appendOut_out (s : State) (b : Byte) : (s.appendOut b).out = s.out ++ [b] := rfl
@[simp] theorem appendOut_imem (s : State) (b : Byte) : (s.appendOut b).imem = s.imem := rfl
@[simp] theorem appendOut_config (s : State) (b : Byte) : (s.appendOut b).config = s.config := rfl

/-- The state whose fields are given one by one is determined by them. -/
theorem State.ext_fields {s t : State} (hx : t.x = s.x) (hpc : t.pc = s.pc)
    (hst : t.status = s.status) (hf : t.fault = s.fault) (hm : t.dmem = s.dmem)
    (ho : t.out = s.out) (hi : t.imem = s.imem) (hc : t.config = s.config) : t = s := by
  cases s; cases t; simp_all

@[simp] theorem reset_pc : State.reset.pc = 0#32 := rfl
@[simp] theorem reset_status : State.reset.status = .running := rfl
@[simp] theorem reset_fault : State.reset.fault = none := rfl
@[simp] theorem reset_dmem : State.reset.dmem = [] := rfl
@[simp] theorem reset_out : State.reset.out = [] := rfl
@[simp] theorem reset_imem : State.reset.imem = [] := rfl
@[simp] theorem reset_config : State.reset.config = Config.default := rfl

end Sys2Proof.Machine
end

