-- ==== Sys2Proof/Laws/Ops.lean ====
section
/-! SUPPORT. What each shared operation can do: registers, data memory and its canonical form, the
commit, faults, halting and the fetch. Provers cite these instead of unfolding the operations. -/

namespace Sys2Proof.Machine

set_option Elab.async false

/-! ### Registers -/

/-- R21: x0 reads 0. -/
@[simp] theorem readReg_zero (s : State) : s.readReg 0#5 = 0#32 := rfl

/-- A read depends on the register file only. -/
theorem readReg_congr {s t : State} (h : t.x = s.x) (r : RegIdx) : t.readReg r = s.readReg r := by
  simp [State.readReg, h]

@[simp] theorem readReg_setPc (s : State) (v : Word) (r : RegIdx) :
    (s.setPc v).readReg r = s.readReg r := rfl
@[simp] theorem readReg_setStatus (s : State) (v : Status) (r : RegIdx) :
    (s.setStatus v).readReg r = s.readReg r := rfl
@[simp] theorem readReg_setFault (s : State) (v : Option FaultRecord) (r : RegIdx) :
    (s.setFault v).readReg r = s.readReg r := rfl
@[simp] theorem readReg_setDmem (s : State) (v : Memory) (r : RegIdx) :
    (s.setDmem v).readReg r = s.readReg r := rfl
@[simp] theorem readReg_appendOut (s : State) (b : Byte) (r : RegIdx) :
    (s.appendOut b).readReg r = s.readReg r := rfl

/-- Forcing x[0] to 0 changes no register that is read. -/
@[simp] theorem readReg_zeroX0 (s : State) (r : RegIdx) : s.zeroX0.readReg r = s.readReg r := by
  by_cases h : r = 0#5
  · subst h; rfl
  · have hn : r.toNat ≠ 0 := fun e => h (BitVec.eq_of_toNat_eq e)
    simp only [State.readReg, h, if_false, State.zeroX0, setX_x]
    exact Vector.getElem_set_ne _ _ (Ne.symm hn)

/-- R21, R216: after a write to rd, rd reads the value written, unless it is x0. -/
@[simp] theorem readReg_writeReg (s : State) (rd : RegIdx) (v : Word) (r : RegIdx) :
    (s.writeReg rd v).readReg r = if r = rd ∧ rd ≠ 0#5 then v else s.readReg r := by
  by_cases h0 : rd = 0#5
  · simp [State.writeReg, h0]
  · by_cases hr : r = rd
    · subst hr; simp [State.writeReg, State.readReg, h0]
    · have hn : rd.toNat ≠ r.toNat := fun e => hr (BitVec.eq_of_toNat_eq e.symm)
      by_cases hz : r = 0#5
      · simp [State.readReg, hz, Ne.symm h0]
      · simp only [State.readReg, State.writeReg, h0, hz, hr, if_false, setX_x, false_and]
        exact Vector.getElem_set_ne _ _ hn

/-- `writeReg` writes the register file only. -/
theorem writeReg_eq_setX (s : State) (rd : RegIdx) (v : Word) :
    ∃ x, s.writeReg rd v = s.setX x := by
  by_cases h : rd = 0#5
  · exact ⟨s.x, by simp [State.writeReg, h, State.setX]⟩
  · exact ⟨_, if_neg h⟩

@[simp] theorem writeReg_pc (s : State) (rd : RegIdx) (v : Word) :
    (s.writeReg rd v).pc = s.pc := by
  obtain ⟨x, h⟩ := writeReg_eq_setX s rd v; rw [h]; rfl
@[simp] theorem writeReg_status (s : State) (rd : RegIdx) (v : Word) :
    (s.writeReg rd v).status = s.status := by
  obtain ⟨x, h⟩ := writeReg_eq_setX s rd v; rw [h]; rfl
@[simp] theorem writeReg_fault (s : State) (rd : RegIdx) (v : Word) :
    (s.writeReg rd v).fault = s.fault := by
  obtain ⟨x, h⟩ := writeReg_eq_setX s rd v; rw [h]; rfl
@[simp] theorem writeReg_dmem (s : State) (rd : RegIdx) (v : Word) :
    (s.writeReg rd v).dmem = s.dmem := by
  obtain ⟨x, h⟩ := writeReg_eq_setX s rd v; rw [h]; rfl
@[simp] theorem writeReg_out (s : State) (rd : RegIdx) (v : Word) :
    (s.writeReg rd v).out = s.out := by
  obtain ⟨x, h⟩ := writeReg_eq_setX s rd v; rw [h]; rfl
@[simp] theorem writeReg_imem (s : State) (rd : RegIdx) (v : Word) :
    (s.writeReg rd v).imem = s.imem := by
  obtain ⟨x, h⟩ := writeReg_eq_setX s rd v; rw [h]; rfl
@[simp] theorem writeReg_config (s : State) (rd : RegIdx) (v : Word) :
    (s.writeReg rd v).config = s.config := by
  obtain ⟨x, h⟩ := writeReg_eq_setX s rd v; rw [h]; rfl

@[simp] theorem zeroX0_pc (s : State) : s.zeroX0.pc = s.pc := rfl
@[simp] theorem zeroX0_status (s : State) : s.zeroX0.status = s.status := rfl
@[simp] theorem zeroX0_fault (s : State) : s.zeroX0.fault = s.fault := rfl
@[simp] theorem zeroX0_dmem (s : State) : s.zeroX0.dmem = s.dmem := rfl
@[simp] theorem zeroX0_out (s : State) : s.zeroX0.out = s.out := rfl
@[simp] theorem zeroX0_imem (s : State) : s.zeroX0.imem = s.imem := rfl
@[simp] theorem zeroX0_config (s : State) : s.zeroX0.config = s.config := rfl

/-- R216: the slot of x0 holds 0 after the commit. -/
@[simp] theorem zeroX0_slot0 (s : State) : s.zeroX0.x[0] = 0#32 := by
  simp [State.zeroX0]

/-! ### Data memory -/

theorem Memory.above_cons {a : Nat} {cell : Host.Cell} {m : Memory} :
    Memory.above a (cell :: m) = (decide (a < cell.1) && Memory.above a m) := rfl

theorem Memory.above_mono {a b : Nat} {m : Memory} (h : Memory.above b m) (hab : a ≤ b) :
    Memory.above a m := by
  induction m with
  | nil => rfl
  | cons cell rest ih =>
    simp only [above_cons, Bool.and_eq_true, decide_eq_true_eq] at h ⊢
    exact ⟨Nat.lt_of_le_of_lt hab h.1, ih h.2⟩

/-- An address below every listed one reads as unlisted. -/
theorem Memory.read_of_above {a : Nat} {m : Memory} (h : Memory.above a m) :
    Memory.read m a = Memory.unlisted := by
  induction m with
  | nil => rfl
  | cons cell rest ih =>
    simp only [above_cons, Bool.and_eq_true, decide_eq_true_eq] at h
    simp only [Memory.read, Nat.ne_of_gt h.1, if_false]
    exact ih h.2

theorem Memory.read_cons_same {a : Nat} {v : Byte} {rest : Memory} (h : Memory.above a rest) :
    Memory.read (Memory.cons a v rest) a = v := by
  by_cases hv : v = Memory.unlisted
  · simp only [Memory.cons, hv, if_true]; exact read_of_above h
  · simp [Memory.cons, hv, Memory.read]

theorem Memory.read_cons_ne {a b : Nat} {v : Byte} {rest : Memory} (h : b ≠ a) :
    Memory.read (Memory.cons a v rest) b = Memory.read rest b := by
  by_cases hv : v = Memory.unlisted
  · simp [Memory.cons, hv]
  · simp [Memory.cons, hv, Memory.read, Ne.symm h]

/-- Read after write at the same address. -/
theorem Memory.read_write_same {m : Memory} (h : m.wf) (a : Nat) (v : Byte) :
    (m.write a v).read a = v := by
  induction m with
  | nil => exact read_cons_same rfl
  | cons cell rest ih =>
    simp only [Memory.wf, Bool.and_eq_true, decide_eq_true_eq] at h
    obtain ⟨⟨⟨_, _⟩, habove⟩, hrest⟩ := h
    by_cases hlt : a < cell.1
    · simp only [Memory.write, hlt, if_true]
      apply read_cons_same
      simp [above_cons, hlt, above_mono habove (Nat.le_of_lt hlt)]
    · by_cases heq : a = cell.1
      · simp only [Memory.write, heq, Nat.lt_irrefl, if_false, if_true]
        exact read_cons_same habove
      · simp only [Memory.write, hlt, heq, if_false, Memory.read, Ne.symm heq]
        exact ih hrest

/-- A write leaves every other address alone. -/
theorem Memory.read_write_ne {m : Memory} {a b : Nat} (h : b ≠ a) (v : Byte) :
    (m.write a v).read b = m.read b := by
  induction m with
  | nil => exact read_cons_ne h
  | cons cell rest ih =>
    by_cases hlt : a < cell.1
    · simp only [Memory.write, hlt, if_true]; exact read_cons_ne h
    · by_cases heq : a = cell.1
      · simp only [Memory.write, heq, Nat.lt_irrefl, if_false, if_true]
        rw [read_cons_ne (heq ▸ h)]
        simp [Memory.read, heq ▸ Ne.symm h]
      · simp only [Memory.write, hlt, heq, if_false, Memory.read]
        rw [ih]

theorem Memory.above_consCell {a b : Nat} {v : Byte} {rest : Memory} (h : Memory.above b rest)
    (hab : b < a) : Memory.above b (Memory.cons a v rest) := by
  by_cases hv : v = Memory.unlisted
  · simpa [Memory.cons, hv] using h
  · simp [Memory.cons, hv, above_cons, hab, h]

theorem Memory.wf_cons {a : Nat} {v : Byte} {rest : Memory} (ha : a < 2 ^ 32)
    (h : Memory.above a rest) (hr : rest.wf) : (Memory.cons a v rest).wf := by
  by_cases hv : v = Memory.unlisted
  · simpa [Memory.cons, hv] using hr
  · simp only [Memory.cons, hv, if_false, Memory.wf, h, hr, Bool.and_true, Bool.and_eq_true,
      decide_eq_true_eq]
    exact ⟨ha, by simpa using hv⟩

theorem Memory.above_write {m : Memory} {a b : Nat} {v : Byte} (h : Memory.above b m)
    (hab : b < a) : Memory.above b (m.write a v) := by
  induction m with
  | nil => exact above_consCell rfl hab
  | cons cell rest ih =>
    have h' := h
    simp only [above_cons, Bool.and_eq_true, decide_eq_true_eq] at h
    by_cases hlt : a < cell.1
    · simp only [Memory.write, hlt, if_true]; exact above_consCell h' hab
    · by_cases heq : a = cell.1
      · simp only [Memory.write, heq, Nat.lt_irrefl, if_false, if_true]
        exact above_consCell h.2 (heq ▸ hab)
      · simp only [Memory.write, hlt, heq, if_false, above_cons, h.1, decide_true, Bool.true_and]
        exact ih h.2

/-- Every store keeps the canonical form. -/
theorem Memory.wf_write {m : Memory} (h : m.wf) {a : Nat} (ha : a < 2 ^ 32) (v : Byte) :
    (m.write a v).wf := by
  induction m with
  | nil => exact wf_cons ha rfl rfl
  | cons cell rest ih =>
    have hw := h
    simp only [Memory.wf, Bool.and_eq_true, decide_eq_true_eq] at h
    obtain ⟨⟨⟨hcell, hne⟩, habove⟩, hrest⟩ := h
    by_cases hlt : a < cell.1
    · simp only [Memory.write, hlt, if_true]
      apply wf_cons ha _ hw
      simp [above_cons, hlt, above_mono habove (Nat.le_of_lt hlt)]
    · by_cases heq : a = cell.1
      · simp only [Memory.write, heq, Nat.lt_irrefl, if_false, if_true]
        exact wf_cons hcell habove hrest
      · simp only [Memory.write, hlt, heq, if_false, Memory.wf, Bool.and_eq_true,
          decide_eq_true_eq]
        exact ⟨⟨⟨hcell, hne⟩, above_write habove (by omega)⟩, ih hrest⟩

/-- Equal memories are equal data: two canonical memories that read alike are the same list. -/
theorem Memory.eq_of_read_eq : ∀ {m n : Memory}, m.wf → n.wf → (∀ a, m.read a = n.read a) → m = n
  | [], [], _, _, _ => rfl
  | [], cell :: rest, _, hn, h => by
    simp only [Memory.wf, Bool.and_eq_true, decide_eq_true_eq] at hn
    have := h cell.1
    simp only [Memory.read, if_true] at this
    simp [← this] at hn
  | cell :: rest, [], hm, _, h => by
    simp only [Memory.wf, Bool.and_eq_true, decide_eq_true_eq] at hm
    have := h cell.1
    simp only [Memory.read, if_true] at this
    simp [this] at hm
  | c :: m, d :: n, hm, hn, h => by
    simp only [Memory.wf, Bool.and_eq_true, decide_eq_true_eq, bne_iff_ne, ne_eq] at hm hn
    obtain ⟨⟨⟨_, hc⟩, hcm⟩, hmw⟩ := hm
    obtain ⟨⟨⟨_, hd⟩, hdn⟩, hnw⟩ := hn
    have hkey : c.1 = d.1 := by
      rcases Nat.lt_trichotomy c.1 d.1 with hlt | heq | hgt
      · have := h c.1
        rw [Memory.read_of_above (m := d :: n)] at this
        · simp [Memory.read, hc] at this
        · simp [above_cons, hlt, above_mono hdn (Nat.le_of_lt hlt)]
      · exact heq
      · have := h d.1
        rw [Memory.read_of_above (m := c :: m)] at this
        · simp only [Memory.read, if_true] at this
          exact absurd this.symm hd
        · simp [above_cons, hgt, above_mono hcm (Nat.le_of_lt hgt)]
    have hval : c.2 = d.2 := by
      have := h c.1
      simpa [Memory.read, hkey] using this
    have hrest : m = n := by
      apply Memory.eq_of_read_eq hmw hnw
      intro a
      by_cases ha : a = c.1
      · subst ha
        rw [read_of_above hcm, read_of_above (hkey ▸ hdn)]
      · have := h a
        simpa [Memory.read, Ne.symm ha, ← hkey] using this
    rw [hrest, Prod.ext hkey hval]

/-- A byte read depends on data memory and the configuration only. -/
theorem readByte_congr {s t : State} (hm : t.dmem = s.dmem) (hc : t.config = s.config) (a : Word) :
    t.readByte a = s.readByte a := by
  simp [State.readByte, State.mapped, hm, hc]

theorem bytesKept_of_eq {s t : State} (hm : t.dmem = s.dmem) (hc : t.config = s.config) :
    BytesKept s t :=
  ⟨fun a => by rw [hm], readByte_congr hm hc⟩

/-- What a store of bytes can do: it writes data memory and nothing else, keeps the canonical form
and the unmapped bytes, and leaves every byte outside the stored ones alone. -/
structure ByteStore (s t : State) (stored : Word → Prop) : Prop where
  onlyDmem : t = s.setDmem t.dmem
  wf : s.dmem.wf → t.dmem.wf
  mapped : s.dmemMapped → t.dmemMapped
  frame : ∀ a : Nat, (∀ b : Word, stored b → a ≠ b.toNat) → t.dmem.read a = s.dmem.read a
  unmapped : ∀ a : Nat, a < s.config.dataBase.toNat → t.dmem.read a = s.dmem.read a

theorem ByteStore.refl (s : State) (stored : Word → Prop) : ByteStore s s stored :=
  ⟨rfl, id, id, fun _ _ => rfl, fun _ _ => rfl⟩

theorem ByteStore.config_eq {s t : State} {stored} (h : ByteStore s t stored) :
    t.config = s.config := by
  rw [h.onlyDmem]; rfl

theorem ByteStore.trans {s t u : State} {p q r : Word → Prop} (h : ByteStore s t p)
    (h' : ByteStore t u q) (hp : ∀ b, p b → r b) (hq : ∀ b, q b → r b) : ByteStore s u r where
  onlyDmem := by rw [h'.onlyDmem, h.onlyDmem]; rfl
  wf := h'.wf ∘ h.wf
  mapped := h'.mapped ∘ h.mapped
  frame a ha := (h'.frame a fun b hb => ha b (hq b hb)).trans (h.frame a fun b hb => ha b (hp b hb))
  unmapped a ha := (h'.unmapped a (by rwa [h.config_eq])).trans (h.unmapped a ha)

theorem all_cons {p : Host.Cell → Bool} {m : Memory} {a : Nat} {v : Byte} (h : m.all p)
    (hp : p (a, v)) : (Memory.cons a v m).all p := by
  by_cases hv : v = Memory.unlisted
  · simpa [Memory.cons, hv] using h
  · simp only [Memory.cons, hv, if_false, List.all_cons, hp, Bool.true_and]; exact h

theorem all_write {p : Host.Cell → Bool} {m : Memory} {a : Nat} {v : Byte} (h : m.all p)
    (hp : p (a, v)) : (m.write a v).all p := by
  induction m with
  | nil => exact all_cons rfl hp
  | cons cell rest ih =>
    have h' := h
    simp only [List.all_cons, Bool.and_eq_true] at h
    by_cases hlt : a < cell.1
    · simp only [Memory.write, hlt, if_true]; exact all_cons h' hp
    · by_cases heq : a = cell.1
      · simp only [Memory.write, heq, Nat.lt_irrefl, if_false, if_true]
        exact all_cons h.2 (heq ▸ hp)
      · simp only [Memory.write, hlt, heq, if_false, List.all_cons, h.1, Bool.true_and]
        exact ih h.2

theorem writeByte_spec (s : State) (a : Word) (b : Byte) :
    ByteStore s (s.writeByte a b) (· = a) := by
  by_cases hm : s.mapped a
  · have hle : s.config.dataBase.toNat ≤ a.toNat := by
      simpa [State.mapped, BitVec.le_def] using hm
    simp only [State.writeByte, hm, if_true]
    refine ⟨rfl, fun h => Memory.wf_write h a.isLt b, fun h => ?_, fun c hc => ?_, fun c hc => ?_⟩
    · exact all_write h (decide_eq_true hle)
    · exact Memory.read_write_ne (hc a rfl) b
    · exact Memory.read_write_ne (by omega) b
  · simp only [State.writeByte, hm]; exact ByteStore.refl _ _

theorem writeBytes_spec (s : State) (addr v : Word) (n : Nat) :
    ByteStore s (s.writeBytes addr v n) fun b => ∃ i < n, b = addr + BitVec.ofNat 32 i := by
  induction n with
  | zero => exact ByteStore.refl _ _
  | succ n ih =>
    refine ih.trans (writeByte_spec _ _ _) ?_ ?_
    · rintro b ⟨i, hi, rfl⟩; exact ⟨i, by omega, rfl⟩
    · rintro b rfl; exact ⟨n, by omega, rfl⟩

/-- A store of bytes keeps every field but data memory. -/
theorem ByteStore.fields {s t : State} {p} (h : ByteStore s t p) :
    t.x = s.x ∧ t.pc = s.pc ∧ t.status = s.status ∧ t.fault = s.fault ∧ t.out = s.out
      ∧ t.imem = s.imem ∧ t.config = s.config := by
  rw [h.onlyDmem]; simp

/-- The byte at a mapped address just stored to. -/
theorem readByte_writeByte_same {s : State} (h : s.dmem.wf) (a : Word) (b : Byte) :
    (s.writeByte a b).readByte a = if s.mapped a then b else 0#8 := by
  by_cases hm : s.mapped a
  · have : (s.setDmem (s.dmem.write a.toNat b)).mapped a = true := hm
    simp [State.writeByte, hm, State.readByte, this, Memory.read_write_same h]
  · simp [State.writeByte, State.readByte, hm]

theorem readByte_writeByte_ne (s : State) {a c : Word} (h : c ≠ a) (b : Byte) :
    (s.writeByte a b).readByte c = s.readByte c := by
  have hn : c.toNat ≠ a.toNat := fun e => h (BitVec.eq_of_toNat_eq e)
  have hs := writeByte_spec s a b
  have hf := hs.frame c.toNat (by rintro d rfl; exact hn)
  have hm : (s.writeByte a b).mapped c = s.mapped c := by
    rw [State.mapped, State.mapped, hs.config_eq]
  rw [State.readByte, State.readByte, hf, hm]

/-! ### The commit -/

@[simp] theorem applyStore_none (s : State) : s.applyStore none = s := rfl
@[simp] theorem applyRegWrite_none (s : State) : s.applyRegWrite none = s := rfl
@[simp] theorem applyRegWrite_some (s : State) (w : RegWrite) :
    s.applyRegWrite (some w) = s.writeReg w.rd w.value := rfl

/-- R216, without a memory effect: the whole effect of a commit that writes one register. -/
theorem commit_reg_effect (s : State) (rd : RegIdx) (v nextPc : Word) :
    RegisterEffect s (s.commit none (some ⟨rd, v⟩) nextPc) rd v nextPc where
  reg r := by simp [State.commit]
  slot0 := by simp [State.commit]
  pc := rfl
  dmem := by simp [State.commit]
  bytes := bytesKept_of_eq (by simp [State.commit]) (by simp [State.commit])
  out := by simp [State.commit]
  control := by constructor <;> simp [State.commit]

theorem commitReg_effect (s : State) (rd : RegIdx) (v : Word) :
    RegisterEffect s (s.commitReg rd v) rd v (s.pc + 4#32) :=
  commit_reg_effect s rd v _

/-- R216, with neither a memory effect nor a register write. -/
theorem commitPc_effect (s : State) (nextPc : Word) : PcEffect s (s.commitPc nextPc) nextPc where
  regs r := by simp [State.commitPc, State.commit]
  slot0 := by simp [State.commitPc, State.commit]
  pc := rfl
  dmem := rfl
  bytes := bytesKept_of_eq rfl rfl
  out := rfl
  control := by constructor <;> rfl

/-- R270: raising a fault. -/
theorem raiseFault_effect (s : State) (kind : Fault) (addr : Word) :
    FaultEffect s (s.raiseFault kind addr) kind addr := rfl

/-! ### Fetch -/

/-- What the fetch answers, case by case (R211, R212). -/
theorem fetch_cases (s : State) :
    (s.pc.extractLsb' 0 2 ≠ 0#2 ∧ s.fetch = .misaligned)
      ∨ (s.pc.extractLsb' 0 2 = 0#2 ∧ s.imem.length ≤ s.pc.toNat / 4 ∧ s.fetch = .outOfRange)
      ∨ ∃ w, s.pc.extractLsb' 0 2 = 0#2 ∧ s.imem[s.pc.toNat / 4]? = some w ∧ s.fetch = .word w := by
  by_cases h : s.pc.extractLsb' 0 2 = 0#2
  · cases hw : s.imem[s.pc.toNat / 4]? with
    | none => exact .inr (.inl ⟨h, by simpa using hw, by simp [State.fetch, h, hw]⟩)
    | some w => exact .inr (.inr ⟨w, h, rfl, by simp [State.fetch, h, hw]⟩)
  · exact .inl ⟨h, by simp [State.fetch, h]⟩

/-- The word placed at index i is found there. -/
@[simp] theorem setWord_get (l : List Word) (i : Nat) (w : Word) : (setWord l i w)[i]? = some w := by
  induction i generalizing l with
  | zero => cases l <;> rfl
  | succ i ih => cases l <;> simpa [setWord] using ih _

/-- Every other word that stood in the list stays. -/
theorem setWord_get_ne (l : List Word) {i j : Nat} (h : j ≠ i) (hj : j < l.length) (w : Word) :
    (setWord l i w)[j]? = l[j]? := by
  induction l generalizing i j with
  | nil => simp at hj
  | cons v rest ih =>
    cases i with
    | zero =>
      cases j with
      | zero => exact absurd rfl h
      | succ j => rfl
    | succ i =>
      cases j with
      | zero => rfl
      | succ j =>
        simp only [setWord, List.getElem?_cons_succ]
        exact ih (by omega) (by simpa using hj)

end Sys2Proof.Machine
end

