-- ==== Sys2Proof/Laws/PerInstr.lean ====
section
/-! SUPPORT. The per-instruction family Table: the word the encoder writes for an instruction is of the
instruction's own row of spec/opcode_table.json (spec 30_encoding.md R70 to R76). One lemma per
constructor of Instr. -/

namespace Sys2Proof

set_option Elab.async false

/-- A U or J word is of a row where its opcode is the row's. -/
theorem matchesWord_opcode {m : Mnemonic} {pattern w : Word} (h : 0#25 ++ opcodeOf w = pattern) :
    OpcodeRow.matchesWord ⟨m, pattern, 0x0000007F#32⟩ w = true := by
  rw [OpcodeRow.matchesWord, mask_opcode]; exact beq_iff_eq.mpr h

/-- An I, S or B word is of a row where its opcode and funct3 are the row's. -/
theorem matchesWord_opcode_funct3 {m : Mnemonic} {pattern w : Word}
    (h : 0#17 ++ funct3Of w ++ 0#5 ++ opcodeOf w = pattern) :
    OpcodeRow.matchesWord ⟨m, pattern, 0x0000707F#32⟩ w = true := by
  rw [OpcodeRow.matchesWord, mask_opcode_funct3]; exact beq_iff_eq.mpr h

/-- An R word is of a row where its opcode, funct3 and funct7 are the row's. -/
theorem matchesWord_opcode_funct3_funct7 {m : Mnemonic} {pattern w : Word}
    (h : funct7Of w ++ 0#10 ++ funct3Of w ++ 0#5 ++ opcodeOf w = pattern) :
    OpcodeRow.matchesWord ⟨m, pattern, 0xFE00707F#32⟩ w = true := by
  rw [OpcodeRow.matchesWord, mask_opcode_funct3_funct7]; exact beq_iff_eq.mpr h

end Sys2Proof

namespace Sys2Proof.Laws.Table

set_option Elab.async false

/-- The instruction's encoding is of the row of the opcode table that has its mnemonic. -/
def Statement (i : Instr) : Prop :=
  ∃ row : OpcodeRow, (row = haltRow ∨ row ∈ opcodeRows) ∧ row.mnemonic = i.mnemonic ∧
    row.matchesWord (encode i) = true

theorem add (rd rs1 rs2 : RegIdx) : Statement (.add rd rs1 rs2) :=
  ⟨⟨.add, 0x00000033#32, 0xFE00707F#32⟩, .inr (by decide), rfl, matchesWord_opcode_funct3_funct7 (by simp [encode])⟩

theorem sub (rd rs1 rs2 : RegIdx) : Statement (.sub rd rs1 rs2) :=
  ⟨⟨.sub, 0x40000033#32, 0xFE00707F#32⟩, .inr (by decide), rfl, matchesWord_opcode_funct3_funct7 (by simp [encode])⟩

theorem sll (rd rs1 rs2 : RegIdx) : Statement (.sll rd rs1 rs2) :=
  ⟨⟨.sll, 0x00001033#32, 0xFE00707F#32⟩, .inr (by decide), rfl, matchesWord_opcode_funct3_funct7 (by simp [encode])⟩

theorem slt (rd rs1 rs2 : RegIdx) : Statement (.slt rd rs1 rs2) :=
  ⟨⟨.slt, 0x00002033#32, 0xFE00707F#32⟩, .inr (by decide), rfl, matchesWord_opcode_funct3_funct7 (by simp [encode])⟩

theorem sltu (rd rs1 rs2 : RegIdx) : Statement (.sltu rd rs1 rs2) :=
  ⟨⟨.sltu, 0x00003033#32, 0xFE00707F#32⟩, .inr (by decide), rfl, matchesWord_opcode_funct3_funct7 (by simp [encode])⟩

theorem xor (rd rs1 rs2 : RegIdx) : Statement (.xor rd rs1 rs2) :=
  ⟨⟨.xor, 0x00004033#32, 0xFE00707F#32⟩, .inr (by decide), rfl, matchesWord_opcode_funct3_funct7 (by simp [encode])⟩

theorem srl (rd rs1 rs2 : RegIdx) : Statement (.srl rd rs1 rs2) :=
  ⟨⟨.srl, 0x00005033#32, 0xFE00707F#32⟩, .inr (by decide), rfl, matchesWord_opcode_funct3_funct7 (by simp [encode])⟩

theorem sra (rd rs1 rs2 : RegIdx) : Statement (.sra rd rs1 rs2) :=
  ⟨⟨.sra, 0x40005033#32, 0xFE00707F#32⟩, .inr (by decide), rfl, matchesWord_opcode_funct3_funct7 (by simp [encode])⟩

theorem or (rd rs1 rs2 : RegIdx) : Statement (.or rd rs1 rs2) :=
  ⟨⟨.or, 0x00006033#32, 0xFE00707F#32⟩, .inr (by decide), rfl, matchesWord_opcode_funct3_funct7 (by simp [encode])⟩

theorem and (rd rs1 rs2 : RegIdx) : Statement (.and rd rs1 rs2) :=
  ⟨⟨.and, 0x00007033#32, 0xFE00707F#32⟩, .inr (by decide), rfl, matchesWord_opcode_funct3_funct7 (by simp [encode])⟩

theorem mul (rd rs1 rs2 : RegIdx) : Statement (.mul rd rs1 rs2) :=
  ⟨⟨.mul, 0x02000033#32, 0xFE00707F#32⟩, .inr (by decide), rfl, matchesWord_opcode_funct3_funct7 (by simp [encode])⟩

theorem mulh (rd rs1 rs2 : RegIdx) : Statement (.mulh rd rs1 rs2) :=
  ⟨⟨.mulh, 0x02001033#32, 0xFE00707F#32⟩, .inr (by decide), rfl, matchesWord_opcode_funct3_funct7 (by simp [encode])⟩

theorem mulhsu (rd rs1 rs2 : RegIdx) : Statement (.mulhsu rd rs1 rs2) :=
  ⟨⟨.mulhsu, 0x02002033#32, 0xFE00707F#32⟩, .inr (by decide), rfl, matchesWord_opcode_funct3_funct7 (by simp [encode])⟩

theorem mulhu (rd rs1 rs2 : RegIdx) : Statement (.mulhu rd rs1 rs2) :=
  ⟨⟨.mulhu, 0x02003033#32, 0xFE00707F#32⟩, .inr (by decide), rfl, matchesWord_opcode_funct3_funct7 (by simp [encode])⟩

theorem div (rd rs1 rs2 : RegIdx) : Statement (.div rd rs1 rs2) :=
  ⟨⟨.div, 0x02004033#32, 0xFE00707F#32⟩, .inr (by decide), rfl, matchesWord_opcode_funct3_funct7 (by simp [encode])⟩

theorem divu (rd rs1 rs2 : RegIdx) : Statement (.divu rd rs1 rs2) :=
  ⟨⟨.divu, 0x02005033#32, 0xFE00707F#32⟩, .inr (by decide), rfl, matchesWord_opcode_funct3_funct7 (by simp [encode])⟩

theorem rem (rd rs1 rs2 : RegIdx) : Statement (.rem rd rs1 rs2) :=
  ⟨⟨.rem, 0x02006033#32, 0xFE00707F#32⟩, .inr (by decide), rfl, matchesWord_opcode_funct3_funct7 (by simp [encode])⟩

theorem remu (rd rs1 rs2 : RegIdx) : Statement (.remu rd rs1 rs2) :=
  ⟨⟨.remu, 0x02007033#32, 0xFE00707F#32⟩, .inr (by decide), rfl, matchesWord_opcode_funct3_funct7 (by simp [encode])⟩

theorem addi (rd rs1 : RegIdx) (imm : BitVec 12) : Statement (.addi rd rs1 imm) :=
  ⟨⟨.addi, 0x00000013#32, 0x0000707F#32⟩, .inr (by decide), rfl, matchesWord_opcode_funct3 (by simp [encode])⟩

theorem slti (rd rs1 : RegIdx) (imm : BitVec 12) : Statement (.slti rd rs1 imm) :=
  ⟨⟨.slti, 0x00002013#32, 0x0000707F#32⟩, .inr (by decide), rfl, matchesWord_opcode_funct3 (by simp [encode])⟩

theorem sltiu (rd rs1 : RegIdx) (imm : BitVec 12) : Statement (.sltiu rd rs1 imm) :=
  ⟨⟨.sltiu, 0x00003013#32, 0x0000707F#32⟩, .inr (by decide), rfl, matchesWord_opcode_funct3 (by simp [encode])⟩

theorem xori (rd rs1 : RegIdx) (imm : BitVec 12) : Statement (.xori rd rs1 imm) :=
  ⟨⟨.xori, 0x00004013#32, 0x0000707F#32⟩, .inr (by decide), rfl, matchesWord_opcode_funct3 (by simp [encode])⟩

theorem ori (rd rs1 : RegIdx) (imm : BitVec 12) : Statement (.ori rd rs1 imm) :=
  ⟨⟨.ori, 0x00006013#32, 0x0000707F#32⟩, .inr (by decide), rfl, matchesWord_opcode_funct3 (by simp [encode])⟩

theorem andi (rd rs1 : RegIdx) (imm : BitVec 12) : Statement (.andi rd rs1 imm) :=
  ⟨⟨.andi, 0x00007013#32, 0x0000707F#32⟩, .inr (by decide), rfl, matchesWord_opcode_funct3 (by simp [encode])⟩

theorem slli (rd rs1 : RegIdx) (shamt : BitVec 5) : Statement (.slli rd rs1 shamt) :=
  ⟨⟨.slli, 0x00001013#32, 0xFE00707F#32⟩, .inr (by decide), rfl, matchesWord_opcode_funct3_funct7 (by simp [encode])⟩

theorem srli (rd rs1 : RegIdx) (shamt : BitVec 5) : Statement (.srli rd rs1 shamt) :=
  ⟨⟨.srli, 0x00005013#32, 0xFE00707F#32⟩, .inr (by decide), rfl, matchesWord_opcode_funct3_funct7 (by simp [encode])⟩

theorem srai (rd rs1 : RegIdx) (shamt : BitVec 5) : Statement (.srai rd rs1 shamt) :=
  ⟨⟨.srai, 0x40005013#32, 0xFE00707F#32⟩, .inr (by decide), rfl, matchesWord_opcode_funct3_funct7 (by simp [encode])⟩

theorem lui (rd : RegIdx) (imm20 : BitVec 20) : Statement (.lui rd imm20) :=
  ⟨⟨.lui, 0x00000037#32, 0x0000007F#32⟩, .inr (by decide), rfl, matchesWord_opcode (by simp [encode])⟩

theorem auipc (rd : RegIdx) (imm20 : BitVec 20) : Statement (.auipc rd imm20) :=
  ⟨⟨.auipc, 0x00000017#32, 0x0000007F#32⟩, .inr (by decide), rfl, matchesWord_opcode (by simp [encode])⟩

theorem jal (rd : RegIdx) (offset : BitVec 21) : Statement (.jal rd offset) :=
  ⟨⟨.jal, 0x0000006F#32, 0x0000007F#32⟩, .inr (by decide), rfl, matchesWord_opcode (by simp [encode])⟩

theorem jalr (rd rs1 : RegIdx) (imm : BitVec 12) : Statement (.jalr rd rs1 imm) :=
  ⟨⟨.jalr, 0x00000067#32, 0x0000707F#32⟩, .inr (by decide), rfl, matchesWord_opcode_funct3 (by simp [encode])⟩

theorem beq (rs1 rs2 : RegIdx) (offset : BitVec 13) : Statement (.beq rs1 rs2 offset) :=
  ⟨⟨.beq, 0x00000063#32, 0x0000707F#32⟩, .inr (by decide), rfl, matchesWord_opcode_funct3 (by simp [encode])⟩

theorem bne (rs1 rs2 : RegIdx) (offset : BitVec 13) : Statement (.bne rs1 rs2 offset) :=
  ⟨⟨.bne, 0x00001063#32, 0x0000707F#32⟩, .inr (by decide), rfl, matchesWord_opcode_funct3 (by simp [encode])⟩

theorem blt (rs1 rs2 : RegIdx) (offset : BitVec 13) : Statement (.blt rs1 rs2 offset) :=
  ⟨⟨.blt, 0x00004063#32, 0x0000707F#32⟩, .inr (by decide), rfl, matchesWord_opcode_funct3 (by simp [encode])⟩

theorem bge (rs1 rs2 : RegIdx) (offset : BitVec 13) : Statement (.bge rs1 rs2 offset) :=
  ⟨⟨.bge, 0x00005063#32, 0x0000707F#32⟩, .inr (by decide), rfl, matchesWord_opcode_funct3 (by simp [encode])⟩

theorem bltu (rs1 rs2 : RegIdx) (offset : BitVec 13) : Statement (.bltu rs1 rs2 offset) :=
  ⟨⟨.bltu, 0x00006063#32, 0x0000707F#32⟩, .inr (by decide), rfl, matchesWord_opcode_funct3 (by simp [encode])⟩

theorem bgeu (rs1 rs2 : RegIdx) (offset : BitVec 13) : Statement (.bgeu rs1 rs2 offset) :=
  ⟨⟨.bgeu, 0x00007063#32, 0x0000707F#32⟩, .inr (by decide), rfl, matchesWord_opcode_funct3 (by simp [encode])⟩

theorem lb (rd rs1 : RegIdx) (imm : BitVec 12) : Statement (.lb rd rs1 imm) :=
  ⟨⟨.lb, 0x00000003#32, 0x0000707F#32⟩, .inr (by decide), rfl, matchesWord_opcode_funct3 (by simp [encode])⟩

theorem lh (rd rs1 : RegIdx) (imm : BitVec 12) : Statement (.lh rd rs1 imm) :=
  ⟨⟨.lh, 0x00001003#32, 0x0000707F#32⟩, .inr (by decide), rfl, matchesWord_opcode_funct3 (by simp [encode])⟩

theorem lw (rd rs1 : RegIdx) (imm : BitVec 12) : Statement (.lw rd rs1 imm) :=
  ⟨⟨.lw, 0x00002003#32, 0x0000707F#32⟩, .inr (by decide), rfl, matchesWord_opcode_funct3 (by simp [encode])⟩

theorem lbu (rd rs1 : RegIdx) (imm : BitVec 12) : Statement (.lbu rd rs1 imm) :=
  ⟨⟨.lbu, 0x00004003#32, 0x0000707F#32⟩, .inr (by decide), rfl, matchesWord_opcode_funct3 (by simp [encode])⟩

theorem lhu (rd rs1 : RegIdx) (imm : BitVec 12) : Statement (.lhu rd rs1 imm) :=
  ⟨⟨.lhu, 0x00005003#32, 0x0000707F#32⟩, .inr (by decide), rfl, matchesWord_opcode_funct3 (by simp [encode])⟩

theorem sb (rs2 rs1 : RegIdx) (imm : BitVec 12) : Statement (.sb rs2 rs1 imm) :=
  ⟨⟨.sb, 0x00000023#32, 0x0000707F#32⟩, .inr (by decide), rfl, matchesWord_opcode_funct3 (by simp [encode])⟩

theorem sh (rs2 rs1 : RegIdx) (imm : BitVec 12) : Statement (.sh rs2 rs1 imm) :=
  ⟨⟨.sh, 0x00001023#32, 0x0000707F#32⟩, .inr (by decide), rfl, matchesWord_opcode_funct3 (by simp [encode])⟩

theorem sw (rs2 rs1 : RegIdx) (imm : BitVec 12) : Statement (.sw rs2 rs1 imm) :=
  ⟨⟨.sw, 0x00002023#32, 0x0000707F#32⟩, .inr (by decide), rfl, matchesWord_opcode_funct3 (by simp [encode])⟩

theorem halt : Statement .halt := ⟨haltRow, .inl rfl, rfl, by decide⟩

end Sys2Proof.Laws.Table
end

