-- ==== Sys2Proof/Laws/Step.lean ====
section
/-! SUPPORT. What an instruction and a step can do, said once (spec 44_execution_engine.md R210, R216,
R220): the inversion lemmas the claims about all instructions and all steps rest on. -/

namespace Sys2Proof.Machine

set_option Elab.async false

/-! ### What an instruction can do -/

/-- The store an instruction makes when its address is aligned: width, source register, address. -/
def storeOf (i : Instr) (s : State) : Option (Width × RegIdx × Word) :=
  match i with
  | .sb rs2 rs1 imm => some (.byte, rs2, s.storeAddress rs1 imm)
  | .sh rs2 rs1 imm => some (.half, rs2, s.storeAddress rs1 imm)
  | .sw rs2 rs1 imm => some (.word, rs2, s.storeAddress rs1 imm)
  | _ => none

/-- The five shapes of an instruction's next state (R220): a register written, only the pc moved, a
store committed, a misaligned access faulted, the halt. -/
inductive ExecShape (i : Instr) (s : State) : State → Prop where
  | reg (rd : RegIdx) (v nextPc : Word) (hi : i ≠ .halt) (hs : storeOf i s = none) :
      ExecShape i s (s.commit none (some ⟨rd, v⟩) nextPc)
  | pc (nextPc : Word) (hi : i ≠ .halt) (hs : storeOf i s = none) : ExecShape i s (s.commitPc nextPc)
  | store (width : Width) (rs2 : RegIdx) (ea : Word) (hi : i ≠ .halt)
      (hs : storeOf i s = some (width, rs2, ea)) (ha : width.aligned ea = true) :
      ExecShape i s (s.commit (some ⟨ea, width.bytes, s.readReg rs2⟩) none s.pcPlus4)
  | fault (kind : Fault) (addr : Word) (hi : i ≠ .halt) (hk : kind ≠ .fetchMisaligned)
      (ha : addr.extractLsb' 0 2 ≠ 0#2) : ExecShape i s (s.raiseFault kind addr)
  | halt (hi : i = .halt) : ExecShape i s s.halt

/-- An address that fails an alignment check has a low bit set (R48). -/
theorem low_bits_of_not_aligned {width : Width} {addr : Word} (h : width.aligned addr ≠ true) :
    addr.extractLsb' 0 2 ≠ 0#2 := by
  cases width with
  | byte => exact absurd rfl h
  | half =>
    intro h0
    apply h
    have h1 : addr.extractLsb' 0 1 = (addr.extractLsb' 0 2).extractLsb' 0 1 := by
      ext i hi
      simp [hi]
    rw [Width.aligned, h1, h0]
    rfl
  | word => simpa [Width.aligned] using h

theorem loadWith_shape {i : Instr} {s : State} (hi : i ≠ .halt) (hs : storeOf i s = none)
    (width : Width) (value : State → Word → Word) (rd rs1 : RegIdx) (imm : BitVec 12) :
    ∃ t, loadWith width value rd rs1 imm s = .next t ∧ ExecShape i s t := by
  by_cases h : width.aligned (s.loadAddress rs1 imm) = true
  · exact ⟨_, if_pos h, .reg _ _ _ hi hs⟩
  · exact ⟨_, if_neg h, .fault _ _ hi (by decide) (low_bits_of_not_aligned h)⟩

theorem storeWith_shape {i : Instr} {s : State} {width : Width} {rs2 rs1 : RegIdx} {imm : BitVec 12}
    (hi : i ≠ .halt) (hs : storeOf i s = some (width, rs2, s.storeAddress rs1 imm)) :
    ∃ t, storeWith width rs2 rs1 imm s = .next t ∧ ExecShape i s t := by
  by_cases h : width.aligned (s.storeAddress rs1 imm) = true
  · exact ⟨_, if_pos h, .store _ _ _ hi hs h⟩
  · exact ⟨_, if_neg h, .fault _ _ hi (by decide) (low_bits_of_not_aligned h)⟩

theorem next_commit_shape {i : Instr} {s : State} (hi : i ≠ .halt) (hs : storeOf i s = none)
    (rd : RegIdx) (v nextPc : Word) (o : Host.Outcome State Fault Refusal)
    (ho : o = .next (s.commit none (some ⟨rd, v⟩) nextPc)) : ∃ t, o = .next t ∧ ExecShape i s t :=
  ⟨_, ho, .reg rd v nextPc hi hs⟩

theorem branchIf_shape {i : Instr} {s : State} (hi : i ≠ .halt) (hs : storeOf i s = none)
    (taken : Bool) (offset : BitVec 13) :
    ∃ t, branchIf taken offset s = .next t ∧ ExecShape i s t :=
  ⟨_, rfl, .pc _ hi hs⟩

/-- Every instruction answers a next state of one of the five shapes. -/
theorem exec_shape (i : Instr) (s : State) : ∃ t, exec i s = .next t ∧ ExecShape i s t := by
  cases i with
  | halt => exact ⟨s.halt, rfl, .halt rfl⟩
  | beq rs1 rs2 offset =>
    rw [exec, execBeq]
    exact branchIf_shape (i := .beq rs1 rs2 offset) Instr.noConfusion rfl _ offset
  | bne rs1 rs2 offset =>
    rw [exec, execBne]
    exact branchIf_shape (i := .bne rs1 rs2 offset) Instr.noConfusion rfl _ offset
  | blt rs1 rs2 offset =>
    rw [exec, execBlt]
    exact branchIf_shape (i := .blt rs1 rs2 offset) Instr.noConfusion rfl _ offset
  | bge rs1 rs2 offset =>
    rw [exec, execBge]
    exact branchIf_shape (i := .bge rs1 rs2 offset) Instr.noConfusion rfl _ offset
  | bltu rs1 rs2 offset =>
    rw [exec, execBltu]
    exact branchIf_shape (i := .bltu rs1 rs2 offset) Instr.noConfusion rfl _ offset
  | bgeu rs1 rs2 offset =>
    rw [exec, execBgeu]
    exact branchIf_shape (i := .bgeu rs1 rs2 offset) Instr.noConfusion rfl _ offset
  | lb rd rs1 imm =>
    rw [exec, execLb]
    exact loadWith_shape (i := .lb rd rs1 imm) Instr.noConfusion rfl _ _ rd rs1 imm
  | lh rd rs1 imm =>
    rw [exec, execLh]
    exact loadWith_shape (i := .lh rd rs1 imm) Instr.noConfusion rfl _ _ rd rs1 imm
  | lw rd rs1 imm =>
    rw [exec, execLw]
    exact loadWith_shape (i := .lw rd rs1 imm) Instr.noConfusion rfl _ _ rd rs1 imm
  | lbu rd rs1 imm =>
    rw [exec, execLbu]
    exact loadWith_shape (i := .lbu rd rs1 imm) Instr.noConfusion rfl _ _ rd rs1 imm
  | lhu rd rs1 imm =>
    rw [exec, execLhu]
    exact loadWith_shape (i := .lhu rd rs1 imm) Instr.noConfusion rfl _ _ rd rs1 imm
  | sb rs2 rs1 imm =>
    rw [exec, execSb]
    exact storeWith_shape (i := .sb rs2 rs1 imm) Instr.noConfusion rfl
  | sh rs2 rs1 imm =>
    rw [exec, execSh]
    exact storeWith_shape (i := .sh rs2 rs1 imm) Instr.noConfusion rfl
  | sw rs2 rs1 imm =>
    rw [exec, execSw]
    exact storeWith_shape (i := .sw rs2 rs1 imm) Instr.noConfusion rfl
  | add a b c => exact next_commit_shape (i := .add a b c) Instr.noConfusion rfl _ _ _ _ rfl
  | sub a b c => exact next_commit_shape (i := .sub a b c) Instr.noConfusion rfl _ _ _ _ rfl
  | sll a b c => exact next_commit_shape (i := .sll a b c) Instr.noConfusion rfl _ _ _ _ rfl
  | slt a b c => exact next_commit_shape (i := .slt a b c) Instr.noConfusion rfl _ _ _ _ rfl
  | sltu a b c => exact next_commit_shape (i := .sltu a b c) Instr.noConfusion rfl _ _ _ _ rfl
  | xor a b c => exact next_commit_shape (i := .xor a b c) Instr.noConfusion rfl _ _ _ _ rfl
  | srl a b c => exact next_commit_shape (i := .srl a b c) Instr.noConfusion rfl _ _ _ _ rfl
  | sra a b c => exact next_commit_shape (i := .sra a b c) Instr.noConfusion rfl _ _ _ _ rfl
  | or a b c => exact next_commit_shape (i := .or a b c) Instr.noConfusion rfl _ _ _ _ rfl
  | and a b c => exact next_commit_shape (i := .and a b c) Instr.noConfusion rfl _ _ _ _ rfl
  | addi a b c => exact next_commit_shape (i := .addi a b c) Instr.noConfusion rfl _ _ _ _ rfl
  | slti a b c => exact next_commit_shape (i := .slti a b c) Instr.noConfusion rfl _ _ _ _ rfl
  | sltiu a b c => exact next_commit_shape (i := .sltiu a b c) Instr.noConfusion rfl _ _ _ _ rfl
  | xori a b c => exact next_commit_shape (i := .xori a b c) Instr.noConfusion rfl _ _ _ _ rfl
  | ori a b c => exact next_commit_shape (i := .ori a b c) Instr.noConfusion rfl _ _ _ _ rfl
  | andi a b c => exact next_commit_shape (i := .andi a b c) Instr.noConfusion rfl _ _ _ _ rfl
  | slli a b c => exact next_commit_shape (i := .slli a b c) Instr.noConfusion rfl _ _ _ _ rfl
  | srli a b c => exact next_commit_shape (i := .srli a b c) Instr.noConfusion rfl _ _ _ _ rfl
  | srai a b c => exact next_commit_shape (i := .srai a b c) Instr.noConfusion rfl _ _ _ _ rfl
  | mul a b c => exact next_commit_shape (i := .mul a b c) Instr.noConfusion rfl _ _ _ _ rfl
  | mulh a b c => exact next_commit_shape (i := .mulh a b c) Instr.noConfusion rfl _ _ _ _ rfl
  | mulhsu a b c => exact next_commit_shape (i := .mulhsu a b c) Instr.noConfusion rfl _ _ _ _ rfl
  | mulhu a b c => exact next_commit_shape (i := .mulhu a b c) Instr.noConfusion rfl _ _ _ _ rfl
  | div a b c => exact next_commit_shape (i := .div a b c) Instr.noConfusion rfl _ _ _ _ rfl
  | divu a b c => exact next_commit_shape (i := .divu a b c) Instr.noConfusion rfl _ _ _ _ rfl
  | rem a b c => exact next_commit_shape (i := .rem a b c) Instr.noConfusion rfl _ _ _ _ rfl
  | remu a b c => exact next_commit_shape (i := .remu a b c) Instr.noConfusion rfl _ _ _ _ rfl
  | jalr a b c => exact next_commit_shape (i := .jalr a b c) Instr.noConfusion rfl _ _ _ _ rfl
  | lui a b => exact next_commit_shape (i := .lui a b) Instr.noConfusion rfl _ _ _ _ rfl
  | auipc a b => exact next_commit_shape (i := .auipc a b) Instr.noConfusion rfl _ _ _ _ rfl
  | jal a b => exact next_commit_shape (i := .jal a b) Instr.noConfusion rfl _ _ _ _ rfl

/-! ### What a step can do -/

theorem step_halted {s : State} (h : s.status = .halted) : step s = .next s := by
  rw [step, h]

theorem step_faulted {s : State} (h : s.status = .faulted) : step s = .next s := by
  rw [step, h]

theorem step_misaligned {s : State} (h : s.status = .running) (hf : s.fetch = .misaligned) :
    step s = .next (s.raiseFault .fetchMisaligned s.pc) := by
  rw [step, h, hf]

theorem step_outOfRange {s : State} (h : s.status = .running) (hf : s.fetch = .outOfRange) :
    step s = .next s.halt := by
  rw [step, h, hf]

theorem step_word {s : State} {w : Word} (h : s.status = .running) (hf : s.fetch = .word w) :
    step s = runDecoded (decode s.config.branchSet w) s := by
  rw [step, h, hf]

theorem fetch_word {s : State} {w : Word} (ha : s.pc.extractLsb' 0 2 = 0#2)
    (hw : s.imem[s.pc.toNat / 4]? = some w) : s.fetch = .word w := by
  rw [State.fetch, if_pos ha, hw]

/-- The shapes of a step's next state (R220): a terminal state kept, the fetch fault, the halt beyond
the image, an instruction's shape, or the no-op of an unrecognised word. -/
inductive StepShape (s : State) : State → Prop where
  | terminal (h : s.status ≠ .running) : StepShape s s
  | fetchFault (h : s.status = .running) (hf : s.fetch = .misaligned)
      (ha : s.pc.extractLsb' 0 2 ≠ 0#2) : StepShape s (s.raiseFault .fetchMisaligned s.pc)
  | beyond (h : s.status = .running) (hf : s.fetch = .outOfRange) : StepShape s s.halt
  | instr {t : State} (w : Word) (i : Instr) (h : s.status = .running) (hf : s.fetch = .word w)
      (ha : s.pc.extractLsb' 0 2 = 0#2) (hd : decode s.config.branchSet w = .instr i)
      (he : exec i s = .next t) (hs : ExecShape i s t) : StepShape s t
  | noop (w : Word) (why : Unrecognised) (h : s.status = .running) (hf : s.fetch = .word w)
      (hd : decode s.config.branchSet w = .unrecognised why) : StepShape s s.unrecognised

/-- Every step answers a next state of one of the shapes. -/
theorem step_shape (s : State) : ∃ t, step s = .next t ∧ StepShape s t := by
  rcases hst : s.status with _ | _ | _
  · rcases fetch_cases s with ⟨ha, hf⟩ | ⟨_, _, hf⟩ | ⟨w, ha, _, hf⟩
    · exact ⟨_, step_misaligned hst hf, .fetchFault hst hf ha⟩
    · exact ⟨_, step_outOfRange hst hf, .beyond hst hf⟩
    · rcases hd : decode s.config.branchSet w with i | why
      · obtain ⟨t, he, hs⟩ := exec_shape i s
        exact ⟨t, by rw [step_word hst hf, hd]; exact he, .instr w i hst hf ha hd he hs⟩
      · exact ⟨_, by rw [step_word hst hf, hd]; rfl, .noop w why hst hf hd⟩
  · exact ⟨s, step_halted hst, .terminal (by rw [hst]; decide)⟩
  · exact ⟨s, step_faulted hst, .terminal (by rw [hst]; decide)⟩

/-- The same, from what a step answered. -/
theorem step_next {s t : State} (h : step s = .next t) : StepShape s t := by
  obtain ⟨u, hu, hs⟩ := step_shape s
  rw [hu] at h
  cases h
  exact hs

end Sys2Proof.Machine
end

