-- ==== Sys2Proof/Laws/Store.lean ====
section
/-! SUPPORT. What MemWrite and the commit of a store can do (spec 20_memory.md R46, R47; 44_execution_engine.md
R216), said once, and the bytes and values a load reads (R45). -/

namespace Sys2Proof.Machine

set_option Elab.async false

/-! ### Bytes of a stored value -/

/-- Two bytes of one access have different addresses (R49: at most four bytes, addresses mod 2^32). -/
theorem add_ofNat_ne (addr : Word) {i j : Nat} (hi : i < 2 ^ 32) (hj : j < 2 ^ 32) (h : i ≠ j) :
    addr + BitVec.ofNat 32 i ≠ addr + BitVec.ofNat 32 j := by
  intro he
  have h' := congrArg BitVec.toNat (add_left_cancel he)
  simp only [BitVec.toNat_ofNat, Nat.mod_eq_of_lt hi, Nat.mod_eq_of_lt hj] at h'
  exact h h'

/-- The stored bytes read back, where mapped (R46). -/
theorem readByte_writeBytes {s : State} (h : s.dmem.wf) (addr v : Word) (n : Nat) (hn : n ≤ 2 ^ 32)
    {i : Nat} (hi : i < n) :
    (s.writeBytes addr v n).readByte (addr + BitVec.ofNat 32 i) =
      if s.config.dataBase ≤ addr + BitVec.ofNat 32 i then byteOf v i else 0#8 := by
  induction n with
  | zero => omega
  | succ n ih =>
    have hs := writeBytes_spec s addr v n
    by_cases heq : i = n
    · subst heq
      rw [State.writeBytes, readByte_writeByte_same (hs.wf h), State.mapped, hs.config_eq]
      simp
    · rw [State.writeBytes, readByte_writeByte_ne _ (add_ofNat_ne addr (by omega) (by omega) heq)]
      exact ih (by omega) (by omega)

/-! ### Alignment -/

/-- A halfword address is aligned where its bit 0 is 0 (R48). -/
theorem half_aligned_iff (addr : Word) : Width.half.aligned addr = true ↔ addr.getLsbD 0 = false := by
  rw [Width.aligned, beq_iff_eq]
  constructor
  · intro h
    simpa using congrArg (fun v => v.getLsbD 0) h
  · intro h
    ext i hi
    obtain rfl : i = 0 := by omega
    simpa using h

/-- A word address is aligned where its bits [1:0] are 0 (R48). -/
theorem word_aligned_iff (addr : Word) :
    Width.word.aligned addr = true ↔ addr.extractLsb' 0 2 = 0#2 := by
  rw [Width.aligned, beq_iff_eq]

theorem low_bits_zero_iff (addr : Word) : addr.extractLsb' 0 2 = 0#2 ↔ addr.toNat % 4 = 0 := by
  rw [← BitVec.toNat_inj, BitVec.extractLsb'_toNat]; simp

/-- The four bytes of an aligned word do not wrap round the address space. -/
theorem toNat_add_of_word_aligned {addr : Word} (h : addr.extractLsb' 0 2 = 0#2) {i : Nat}
    (hi : i < 4) : (addr + BitVec.ofNat 32 i).toNat = addr.toNat + i := by
  rw [low_bits_zero_iff] at h
  have := addr.isLt
  simp [BitVec.toNat_add]; omega

/-! ### The commit of a store -/

theorem memWrite_mmio {s : State} {addr : Word} (h : addr = s.config.mmioTxAddr) (n : Nat) (v : Word) :
    s.memWrite addr n v = s.appendOut (byteOf v 0) := if_pos h

theorem memWrite_memory {s : State} {addr : Word} (h : addr ≠ s.config.mmioTxAddr) (n : Nat) (v : Word) :
    s.memWrite addr n v = s.writeBytes addr v n := if_neg h

/-- MemWrite changes data memory and the output stream only, and keeps the canonical form (R46). -/
theorem memWrite_fields (s : State) (addr : Word) (n : Nat) (v : Word) :
    (s.memWrite addr n v).x = s.x ∧ (s.memWrite addr n v).pc = s.pc ∧
      (s.memWrite addr n v).status = s.status ∧ (s.memWrite addr n v).fault = s.fault ∧
      (s.memWrite addr n v).imem = s.imem ∧ (s.memWrite addr n v).config = s.config ∧
      (s.dmem.wf → (s.memWrite addr n v).dmem.wf) ∧
      (s.dmemMapped → (s.memWrite addr n v).dmemMapped) := by
  by_cases h : addr = s.config.mmioTxAddr
  · rw [memWrite_mmio h]; exact ⟨rfl, rfl, rfl, rfl, rfl, rfl, id, id⟩
  · rw [memWrite_memory h]
    have hs := writeBytes_spec s addr v n
    obtain ⟨hx, hpc, hst, hf, _, him, hc⟩ := hs.fields
    exact ⟨hx, hpc, hst, hf, him, hc, hs.wf, hs.mapped⟩

/-- R216 for a store: the whole effect of its commit. -/
theorem commit_store_effect {s : State} (h : s.dmem.wf) (ea : Word) {n : Nat} (hn : n ≤ 4) (v : Word) :
    StoredEffect s (s.commit (some ⟨ea, n, v⟩) none s.pcPlus4) ea n v := by
  obtain ⟨hx, hpc, hst, hf, him, hc, hwf, _⟩ := memWrite_fields s ea n v
  have hd : (s.commit (some ⟨ea, n, v⟩) none s.pcPlus4).dmem = (s.memWrite ea n v).dmem := rfl
  have hcfg : (s.commit (some ⟨ea, n, v⟩) none s.pcPlus4).config = (s.memWrite ea n v).config := rfl
  have hread := readByte_congr hd hcfg
  refine ⟨fun r => ?_, by simp [State.commit], rfl, ⟨hst, hf, him, hc⟩, fun he => ?_, fun he => ?_,
    fun he i hi => ?_, fun a ha => ?_, fun a ha => ?_⟩
  · rw [State.commit, readReg_setPc, applyRegWrite_none, readReg_zeroX0]
    exact readReg_congr hx r
  · rw [hd, memWrite_mmio he]
    exact ⟨by simp [State.commit, State.applyStore, memWrite_mmio he]; rfl, rfl⟩
  · have := (writeBytes_spec s ea v n).fields.2.2.2.2.1
    simp [State.commit, State.applyStore, memWrite_memory he, this]
  · rw [hread, memWrite_memory he, readByte_writeBytes h ea v n (by omega) hi]
    rfl
  · rw [hread, hd]
    by_cases he : ea = s.config.mmioTxAddr
    · rw [memWrite_mmio he]; exact ⟨rfl, rfl⟩
    · rw [memWrite_memory he]
      have hs := writeBytes_spec s ea v n
      have hframe : (s.writeBytes ea v n).dmem.read a.toNat = s.dmem.read a.toNat := by
        refine hs.frame _ ?_
        rintro b ⟨i, hi, rfl⟩ hab
        exact ha i hi (BitVec.eq_of_toNat_eq hab)
      refine ⟨?_, hframe⟩
      rw [State.readByte, State.readByte, hframe, State.mapped, State.mapped, hs.config_eq]
  · rw [hd]
    by_cases he : ea = s.config.mmioTxAddr
    · rw [memWrite_mmio he]; rfl
    · rw [memWrite_memory he]; exact (writeBytes_spec s ea v n).unmapped a ha

/-! ### What a load reads -/

/-- The halfword read, as a number (R45, R47). -/
theorem memRead16_toNat (s : State) (addr : Word) : (s.memRead16 addr).toNat =
    (s.readByte (addr + 1#32)).toNat * 2 ^ 8 + (s.readByte addr).toNat := by
  have := (s.readByte addr).isLt
  rw [State.memRead16, BitVec.toNat_append, ← Nat.shiftLeft_add_eq_or_of_lt (by omega),
    Nat.shiftLeft_eq]

/-- The word read, as a number (R45, R47). -/
theorem memRead32_toNat (s : State) (addr : Word) : (s.memRead32 addr).toNat =
    (s.readByte (addr + 3#32)).toNat * 2 ^ 24 + (s.readByte (addr + 2#32)).toNat * 2 ^ 16
      + (s.readByte (addr + 1#32)).toNat * 2 ^ 8 + (s.readByte addr).toNat := by
  have h0 := (s.readByte addr).isLt
  have h1 := (s.readByte (addr + 1#32)).isLt
  have h2 := (s.readByte (addr + 2#32)).isLt
  rw [State.memRead32, BitVec.toNat_append, ← Nat.shiftLeft_add_eq_or_of_lt (by omega),
    BitVec.toNat_append, ← Nat.shiftLeft_add_eq_or_of_lt (by omega),
    BitVec.toNat_append, ← Nat.shiftLeft_add_eq_or_of_lt (by omega)]
  simp only [Nat.shiftLeft_eq]
  omega

/-- A load commits its value or faults, by the alignment of its address (R48, R251). -/
theorem loadWith_aligned {width : Width} {s : State} {rs1 : RegIdx} {imm : BitVec 12}
    (h : width.aligned (s.loadAddress rs1 imm) = true) (value : State → Word → Word) (rd : RegIdx) :
    loadWith width value rd rs1 imm s =
      .next (s.commitReg rd (value s (s.loadAddress rs1 imm))) := if_pos h

theorem loadWith_misaligned {width : Width} {s : State} {rs1 : RegIdx} {imm : BitVec 12}
    (h : width.aligned (s.loadAddress rs1 imm) ≠ true) (value : State → Word → Word) (rd : RegIdx) :
    loadWith width value rd rs1 imm s =
      .next (s.raiseFault .loadMisaligned (s.loadAddress rs1 imm)) := if_neg h

/-- A store commits its bytes or faults, by the alignment of its address (R48, R251). -/
theorem storeWith_aligned {width : Width} {s : State} {rs1 : RegIdx} {imm : BitVec 12}
    (h : width.aligned (s.storeAddress rs1 imm) = true) (rs2 : RegIdx) :
    storeWith width rs2 rs1 imm s =
      .next (s.commit (some ⟨s.storeAddress rs1 imm, width.bytes, s.readReg rs2⟩) none s.pcPlus4) :=
  if_pos h

theorem storeWith_misaligned {width : Width} {s : State} {rs1 : RegIdx} {imm : BitVec 12}
    (h : width.aligned (s.storeAddress rs1 imm) ≠ true) (rs2 : RegIdx) :
    storeWith width rs2 rs1 imm s =
      .next (s.raiseFault .storeMisaligned (s.storeAddress rs1 imm)) := if_neg h

end Sys2Proof.Machine
end

