-- ==== Sys2Proof/Tests/Slice0.lean ====
section
/-! SUPPORT. The model's own tests: decoding of words written out from the spec's encodings, one step per
instruction on small states (expected values from spec/95_test_vectors.md, or by hand from the rule
named), the smoke test of WellFormed, and a witness for the hypotheses of every statement. -/

namespace Sys2Proof.Tests

set_option Elab.async false

open Sys2Proof Sys2Proof.Machine

/-! ### Helpers -/

/-- The reset state with x1 = a, x2 = b and the given pc. -/
def regState (pc a b : Word) : State := ((State.reset.writeReg 1#5 a).writeReg 2#5 b).setPc pc

/-- The reset state with x1 = a, x2 = b and some bytes of data memory. -/
def memState (a b : Word) (m : Memory) : State := (regState 0#32 a b).setDmem m

/-- One step on the given instruction word. -/
def run1 (w : Word) (s : State) : State := (s.withFetchWord 32 w.toNat).afterStep

/-- The pc after an instruction that completes. -/
def nextPc (i : Instr) (s : State) : Option Word :=
  match exec i s with
  | .next t => some t.pc
  | .fault _ => none
  | .refused _ => none

/-- The reset state with an image and a pc. -/
def imageState (pc : Word) (image : List Word) : State :=
  (State.resetWith Config.default image).setPc pc

/-! ### WellFormed: an ill-formed term for each check -/

theorem test_wellFormed_refuses_odd_branch_offset :
    ([Instr.beq 1#5 2#5 9#13, .bne 1#5 2#5 9#13, .blt 1#5 2#5 9#13, .bge 1#5 2#5 9#13,
      .bltu 1#5 2#5 9#13, .bgeu 1#5 2#5 9#13].all fun i => !i.wellFormed) = true := by decide

theorem test_wellFormed_refuses_odd_jal_offset : (Instr.jal 1#5 3#21).wellFormed = false := by decide

theorem test_wellFormed_refuses_halt_sentinel_as_jal :
    (Instr.jal 0#5 0#21).wellFormed = false := by decide

theorem test_wellFormed_accepts_jal_to_itself_with_link :
    (Instr.jal 1#5 0#21).wellFormed = true := by decide

theorem test_eqNeOnly_refuses_order_branches :
    ([Mnemonic.blt, .bge, .bltu, .bgeu].all fun m => !m.availableIn .eqNeOnly) = true := by decide

/-! ### Decoding: one word per constructor, written out bit by bit from 30_encoding.md R61 to R76 -/

theorem test_decode_add :
    decode .full 0b00000000001000001000000110110011#32 = .instr (.add 3#5 1#5 2#5) := by decide

theorem test_decode_sub :
    decode .full 0b01000000001000001000000110110011#32 = .instr (.sub 3#5 1#5 2#5) := by decide

theorem test_decode_sll :
    decode .full 0b00000000001000001001000110110011#32 = .instr (.sll 3#5 1#5 2#5) := by decide

theorem test_decode_slt :
    decode .full 0b00000000001000001010000110110011#32 = .instr (.slt 3#5 1#5 2#5) := by decide

theorem test_decode_sltu :
    decode .full 0b00000000001000001011000110110011#32 = .instr (.sltu 3#5 1#5 2#5) := by decide

theorem test_decode_xor :
    decode .full 0b00000000001000001100000110110011#32 = .instr (.xor 3#5 1#5 2#5) := by decide

theorem test_decode_srl :
    decode .full 0b00000000001000001101000110110011#32 = .instr (.srl 3#5 1#5 2#5) := by decide

theorem test_decode_sra :
    decode .full 0b01000000001000001101000110110011#32 = .instr (.sra 3#5 1#5 2#5) := by decide

theorem test_decode_or :
    decode .full 0b00000000001000001110000110110011#32 = .instr (.or 3#5 1#5 2#5) := by decide

theorem test_decode_and :
    decode .full 0b00000000001000001111000110110011#32 = .instr (.and 3#5 1#5 2#5) := by decide

theorem test_decode_addi :
    decode .full 0b11111111101000001000000100010011#32 = .instr (.addi 2#5 1#5 0xFFA#12) := by decide

theorem test_decode_slti :
    decode .full 0b00000000000000001010000100010011#32 = .instr (.slti 2#5 1#5 0x0#12) := by decide

theorem test_decode_sltiu :
    decode .full 0b11111111111100001011000100010011#32 = .instr (.sltiu 2#5 1#5 0xFFF#12) := by decide

theorem test_decode_xori :
    decode .full 0b11111111111100001100000100010011#32 = .instr (.xori 2#5 1#5 0xFFF#12) := by decide

theorem test_decode_ori :
    decode .full 0b00001111111100001110000100010011#32 = .instr (.ori 2#5 1#5 0xFF#12) := by decide

theorem test_decode_andi :
    decode .full 0b11110000000000001111000100010011#32 = .instr (.andi 2#5 1#5 0xF00#12) := by decide

theorem test_decode_slli :
    decode .full 0b00000001111100001001000100010011#32 = .instr (.slli 2#5 1#5 31#5) := by decide

theorem test_decode_srli :
    decode .full 0b00000000001100001101000100010011#32 = .instr (.srli 2#5 1#5 3#5) := by decide

theorem test_decode_srai :
    decode .full 0b01000000001100001101000100010011#32 = .instr (.srai 2#5 1#5 3#5) := by decide

theorem test_decode_mul :
    decode .full 0b00000010001000001000000110110011#32 = .instr (.mul 3#5 1#5 2#5) := by decide

theorem test_decode_mulh :
    decode .full 0b00000010001000001001000110110011#32 = .instr (.mulh 3#5 1#5 2#5) := by decide

theorem test_decode_mulhsu :
    decode .full 0b00000010001000001010000110110011#32 = .instr (.mulhsu 3#5 1#5 2#5) := by decide

theorem test_decode_mulhu :
    decode .full 0b00000010001000001011000110110011#32 = .instr (.mulhu 3#5 1#5 2#5) := by decide

theorem test_decode_div :
    decode .full 0b00000010001000001100000110110011#32 = .instr (.div 3#5 1#5 2#5) := by decide

theorem test_decode_divu :
    decode .full 0b00000010001000001101000110110011#32 = .instr (.divu 3#5 1#5 2#5) := by decide

theorem test_decode_rem :
    decode .full 0b00000010001000001110000110110011#32 = .instr (.rem 3#5 1#5 2#5) := by decide

theorem test_decode_remu :
    decode .full 0b00000010001000001111000110110011#32 = .instr (.remu 3#5 1#5 2#5) := by decide

theorem test_decode_lui :
    decode .full 0b11111111111111111111000010110111#32 = .instr (.lui 1#5 0xFFFFF#20) := by decide

theorem test_decode_auipc :
    decode .full 0b00000000000000000001001100010111#32 = .instr (.auipc 6#5 1#20) := by decide

theorem test_decode_jal :
    decode .full 0b10000000000000000000000011101111#32 = .instr (.jal 1#5 0x100000#21) := by decide

theorem test_decode_jalr :
    decode .full 0b00000000001100010000000011100111#32 = .instr (.jalr 1#5 2#5 3#12) := by decide

theorem test_decode_beq :
    decode .full 0b00000000001000001000010001100011#32 = .instr (.beq 1#5 2#5 0x8#13) := by decide

theorem test_decode_bne :
    decode .full 0b11111110001000001001110011100011#32 = .instr (.bne 1#5 2#5 0x1FF8#13) := by decide

theorem test_decode_blt :
    decode .full 0b00000000001000001100000011100011#32 = .instr (.blt 1#5 2#5 0x800#13) := by decide

theorem test_decode_bge :
    decode .full 0b10000000001000001101000001100011#32 = .instr (.bge 1#5 2#5 0x1000#13) := by decide

theorem test_decode_bltu :
    decode .full 0b01111110001000001110111111100011#32 = .instr (.bltu 1#5 2#5 0xFFE#13) := by decide

theorem test_decode_bgeu :
    decode .full 0b00000010001000001111000001100011#32 = .instr (.bgeu 1#5 2#5 0x20#13) := by decide

theorem test_decode_lb :
    decode .full 0b10000000000000001000000100000011#32 = .instr (.lb 2#5 1#5 0x800#12) := by decide

theorem test_decode_lh :
    decode .full 0b10000000000000001001000100000011#32 = .instr (.lh 2#5 1#5 0x800#12) := by decide

theorem test_decode_lw :
    decode .full 0b10000000000000001010000100000011#32 = .instr (.lw 2#5 1#5 0x800#12) := by decide

theorem test_decode_lbu :
    decode .full 0b10000000000000001100000100000011#32 = .instr (.lbu 2#5 1#5 0x800#12) := by decide

theorem test_decode_lhu :
    decode .full 0b10000000000000001101000100000011#32 = .instr (.lhu 2#5 1#5 0x800#12) := by decide

theorem test_decode_sb :
    decode .full 0b11111110001000001000111000100011#32 = .instr (.sb 2#5 1#5 0xFFC#12) := by decide

theorem test_decode_sh :
    decode .full 0b11111110001000001001111000100011#32 = .instr (.sh 2#5 1#5 0xFFC#12) := by decide

theorem test_decode_sw :
    decode .full 0b11111110001000001010111000100011#32 = .instr (.sw 2#5 1#5 0xFFC#12) := by decide

theorem test_decode_halt :
    decode .full 0b00000000000000000000000001101111#32 = .instr .halt := by decide

/-- 0x0000C463 is BLT under FULL only, 0x402091B3 and 0x0200D113 are no instruction (95_test_vectors.md, 4, 7). -/
theorem test_decode_unrecognised :
    decode .eqNeOnly 0x0000C463#32 = .unrecognised .branchFunction ∧
    decode .full 0x402091B3#32 = .unrecognised .opFunction ∧
    decode .full 0x0200D113#32 = .unrecognised .opImmFunction ∧
    decode .full 0x00000073#32 = .unrecognised .majorOpcode ∧
    decode .full 0x00003003#32 = .unrecognised .loadFunction ∧
    decode .full 0x00003023#32 = .unrecognised .storeFunction ∧
    decode .full 0x00001067#32 = .unrecognised .jalrFunction := by decide

/-- The five immediates of one word (95_test_vectors.md, 7). -/
theorem test_immediates :
    immIOf 0xFE209CE3#32 = 0xFFFFFFE2#32 ∧ immSOf 0xFE209CE3#32 = 0xFFFFFFF9#32 ∧
    immBOf 0xFE209CE3#32 = 0xFFFFFFF8#32 ∧ immUOf 0xFE209CE3#32 = 0xFE209000#32 ∧
    immJOf 0xFE209CE3#32 = 0xFFF097E2#32 := by decide

theorem test_encode : encode (.jal 1#5 0x0FFFFE#21) = 0x7FFFF0EF#32 ∧
    encode (.sw 1#5 0#5 0x800#12) = 0x80102023#32 ∧
    encode (.beq 0#5 0#5 0x0FFE#13) = 0x7E000FE3#32 := by decide

/-- HALT comes before JAL at the table's word of JAL (R76). -/
theorem test_decodeTableWord : decodeTableWord 32 0x6F = some .halt ∧
    decodeTableWord 32 0x4063 = some (.blt 0#5 0#5 0#13) ∧
    decodeTableWord 32 0xFFFFFFFF = none := by decide

/-! ### One step per instruction (95_test_vectors.md, 3 to 5 and 8, or by hand from the rule) -/

theorem test_add :
    (run1 0x002081B3#32 (regState 0x10#32 0x7FFFFFFF#32 0x00000001#32)).readReg 3#5 = 0x80000000#32 ∧
      (run1 0x002081B3#32 (regState 0x10#32 0x7FFFFFFF#32 0x00000001#32)).pc = 0x14#32 := by decide +kernel

theorem test_sub :
    (run1 0x402081B3#32 (regState 0x10#32 0x00000000#32 0x00000001#32)).readReg 3#5 = 0xFFFFFFFF#32 ∧
      (run1 0x402081B3#32 (regState 0x10#32 0x00000000#32 0x00000001#32)).pc = 0x14#32 := by decide +kernel

theorem test_sll :
    (run1 0x002091B3#32 (regState 0x10#32 0x00000001#32 0x00000021#32)).readReg 3#5 = 0x00000002#32 ∧
      (run1 0x002091B3#32 (regState 0x10#32 0x00000001#32 0x00000021#32)).pc = 0x14#32 := by decide +kernel

theorem test_slt :
    (run1 0x0020A1B3#32 (regState 0x10#32 0x80000000#32 0x7FFFFFFF#32)).readReg 3#5 = 0x00000001#32 ∧
      (run1 0x0020A1B3#32 (regState 0x10#32 0x80000000#32 0x7FFFFFFF#32)).pc = 0x14#32 := by decide +kernel

theorem test_sltu :
    (run1 0x0020B1B3#32 (regState 0x10#32 0x80000000#32 0x7FFFFFFF#32)).readReg 3#5 = 0x00000000#32 ∧
      (run1 0x0020B1B3#32 (regState 0x10#32 0x80000000#32 0x7FFFFFFF#32)).pc = 0x14#32 := by decide +kernel

theorem test_xor :
    (run1 0x0020C1B3#32 (regState 0x10#32 0xF0F0F0F0#32 0x0FF00FF0#32)).readReg 3#5 = 0xFF00FF00#32 ∧
      (run1 0x0020C1B3#32 (regState 0x10#32 0xF0F0F0F0#32 0x0FF00FF0#32)).pc = 0x14#32 := by decide +kernel

theorem test_srl :
    (run1 0x0020D1B3#32 (regState 0x10#32 0x80000000#32 0x0000001F#32)).readReg 3#5 = 0x00000001#32 ∧
      (run1 0x0020D1B3#32 (regState 0x10#32 0x80000000#32 0x0000001F#32)).pc = 0x14#32 := by decide +kernel

theorem test_sra :
    (run1 0x4020D1B3#32 (regState 0x10#32 0x80000000#32 0x00000004#32)).readReg 3#5 = 0xF8000000#32 ∧
      (run1 0x4020D1B3#32 (regState 0x10#32 0x80000000#32 0x00000004#32)).pc = 0x14#32 := by decide +kernel

theorem test_or :
    (run1 0x0020E1B3#32 (regState 0x10#32 0xF0F0F0F0#32 0x0FF00FF0#32)).readReg 3#5 = 0xFFF0FFF0#32 ∧
      (run1 0x0020E1B3#32 (regState 0x10#32 0xF0F0F0F0#32 0x0FF00FF0#32)).pc = 0x14#32 := by decide +kernel

theorem test_and :
    (run1 0x0020F1B3#32 (regState 0x10#32 0xF0F0F0F0#32 0x0FF00FF0#32)).readReg 3#5 = 0x00F000F0#32 ∧
      (run1 0x0020F1B3#32 (regState 0x10#32 0xF0F0F0F0#32 0x0FF00FF0#32)).pc = 0x14#32 := by decide +kernel

theorem test_mul :
    (run1 0x022081B3#32 (regState 0x10#32 0x00000003#32 0x00000007#32)).readReg 3#5 = 0x00000015#32 ∧
      (run1 0x022081B3#32 (regState 0x10#32 0x00000003#32 0x00000007#32)).pc = 0x14#32 := by decide +kernel

theorem test_mulh :
    (run1 0x022091B3#32 (regState 0x10#32 0x80000000#32 0x80000000#32)).readReg 3#5 = 0x40000000#32 ∧
      (run1 0x022091B3#32 (regState 0x10#32 0x80000000#32 0x80000000#32)).pc = 0x14#32 := by decide +kernel

theorem test_mulhsu :
    (run1 0x0220A1B3#32 (regState 0x10#32 0x80000000#32 0x80000000#32)).readReg 3#5 = 0xC0000000#32 ∧
      (run1 0x0220A1B3#32 (regState 0x10#32 0x80000000#32 0x80000000#32)).pc = 0x14#32 := by decide +kernel

theorem test_mulhu :
    (run1 0x0220B1B3#32 (regState 0x10#32 0xFFFFFFFF#32 0xFFFFFFFF#32)).readReg 3#5 = 0xFFFFFFFE#32 ∧
      (run1 0x0220B1B3#32 (regState 0x10#32 0xFFFFFFFF#32 0xFFFFFFFF#32)).pc = 0x14#32 := by decide +kernel

theorem test_div :
    (run1 0x0220C1B3#32 (regState 0x10#32 0xFFFFFFF6#32 0x00000003#32)).readReg 3#5 = 0xFFFFFFFD#32 ∧
      (run1 0x0220C1B3#32 (regState 0x10#32 0xFFFFFFF6#32 0x00000003#32)).pc = 0x14#32 := by decide +kernel

theorem test_divu :
    (run1 0x0220D1B3#32 (regState 0x10#32 0xFFFFFFF6#32 0x00000003#32)).readReg 3#5 = 0x55555552#32 ∧
      (run1 0x0220D1B3#32 (regState 0x10#32 0xFFFFFFF6#32 0x00000003#32)).pc = 0x14#32 := by decide +kernel

theorem test_rem :
    (run1 0x0220E1B3#32 (regState 0x10#32 0xFFFFFFF6#32 0x00000003#32)).readReg 3#5 = 0xFFFFFFFF#32 ∧
      (run1 0x0220E1B3#32 (regState 0x10#32 0xFFFFFFF6#32 0x00000003#32)).pc = 0x14#32 := by decide +kernel

theorem test_remu :
    (run1 0x0220F1B3#32 (regState 0x10#32 0x00000005#32 0x00000000#32)).readReg 3#5 = 0x00000005#32 ∧
      (run1 0x0220F1B3#32 (regState 0x10#32 0x00000005#32 0x00000000#32)).pc = 0x14#32 := by decide +kernel

theorem test_addi :
    (run1 0xFFA08113#32 (regState 0x10#32 0x00000005#32 0#32)).readReg 2#5 = 0xFFFFFFFF#32 ∧
      (run1 0xFFA08113#32 (regState 0x10#32 0x00000005#32 0#32)).pc = 0x14#32 := by decide +kernel

theorem test_slti :
    (run1 0x0000A113#32 (regState 0x10#32 0xFFFFFFFF#32 0#32)).readReg 2#5 = 0x00000001#32 ∧
      (run1 0x0000A113#32 (regState 0x10#32 0xFFFFFFFF#32 0#32)).pc = 0x14#32 := by decide +kernel

theorem test_sltiu :
    (run1 0xFFF0B113#32 (regState 0x10#32 0x00000005#32 0#32)).readReg 2#5 = 0x00000001#32 ∧
      (run1 0xFFF0B113#32 (regState 0x10#32 0x00000005#32 0#32)).pc = 0x14#32 := by decide +kernel

theorem test_xori :
    (run1 0xFFF0C113#32 (regState 0x10#32 0x0000FF00#32 0#32)).readReg 2#5 = 0xFFFF00FF#32 ∧
      (run1 0xFFF0C113#32 (regState 0x10#32 0x0000FF00#32 0#32)).pc = 0x14#32 := by decide +kernel

theorem test_ori :
    (run1 0x0FF0E113#32 (regState 0x10#32 0xF0F0F0F0#32 0#32)).readReg 2#5 = 0xF0F0F0FF#32 ∧
      (run1 0x0FF0E113#32 (regState 0x10#32 0xF0F0F0F0#32 0#32)).pc = 0x14#32 := by decide +kernel

theorem test_andi :
    (run1 0xF000F113#32 (regState 0x10#32 0xF0F0F0F0#32 0#32)).readReg 2#5 = 0xF0F0F000#32 ∧
      (run1 0xF000F113#32 (regState 0x10#32 0xF0F0F0F0#32 0#32)).pc = 0x14#32 := by decide +kernel

theorem test_slli :
    (run1 0x01F09113#32 (regState 0x10#32 0x00000001#32 0#32)).readReg 2#5 = 0x80000000#32 ∧
      (run1 0x01F09113#32 (regState 0x10#32 0x00000001#32 0#32)).pc = 0x14#32 := by decide +kernel

theorem test_srli :
    (run1 0x0030D113#32 (regState 0x10#32 0x80000000#32 0#32)).readReg 2#5 = 0x10000000#32 ∧
      (run1 0x0030D113#32 (regState 0x10#32 0x80000000#32 0#32)).pc = 0x14#32 := by decide +kernel

theorem test_srai :
    (run1 0x4030D113#32 (regState 0x10#32 0x80000000#32 0#32)).readReg 2#5 = 0xF0000000#32 ∧
      (run1 0x4030D113#32 (regState 0x10#32 0x80000000#32 0#32)).pc = 0x14#32 := by decide +kernel

/-- ADD x1, x1, x1 (R218). -/
theorem test_sources_read_before_write :
    (run1 0x001080B3#32 (regState 0#32 2#32 3#32)).readReg 1#5 = 4#32 := by decide +kernel

/-- ADDI x0, x0, 5 (R21, S10). -/
theorem test_x0_stays_zero :
    (run1 0x00500013#32 (regState 0#32 2#32 3#32)).x[0] = 0#32 ∧
      (run1 0x00500013#32 (regState 0#32 2#32 3#32)).readReg 0#5 = 0#32 := by decide +kernel

theorem test_div_corners :
    (run1 0x0220C1B3#32 (regState 0#32 0x80000000#32 0xFFFFFFFF#32)).readReg 3#5 = 0x80000000#32 ∧
      (run1 0x0220C1B3#32 (regState 0#32 5#32 0#32)).readReg 3#5 = 0xFFFFFFFF#32 := by decide +kernel

theorem test_lui :
    (run1 0xFFFFF0B7#32 (regState 0#32 7#32 0#32)).readReg 1#5 = 0xFFFFF000#32 := by decide +kernel

theorem test_auipc :
    (run1 0x00001317#32 (regState 0x10#32 0#32 0#32)).readReg 6#5 = 0x00001010#32 ∧
      (run1 0xFFFFF317#32 (regState 8#32 0#32 0#32)).readReg 6#5 = 0xFFFFF008#32 := by decide +kernel

theorem test_jal :
    (run1 0x008000EF#32 (regState 4#32 0#32 0#32)).readReg 1#5 = 8#32 ∧
      (run1 0x008000EF#32 (regState 4#32 0#32 0#32)).pc = 0x0C#32 := by decide +kernel

theorem test_jalr :
    (run1 0x003100E7#32 (regState 0#32 0#32 0x11#32)).readReg 1#5 = 4#32 ∧
      (run1 0x003100E7#32 (regState 0#32 0#32 0x11#32)).pc = 0x14#32 := by decide +kernel

/-- JALR x1, 1(x1): the target uses the old x1 (R234). -/
theorem test_jalr_same_register :
    (run1 0x001080E7#32 (regState 0#32 6#32 0#32)).readReg 1#5 = 4#32 ∧
      (run1 0x001080E7#32 (regState 0#32 6#32 0#32)).pc = 6#32 := by decide +kernel

theorem test_beq :
    (run1 0x00208463#32 (regState 8#32 5#32 5#32)).pc = 0x10#32 ∧
      (run1 0x00208463#32 (regState 8#32 5#32 4#32)).pc = 0x0C#32 := by decide +kernel

theorem test_bne :
    (run1 0xFE209CE3#32 (regState 0x0C#32 1#32 0#32)).pc = 4#32 ∧
      (run1 0xFE209CE3#32 (regState 0x0C#32 0#32 0#32)).pc = 0x10#32 := by decide +kernel

theorem test_blt :
    (run1 0x0020C463#32 (regState 0#32 0xFFFFFFFF#32 0#32)).pc = 8#32 ∧
      (run1 0x0020C463#32 (regState 0#32 0#32 0xFFFFFFFF#32)).pc = 4#32 ∧
      (run1 0x0020C463#32 (regState 0#32 7#32 7#32)).pc = 4#32 := by decide +kernel

theorem test_bge :
    (run1 0x0020D463#32 (regState 0#32 0xFFFFFFFF#32 0#32)).pc = 4#32 ∧
      (run1 0x0020D463#32 (regState 0#32 0#32 0xFFFFFFFF#32)).pc = 8#32 ∧
      (run1 0x0020D463#32 (regState 0#32 7#32 7#32)).pc = 8#32 := by decide +kernel

theorem test_bltu :
    (run1 0x0020E463#32 (regState 0#32 0xFFFFFFFF#32 0#32)).pc = 4#32 ∧
      (run1 0x0020E463#32 (regState 0#32 0#32 0xFFFFFFFF#32)).pc = 8#32 ∧
      (run1 0x0020E463#32 (regState 0#32 7#32 7#32)).pc = 4#32 := by decide +kernel

theorem test_bgeu :
    (run1 0x0020F463#32 (regState 0#32 0xFFFFFFFF#32 0#32)).pc = 8#32 ∧
      (run1 0x0020F463#32 (regState 0#32 0#32 0xFFFFFFFF#32)).pc = 4#32 ∧
      (run1 0x0020F463#32 (regState 0#32 7#32 7#32)).pc = 8#32 := by decide +kernel

/-- P7: the BLT word under EQ_NE_ONLY. -/
theorem test_blt_is_no_op_under_eqNeOnly :
    ((imageState 0#32 [0x0000C463#32]).setX ((regState 0#32 0xFFFFFFFF#32 0#32).x)).afterStep.pc = 4#32 := by decide +kernel

theorem test_lh :
    (run1 0x00009103#32 (memState 0x1000#32 0#32 [(0x1000, 0x34#8), (0x1001, 0x92#8), (0x1003, 0x80#8)])).readReg 2#5 = 0xFFFF9234#32 := by decide +kernel

theorem test_lhu :
    (run1 0x0000D103#32 (memState 0x1000#32 0#32 [(0x1000, 0x34#8), (0x1001, 0x92#8), (0x1003, 0x80#8)])).readReg 2#5 = 0x00009234#32 := by decide +kernel

theorem test_lw :
    (run1 0x0000A103#32 (memState 0x1000#32 0#32 [(0x1000, 0x34#8), (0x1001, 0x92#8), (0x1003, 0x80#8)])).readReg 2#5 = 0x80009234#32 := by decide +kernel

theorem test_lb :
    (run1 0x00008103#32 (memState 0x1000#32 0#32 [(0x1000, 0x80#8)])).readReg 2#5 = 0xFFFFFF80#32 := by decide +kernel

theorem test_lbu :
    (run1 0x0000C103#32 (memState 0x1000#32 0#32 [(0x1000, 0x80#8)])).readReg 2#5 = 0x00000080#32 := by decide +kernel

theorem test_lw_unmapped_reads_zero :
    (run1 0x0000A103#32 (memState 0x0FFC#32 9#32 [(0x1000, 0x80#8)])).readReg 2#5 = 0#32 := by decide +kernel

theorem test_lw_misaligned_into_x0 :
    (run1 0x0000A003#32 (memState 0x1002#32 0#32 [])).status = .faulted ∧
      (run1 0x0000A003#32 (memState 0x1002#32 0#32 [])).fault = some ⟨.loadMisaligned, 0x1002#32, 0#32⟩ := by decide +kernel

theorem test_sb :
    (run1 0x00208023#32 (memState 0x1001#32 0xAABBCCDD#32 [(0x1000, 1#8)])).dmem =
      [(0x1000, 1#8), (0x1001, 0xDD#8)] := by decide +kernel

theorem test_sh :
    (run1 0x00209023#32 (memState 0x1000#32 0xAABBCCDD#32 [])).dmem =
      [(0x1000, 0xDD#8), (0x1001, 0xCC#8)] := by decide +kernel

/-- A zero byte stored leaves no entry: the canonical form (R42, R46). -/
theorem test_sw :
    (run1 0x0020A023#32 (memState 0x1000#32 0xAA00CCDD#32 [(0x1002, 7#8)])).dmem =
      [(0x1000, 0xDD#8), (0x1001, 0xCC#8), (0x1003, 0xAA#8)] := by decide +kernel

theorem test_sw_unmapped_is_discarded :
    (run1 0x0020A023#32 (memState 0x0FFC#32 0x12345678#32 [])).dmem = [] ∧
      (run1 0x0020A023#32 (memState 0x0FFC#32 0x12345678#32 [])).out = [] := by decide +kernel

theorem test_sh_mmio_emits :
    (run1 0x00209023#32 (memState 0x0800#32 0x141#32 [])).out = [0x41#8] ∧
      (run1 0x00209023#32 (memState 0x0800#32 0x141#32 [])).dmem = [] := by decide +kernel

/-- P11: the alignment check comes before MMIO and mapping (R48). -/
theorem test_sh_misaligned :
    (run1 0x7E101FA3#32 (memState 0x1000#32 0#32 [])).fault = some ⟨.storeMisaligned, 0x7FF#32, 0#32⟩ ∧
      (run1 0x7E101FA3#32 (memState 0x1000#32 0#32 [])).pc = 0#32 := by decide +kernel

theorem test_halt :
    (run1 0x0000006F#32 (regState 8#32 1#32 2#32)).status = .halted ∧
      (run1 0x0000006F#32 (regState 8#32 1#32 2#32)).pc = 8#32 := by decide +kernel

theorem test_unrecognised_is_no_op :
    (run1 0x00000073#32 (regState 8#32 1#32 2#32)).pc = 0x0C#32 ∧
      (run1 0x00000073#32 (regState 8#32 1#32 2#32)).status = .running := by decide +kernel

/-- R211 comes before R212. -/
theorem test_fetch_misaligned :
    (imageState 6#32 []).afterStep.fault = some ⟨.fetchMisaligned, 6#32, 6#32⟩ := by decide +kernel

/-- P6, P10. -/
theorem test_pc_beyond_image_halts :
    (imageState 4#32 [0x13#32]).afterStep.status = .halted ∧ (imageState 4#32 [0x13#32]).afterStep.pc = 4#32 := by decide +kernel

/-- P8 and P9, with a small budget. -/
theorem test_budget :
    (hostRun Config.default [0x000000EF#32] 3).hostStatus = .budgetExhausted ∧
      (hostRun Config.default [0x000000EF#32] 3).steps = 3 ∧
      (hostRun Config.default [0x0000006F#32] 3).steps = 1 := by decide +kernel

/-! ### The units (95_test_vectors.md, 2, 3, 5, 6) -/

theorem test_ripple_adder :
    rippleAdd 4 0b1010#4 0b0111#4 true = (0b0010#4, true) ∧
      rippleAdd 32 0x7FFFFFFF#32 1#32 false = (0x80000000#32, false) := by decide +kernel

theorem test_negate64 :
    negate 0x15#64 = 0xFFFFFFFFFFFFFFEB#64 := by decide +kernel

theorem test_alu_flags :
    (alu .sub 0x7FFFFFFF#32 0xFFFFFFFF#32).flags = ⟨true, false, false, true⟩ ∧
      (alu .add 0x80000000#32 0x80000000#32).flags = ⟨false, true, true, true⟩ ∧
      (alu .or 0xF0F0F0F0#32 0x0FF00FF0#32).flags = ⟨true, false, false, false⟩ := by decide +kernel

theorem test_mdu_flags :
    mdu .mulhsu 0xFFFFFFFF#32 1#32 = ⟨0xFFFFFFFF#32, ⟨false, false⟩⟩ ∧
      mdu .mulhu 0xFFFFFFFF#32 1#32 = ⟨0#32, ⟨true, false⟩⟩ ∧
      mdu .rem 0x80000000#32 0#32 = ⟨0x80000000#32, ⟨false, true⟩⟩ := by decide +kernel

theorem test_f32_add :
    f32Add Config.default 0x3F800001#32 0x33800000#32 =
      ⟨0x3F800002#32, ⟨true, false, false, false⟩⟩ ∧
    f32Add Config.default 0x00400000#32 0x00400000#32 = ⟨0x00800000#32, FpuFlags.none⟩ := by decide +kernel

theorem test_f32_sub :
    f32Sub Config.default 0x00800000#32 0x00000001#32 = ⟨0x007FFFFF#32, FpuFlags.none⟩ ∧
    f32Sub Config.default 0#32 0#32 = ⟨0x80000000#32, FpuFlags.none⟩ := by decide +kernel

theorem test_f32_mul :
    f32Mul Config.default 0x3F7FFFFF#32 0x00800000#32 =
      ⟨0x00800000#32, ⟨true, false, true, false⟩⟩ ∧
    f32Mul Config.default 0x00000001#32 0x3F000000#32 = ⟨0#32, ⟨true, false, true, false⟩⟩ := by decide +kernel

theorem test_f32_div_modes :
    f32Div Config.default 0x3F800000#32 0x40400000#32 =
      ⟨0x3EAAAAAB#32, ⟨true, false, false, false⟩⟩ ∧
    f32Div { Config.default with fdivMode := .literal } 0x3F800000#32 0x40400000#32 =
      ⟨0x3EAAAAAA#32, FpuFlags.none⟩ := by decide +kernel

theorem test_subnormal_reround :
    (f32Mul Config.default 0x00A265B1#32 0x3EA04F89#32).r = 0x0032D901#32 ∧
    (f32Mul { Config.default with subnormalReround := .fromRounded } 0x00A265B1#32 0x3EA04F89#32).r =
      0x0032D902#32 := by decide +kernel

theorem test_round_pack :
    roundPack .fromUnrounded false 0x1FFFFFF 103 =
      ⟨0x7F800000#32, ⟨true, true, false, false⟩⟩ ∧
    roundPack .fromUnrounded false 3 (-150) = ⟨2#32, ⟨true, false, true, false⟩⟩ ∧
    roundPack .fromUnrounded true 1 0 = ⟨0xBF800000#32, FpuFlags.none⟩ := by decide +kernel

theorem test_add_datapath :
    addDatapath .fromUnrounded ⟨false, 0, 0x800000⟩ ⟨false, -24, 0x800001⟩ =
      ⟨0x3F800001#32, ⟨true, false, false, false⟩⟩ := by decide +kernel

theorem test_api_rejects_immediate_forms :
    apiCall Config.default "ADDI" 1#32 2#32 = .invalidOperation ∧
    apiCall Config.default "f32_add" 0x3F800000#32 0x3F800000#32 =
      .result 0x40000000#32 (.fpu FpuFlags.none) := by decide +kernel

theorem test_li_expansion :
    pseudoLi 5#5 0x800#32 = [.lui 5#5 1#20, .addi 5#5 5#5 0x800#12] ∧
      pseudoLi 5#5 0xFFFFF800#32 = [.addi 5#5 0#5 0x800#12] := by decide +kernel

/-- The pseudo-branches of R79 compare as their names say (log 12): x1 = 1 and x2 = -1. -/
theorem test_pseudo_branches :
    (∀ p ∈ [(pseudoBgt 1#5 2#5 8#13, true), (pseudoBgt 2#5 1#5 8#13, false),
        (pseudoBle 2#5 1#5 8#13, true), (pseudoBle 1#5 2#5 8#13, false),
        (pseudoBgtu 2#5 1#5 8#13, true), (pseudoBgtu 1#5 2#5 8#13, false),
        (pseudoBleu 1#5 2#5 8#13, true), (pseudoBleu 2#5 1#5 8#13, false),
        (pseudoBltz 2#5 8#13, true), (pseudoBltz 1#5 8#13, false),
        (pseudoBgez 1#5 8#13, true), (pseudoBgez 2#5 8#13, false),
        (pseudoBgtz 1#5 8#13, true), (pseudoBgtz 2#5 8#13, false),
        (pseudoBlez 2#5 8#13, true), (pseudoBlez 1#5 8#13, false)],
      p.1.map (nextPc · (regState 0#32 1#32 0xFFFFFFFF#32)) =
        [some (if p.2 then 8#32 else 4#32)]) := by decide +kernel

theorem test_assembler_text :
    asm (.sw 1#5 2#5 0xFFC#12) = "SW x1, -4(x2)" ∧ asm .halt = "JAL x0, 0" ∧ abiName 2#5 = "sp" := by decide +kernel

/-! ### Witnesses: a state and operands that meet the hypotheses of each statement together -/

theorem witness_DecodeOfEncodeGivesInstruction :
    (Instr.blt 1#5 2#5 0x1000#13).wellFormed = true ∧
    (Instr.blt 1#5 2#5 0x1000#13).mnemonic.availableIn .full = true ∧
    (Instr.jal 1#5 0#21).wellFormed = true ∧
    (Instr.jal 1#5 0#21).mnemonic.availableIn .eqNeOnly = true := by decide

theorem witness_EncodeOfDecodeGivesWord :
    decode .full 0x0000C463#32 = .instr (.blt 1#5 0#5 8#13) ∧
    decode .eqNeOnly 0x0000006F#32 = .instr .halt := by decide

theorem witness_DecoderFollowsOpcodeTablePriority :
    haltRow ∉ opcodeRows ∧ ⟨.add, 0x00000033#32, 0xFE00707F#32⟩ ∈ opcodeRows ∧
    OpcodeRow.matchesWord ⟨.add, 0x00000033#32, 0xFE00707F#32⟩ 0x002081B3#32 = true := by decide

theorem witness_OnlyNineMajorOpcodesAreRecognised :
    (0x00000000#32).extractLsb' 0 2 ≠ 0b11#2 ∧ (0xFFFFFFFE#32).extractLsb' 0 2 ≠ 0b11#2 ∧
    (0xFFFFFFFF#32).extractLsb' 0 7 ∉ [0x37#7, 0x17#7, 0x6F#7, 0x67#7, 0x63#7, 0x03#7, 0x23#7,
      0x13#7, 0x33#7] := by decide

theorem witness_ImmediateShiftsWriteShiftedValue :
    (0b0000001#7 : BitVec 7) ≠ 0b0000000#7 ∧ (0b0000001#7 : BitVec 7) ≠ 0b0100000#7 ∧
    (0b0100000#7 : BitVec 7) ≠ 0b0000000#7 := by decide

theorem witness_ImmediateShiftsWriteShiftedValue_noop :
    (imageState 0#32 [0x0200D113#32]).status = .running ∧
    (imageState 0#32 [0x0200D113#32]).fetch =
      .word (0b0000001#7 ++ 0b00000#5 ++ 0b00001#5 ++ 0b101#3 ++ 0b00010#5 ++ 0b0010011#7) := by
  decide +kernel

theorem witness_JalLinksAndJumps :
    (0x100000#21).getLsbD 0 = false ∧ ¬ ((0#5 : RegIdx) = 0#5 ∧ (0x100000#21) = 0#21) ∧
    (0#21).getLsbD 0 = false ∧ ¬ ((1#5 : RegIdx) = 0#5 ∧ (0#21) = 0#21) ∧
    State.reset.status = .running ∧
    (State.reset.pc + BitVec.ofInt 32 (2#21).toInt).extractLsb' 0 2 ≠ 0#2 := by decide

theorem witness_JalrLinksAndJumps :
    (0b001#3 : BitVec 3) ≠ 0b000#3 ∧ (regState 0#32 6#32 0#32).status = .running ∧
    ∃ t, exec (.jalr 5#5 1#5 1#12) (regState 0#32 6#32 0#32) = .next t ∧ t.pc.getLsbD 1 = true :=
  ⟨by decide, rfl, _, rfl, by decide +kernel⟩

theorem witness_EqualityBranchesRedirectPc :
    (0x1000#13).getLsbD 0 = false ∧ (0x0FFE#13).getLsbD 0 = false := by decide

theorem witness_OrderBranchesRedirectPcUnderFull :
    (0x1000#13).getLsbD 0 = false ∧ (0x0FFE#13).getLsbD 0 = false := by decide

theorem witness_OrderBranchesRedirectPcUnderFull_noop :
    (imageState 0#32 [0x0000C463#32]).status = .running ∧
    (imageState 0#32 [0x0000C463#32]).config.branchSet = .eqNeOnly ∧
    (imageState 0#32 [0x0000C463#32]).fetch =
      .word ((8#13).extractLsb' 12 1 ++ (8#13).extractLsb' 5 6 ++ 0#5 ++ 1#5 ++ 0b100#3
        ++ (8#13).extractLsb' 1 4 ++ (8#13).extractLsb' 11 1 ++ 0b1100011#7) := by decide +kernel

theorem witness_OnlyHaltSentinelHalts :
    (imageState 4#32 [0x13#32, 0x6F#32]).status = .running ∧
    (imageState 4#32 [0x13#32, 0x6F#32]).pc.extractLsb' 0 2 = 0#2 ∧
    (imageState 4#32 [0x13#32, 0x6F#32]).imem[(imageState 4#32 [0x13#32, 0x6F#32]).pc.toNat / 4]? =
      some 0x6F#32 := by decide +kernel

/-- The addresses of the clauses: 0x1000 aligned for both widths, 0x1002 for a halfword only, 0x1001 and
0xFFFFFFFF for neither. -/
theorem witness_LoadsWriteExtendedBytesOrFault :
    (0x1002#32 : Word) = (regState 0#32 0x1000#32 0#32).readReg 1#5 + BitVec.ofInt 32 (2#12).toInt ∧
    (0x1000#32).getLsbD 0 = false ∧ (0x1000#32).extractLsb' 0 2 = 0#2 ∧
    (0x1002#32).getLsbD 0 = false ∧ (0x1002#32).extractLsb' 0 2 ≠ 0#2 ∧
    (0x1001#32).getLsbD 0 = true ∧ (0x1001#32).extractLsb' 0 2 ≠ 0#2 ∧
    (0xFFFFFFFF#32).getLsbD 0 = true ∧ (0xFFFFFFFF#32).extractLsb' 0 2 ≠ 0#2 := by decide +kernel

theorem witness_LoadsWriteExtendedBytesOrFault_bases :
    (0x0FFC#32 : Word) < Config.default.dataBase ∧ Config.default.dataBase.extractLsb' 0 2 = 0#2 ∧
    (0x1000#32).extractLsb' 0 2 = 0#2 ∧ Config.default.dataBase ≤ 0x1000#32 := by decide

theorem witness_StoresWriteBytesOrEmitOrFault :
    (memState 0x0800#32 7#32 [(0x1000, 1#8)]).dmem.wf = true ∧
    (memState 0x0800#32 7#32 [(0x1000, 1#8)]).storeAddress 1#5 0#12 = 0x0800#32 ∧
    (0x0800#32).extractLsb' 0 2 = 0#2 ∧ (0x0800#32).getLsbD 0 = false ∧
    (memState 0x0800#32 7#32 [(0x1000, 1#8)]).storeAddress 1#5 1#12 = 0x0801#32 ∧
    (0x0801#32).extractLsb' 0 2 ≠ 0#2 ∧ (0x0801#32).getLsbD 0 = true := by decide +kernel

/-- The store and the three loads of the clauses: bytes 0 to 3, halfwords 0 and 2, word 0. -/
theorem witness_LoadsSeeLatestStoreLittleEndian :
    (memState 0x1000#32 7#32 []).dmem.wf = true ∧ (memState 0x1000#32 7#32 []).config.valid = true ∧
    (memState 0x1000#32 7#32 []).config.dataBase ≤ (memState 0x1000#32 7#32 []).storeAddress 1#5 0#12 ∧
    ((memState 0x1000#32 7#32 []).storeAddress 1#5 0#12).extractLsb' 0 2 = 0#2 ∧
    (∃ t, exec (.sw 2#5 1#5 0#12) (memState 0x1000#32 7#32 []) = .next t ∧
      t.loadAddress 1#5 0#12 = (memState 0x1000#32 7#32 []).storeAddress 1#5 0#12 + BitVec.ofNat 32 0 ∧
      t.loadAddress 1#5 2#12 = (memState 0x1000#32 7#32 []).storeAddress 1#5 0#12 + BitVec.ofNat 32 2 ∧
      t.loadAddress 1#5 3#12 = (memState 0x1000#32 7#32 []).storeAddress 1#5 0#12 + BitVec.ofNat 32 3) ∧
    (3#5 : RegIdx) ≠ 0#5 :=
  ⟨by decide, by decide, by decide +kernel, by decide +kernel,
    ⟨_, rfl, by decide +kernel, by decide +kernel, by decide +kernel⟩, by decide⟩

theorem witness_UnmappedAccessesReadZeroAndDiscard :
    (memState 0x0FFC#32 7#32 []).config.valid = true ∧
    (memState 0x0FFC#32 7#32 []).storeAddress 1#5 0#12 < (memState 0x0FFC#32 7#32 []).config.dataBase ∧
    ((memState 0x0FFC#32 7#32 []).storeAddress 1#5 0#12).extractLsb' 0 2 = 0#2 ∧
    (memState 0x0FFC#32 7#32 []).storeAddress 1#5 0#12 ≠
      (memState 0x0FFC#32 7#32 []).config.mmioTxAddr := by decide +kernel

theorem witness_StepRunsDecodedInstruction :
    (imageState 4#32 [0x13#32, 0x002081B3#32]).status = .running ∧
    (imageState 4#32 [0x13#32, 0x002081B3#32]).pc.extractLsb' 0 2 = 0#2 ∧
    (imageState 4#32 [0x13#32, 0x002081B3#32]).imem[
      (imageState 4#32 [0x13#32, 0x002081B3#32]).pc.toNat / 4]? = some 0x002081B3#32 ∧
    decode (imageState 4#32 [0x13#32, 0x002081B3#32]).config.branchSet 0x002081B3#32 =
      .instr (.add 3#5 1#5 2#5) := by decide +kernel

theorem witness_UnrecognisedWordIsNoOp :
    (imageState 0#32 [0x73#32]).status = .running ∧
    (imageState 0#32 [0x73#32]).pc.extractLsb' 0 2 = 0#2 ∧
    (imageState 0#32 [0x73#32]).imem[(imageState 0#32 [0x73#32]).pc.toNat / 4]? = some 0x73#32 ∧
    decode (imageState 0#32 [0x73#32]).config.branchSet 0x73#32 = .unrecognised .majorOpcode ∧
    (0x73#32).extractLsb' 0 7 ∈ [0x0F#7, 0x73#7, 0x2F#7, 0x07#7, 0x27#7, 0x43#7, 0x47#7, 0x4B#7,
      0x4F#7, 0x53#7] := by decide +kernel

theorem witness_MisalignedFetchFaults :
    (imageState 6#32 []).status = .running ∧ (imageState 6#32 []).pc.toNat % 4 ≠ 0 := by decide

theorem witness_PcBeyondImageHalts :
    (imageState 4#32 [0x13#32]).status = .running ∧ (imageState 4#32 [0x13#32]).pc.toNat % 4 = 0 ∧
    (imageState 4#32 [0x13#32]).imem.length ≤ (imageState 4#32 [0x13#32]).pc.toNat / 4 := by decide

theorem witness_TerminalStatusNeverChanges :
    State.reset.halt.status ≠ .running ∧
    (State.reset.raiseFault .fetchMisaligned 2#32).status ≠ .running := by decide

/-- A state of each of the five rows and of none (R220). -/
theorem witness_EveryStepIsOneOfFiveOutcomes :
    State.reset.halt.status ≠ .running ∧ (imageState 0#32 [0x13#32]).status = .running ∧
    (imageState 0#32 [0x13#32]).afterStep.status = .running ∧
    (imageState 0#32 [0x73#32]).afterStep.status = .running ∧
    (imageState 0#32 []).afterStep.status = .halted ∧
    (imageState 0#32 [0x6F#32]).afterStep.status = .halted ∧
    (imageState 2#32 [0x13#32]).afterStep.status = .faulted := by decide +kernel

theorem witness_ResetMeetsInvariant :
    Config.default.valid = true ∧ [0x13#32, 0x6F#32].length ≤ 2 ^ 30 := by decide

theorem witness_StepKeepsInvariant :
    (imageState 0#32 [0x13#32]).wf = true ∧ (imageState 2#32 [0x13#32]).wf = true ∧
    (imageState 2#32 [0x13#32]).afterStep.wf = true ∧
    ∃ t, step (imageState 0#32 [0x13#32]) = .next t :=
  ⟨by decide +kernel, by decide +kernel, by decide +kernel, _, rfl⟩

theorem witness_ResetLeavesSpecifiedState :
    State.reset.halt.status ≠ .running ∧ step State.reset.halt = .next State.reset.halt :=
  ⟨by decide, rfl⟩

theorem witness_NoStepChangesWhatFetchReads :
    ∃ t, step (imageState 0#32 [0x13#32]) = .next t := ⟨_, rfl⟩

theorem witness_OutputGrowsOnlyByTransmitStore :
    ∃ t, step ((memState 0x0800#32 7#32 []).withFetchWord 32 0x00209023) = .next t ∧
      t.out = [7#8] := ⟨_, rfl, by decide +kernel⟩

theorem witness_OnlyStoresWriteDataMemory :
    ∃ t, step ((memState 0x1000#32 7#32 []).withFetchWord 32 0x00209023) = .next t ∧
      t.dmem = [(0x1000, 7#8)] := ⟨_, rfl, by decide +kernel⟩

theorem witness_FaultsArePreciseAndFinal :
    (imageState 2#32 []).status = .running ∧
    ∃ t, step (imageState 2#32 []) = .next t ∧ t.status = .faulted := ⟨rfl, _, rfl, rfl⟩

theorem witness_RippleAdderIsExact : (31 : Nat) < 32 ∧ (0 : Nat) < 1 := by decide

theorem witness_ShifterMovesBits : (31 : Nat) < 32 ∧ (31#5 : BitVec 5).toNat ≤ 31 := by decide

theorem witness_AluFlagsDescribeResult : AluOp.sll ≠ .add ∧ AluOp.sll ≠ .sub := by decide

theorem witness_QuotientTimesDivisorPlusRemainder :
    (0xFFFFFFFF#32 : Word) ≠ 0#32 ∧ (1#32 : Word) ≠ 0#32 := by decide

/-- One pair of operands for each row of the table. -/
theorem witness_AddFollowsItsTable :
    IsNan 0x7F800001#32 ∧ (IsInf 0x7F800000#32 ∧ IsInf 0xFF800000#32) ∧
    (¬ IsInf 0x3F800000#32 ∧ ¬ IsNan 0x3F800000#32 ∧ ¬ IsZero 0x3F800000#32) ∧
    (IsZero 0x80000000#32 ∧ ¬ IsNan 0x80000000#32) := by
  unfold IsNan IsInf IsZero; decide

theorem witness_SubtractionInvertsSign :
    IsFiniteNonzero 0x00000001#32 ∧ IsFiniteNonzero 0x7F7FFFFF#32 ∧ ¬ IsNan 0x00000000#32 := by
  unfold IsFiniteNonzero IsNan IsInf IsZero; decide

theorem witness_MulFollowsItsTable :
    IsNan 0x7FC00000#32 ∧ (IsZero 0x80000000#32 ∧ IsInf 0x7F800000#32) ∧
    (¬ IsNan 0xFF800000#32 ∧ ¬ IsNan 0x3F800000#32 ∧ ¬ IsZero 0xFF800000#32 ∧
      ¬ IsZero 0x3F800000#32 ∧ IsInf 0xFF800000#32) ∧
    (¬ IsNan 0x00000000#32 ∧ ¬ IsInf 0x00000000#32 ∧ ¬ IsInf 0x3F800000#32) := by
  unfold IsNan IsInf IsZero; decide

theorem witness_DivSpecialCases :
    IsNan 0xFFFFFFFF#32 ∧ (IsZero 0x00000000#32 ∧ IsZero 0x80000000#32) ∧
    (IsInf 0x7F800000#32 ∧ ¬ IsNan 0x00000000#32 ∧ ¬ IsInf 0x00000000#32) ∧
    IsFiniteNonzero 0x3F800000#32 ∧ (¬ IsNan 0x7F800000#32 ∧ ¬ IsZero 0x7F800000#32) := by
  unfold IsFiniteNonzero IsNan IsInf IsZero; decide

/-- 1 + (-1.5) over emin = 0: N = 2^23 - 3 · 2^22. -/
theorem witness_AddFollowsItsTable_finite :
    classify 0x3F800000#32 = .finite ⟨false, 0, 0x800000⟩ ∧
    classify 0xBFC00000#32 = .finite ⟨true, 0, 0xC00000⟩ ∧
    ((-0x400000 : Int) : ℚ) * (2 : ℚ) ^ (min (0 : Int) 0 - 23) =
      (if false then -Finite.magnitude ⟨false, 0, 0x800000⟩ else Finite.magnitude ⟨false, 0, 0x800000⟩) +
        (if true then -Finite.magnitude ⟨true, 0, 0xC00000⟩ else Finite.magnitude ⟨true, 0, 0xC00000⟩) := by
  refine ⟨by decide, by decide, ?_⟩
  norm_num [Finite.magnitude]

theorem witness_MulFollowsItsTable_finite :
    classify 0x3F800000#32 = .finite ⟨false, 0, 0x800000⟩ ∧
    classify 0x80000001#32 = .finite ⟨true, -126, 1⟩ := by decide

theorem witness_DivisionFollowsItsMode :
    classify 0x3F800000#32 = .finite ⟨false, 0, 0x800000⟩ ∧
    classify 0x40400000#32 = .finite ⟨false, 1, 0xC00000⟩ ∧
    Config.default.fdivMode = .ieeeRne ∧ Config.default.subnormalReround = .fromUnrounded ∧
    ({ Config.default with fdivMode := .literal } : Config).fdivMode = .literal := by decide

/-- A tie: 2^-149 / 2 lies between 0 and one unit of 2^-149; the result is 0, inexact and underflow. -/
theorem witness_DivisionFollowsItsMode_tie :
    f32Div Config.default 0x00000001#32 0x40000000#32 = ⟨0#32, ⟨true, false, true, false⟩⟩ ∧
    fpMagnitude 0x00000000#32 = some 0 ∧
    fpMagnitude 0x00000001#32 = some (Finite.magnitude ⟨false, -126, 1⟩) ∧
    Finite.magnitude ⟨false, -126, 1⟩ ≠ 0 ∧
    |0 - Finite.magnitude ⟨false, -126, 1⟩ / Finite.magnitude ⟨false, 1, 0x800000⟩| =
      |Finite.magnitude ⟨false, -126, 1⟩ -
        Finite.magnitude ⟨false, -126, 1⟩ / Finite.magnitude ⟨false, 1, 0x800000⟩| := by
  refine ⟨by decide +kernel, rfl, rfl, ?_, ?_⟩
  · norm_num [Finite.magnitude]
  · norm_num [Finite.magnitude, abs_of_pos, abs_of_neg]

/-- The greatest finite value divided by 1/2 is an infinity with overflow, divided by 1 it is itself;
2^-126 / 2 is exact and subnormal, without underflow. -/
theorem witness_DivisionFollowsItsMode_range :
    f32Div Config.default 0x7F7FFFFF#32 0x3F000000#32 = ⟨0x7F800000#32, ⟨true, true, false, false⟩⟩ ∧
    f32Div Config.default 0x7F7FFFFF#32 0x3F800000#32 = ⟨0x7F7FFFFF#32, FpuFlags.none⟩ ∧
    f32Div Config.default 0x00800000#32 0x40000000#32 = ⟨0x00400000#32, FpuFlags.none⟩ := by
  decide +kernel

theorem witness_OnlyCanonicalNanIsProduced :
    IsNan Config.default.canonicalNan ∧
    IsNan (fpu Config.default .add 0x7F800000#32 0xFF800000#32).r := by
  unfold IsNan; decide +kernel

theorem witness_AddAndMulCommute :
    ¬ (IsZero 0x3F800000#32 ∧ IsZero 0x00000000#32) ∧ IsZero 0x80000000#32 := by
  unfold IsZero; decide

theorem witness_FiniteValuesPackToThemselves :
    classify 0x00000001#32 = .finite ⟨false, -126, 1⟩ ∧
    classify 0xFF7FFFFF#32 = .finite ⟨true, 127, 0xFFFFFF⟩ := by decide

theorem witness_RounderReturnsNearestValue :
    ∃ y z, fpMagnitude (roundPack .fromUnrounded false 0x1FFFFFF (-24)).r = some y ∧
      fpMagnitude 0x00000001#32 = some z :=
  ⟨Finite.magnitude ⟨false, 1, 0x800000⟩, Finite.magnitude ⟨false, -126, 1⟩, rfl, rfl⟩

/-- A tie: 1.5 units of 2^-149, between 1 and 2 units. -/
theorem witness_RounderReturnsNearestValue_tie :
    fpMagnitude (roundPack .fromUnrounded false 3 (-150)).r = some (Finite.magnitude ⟨false, -126, 2⟩) ∧
    fpMagnitude 0x00000001#32 = some (Finite.magnitude ⟨false, -126, 1⟩) ∧
    Finite.magnitude ⟨false, -126, 1⟩ ≠ Finite.magnitude ⟨false, -126, 2⟩ ∧
    |Finite.magnitude ⟨false, -126, 2⟩ - ((3 : Nat) : ℚ) * (2 : ℚ) ^ (-150 : Int)| =
      |Finite.magnitude ⟨false, -126, 1⟩ - ((3 : Nat) : ℚ) * (2 : ℚ) ^ (-150 : Int)| := by
  refine ⟨rfl, rfl, ?_, ?_⟩
  · norm_num [Finite.magnitude]
  · norm_num [Finite.magnitude, abs_of_pos, abs_of_neg]

/-- The least magnitude that gives infinity, 2^128 - 2^103, and the one a 26th bit below. -/
theorem witness_RounderReturnsNearestValue_infinity :
    IsInf (roundPack .fromUnrounded false 0x1FFFFFF 103).r ∧
    ¬ IsInf (roundPack .fromUnrounded false 0x3FFFFFD 102).r := by
  unfold IsInf; decide +kernel

theorem witness_RounderFlagsDescribeResult :
    (roundPack .fromUnrounded false 0x1FFFFFF (-151)).flags = ⟨true, false, false, false⟩ ∧
    (roundPack .fromUnrounded false 0x3FFFFFD (-152)).flags = ⟨true, false, true, false⟩ := by
  decide +kernel

theorem witness_AddDatapathEqualsExactSum :
    classify 0x3F800000#32 = .finite ⟨false, 0, 0x800000⟩ ∧
    classify 0x80000001#32 = .finite ⟨true, -126, 1⟩ := by decide

theorem witness_DrivingLoopStopsAtBudgetOrTerminal :
    (driveLoop 3 0 (imageState 0#32 [0x6F#32])).steps < 3 ∧
    (driveLoop 3 0 (imageState 0#32 [0x6F#32])).state.status ≠ .running ∧
    (driveLoop 3 0 (imageState 0#32 [0xEF#32])).state.status = .running ∧
    (driveLoop 3 0 (imageState 2#32 [0x6F#32])).state.status = .faulted ∧
    (driveLoop 3 0 (imageState 0#32 [0x6F#32])).state.status = .halted := by decide +kernel

theorem witness_LoadImmediateExpansionWritesConstant :
    (1#5 : RegIdx) ≠ 0#5 ∧ -2048 ≤ (0xFFFFF800#32).toInt ∧ (0xFFFFF800#32).toInt ≤ 2047 ∧
    -2048 ≤ (0x7FF#32).toInt ∧ (0x7FF#32).toInt ≤ 2047 := by decide

end Sys2Proof.Tests
end

section
/-! PROOFS. The invariant of every run: what it says part by part, and that reset meets it (spec
70_reset_and_hazards.md R290). -/

namespace Sys2Proof.Machine

/-! ### The parts of the invariant -/

/-- The invariant as a conjunction of its six parts. -/
theorem wf_iff (s : State) : s.wf = true ↔
    s.x[0] = 0#32 ∧ s.dmem.wf = true ∧ s.dmemMapped = true ∧ s.statusWf = true ∧
      s.config.valid = true ∧ s.imem.length ≤ 2 ^ 30 := by
  simp only [State.wf, Bool.and_eq_true, beq_iff_eq, decide_eq_true_eq, and_assoc]

/-- R28: a Running state with no fault record agrees with its status. -/
theorem statusWf_of_running {s : State} (hst : s.status = .running) (hf : s.fault = none) :
    s.statusWf = true := by
  simp only [State.statusWf, hst, hf]

/-- R43: data memory that lists no byte lists mapped bytes only. -/
theorem dmemMapped_of_dmem_nil {s : State} (h : s.dmem = []) : s.dmemMapped = true := by
  simp only [State.dmemMapped, h, List.all_nil]

/-! ### Reset -/

/-- R37: every register slot holds 0 at reset, that of x0 too. -/
@[simp] theorem resetWith_x_zero (c : Config) (image : List Word) :
    (State.resetWith c image).x[0] = 0#32 :=
  Vector.getElem_replicate (by decide)

/-- Reset meets the invariant as soon as its configuration and its image do: registers, data memory,
status and record hold the values of R290, and those meet it. -/
theorem wf_resetWith {c : Config} {image : List Word} (hc : c.valid = true)
    (himem : image.length ≤ 2 ^ 30) : (State.resetWith c image).wf = true := by
  have hdmem : (State.resetWith c image).dmem = [] := rfl
  have hmapped : (State.resetWith c image).dmemMapped = true := dmemMapped_of_dmem_nil hdmem
  have hstatus : (State.resetWith c image).statusWf = true := statusWf_of_running rfl rfl
  exact (wf_iff _).mpr ⟨resetWith_x_zero c image, rfl, hmapped, hstatus, hc, himem⟩

/-- R10: the parameter values of `State.reset` meet their constraints. -/
theorem default_valid : Config.default.valid = true := by decide

/-- Settles O32: `State.reset` is the reset with the default configuration and the empty image, so
both parts are the one lemma about `State.resetWith`. -/
theorem resetMeetsInvariant : Obligations.ResetMeetsInvariant :=
  ⟨wf_resetWith default_valid (Nat.zero_le _), fun _ _ => wf_resetWith⟩

end Sys2Proof.Machine
end

section
/-! PROOFS. The terminal statuses are fixed points (spec 10_state.md R27, 44_execution_engine.md R219). -/

namespace Sys2Proof.Machine

/-- R219: a step of an engine that does not run answers the state it was given. -/
theorem step_of_not_running {s : State} (h : s.status ≠ .running) : step s = .next s := by
  cases hst : s.status with
  | running => exact absurd hst h
  | halted => exact step_halted hst
  | faulted => exact step_faulted hst

/-- A fixed point of one step of a machine is a fixed point of every number of steps. -/
theorem run_of_step_fixed {M : Host.Core} {s : M.State} (h : M.step s = .next s) (n : Nat) :
    M.run n s = .next s := by
  induction n with
  | zero => rfl
  | succ n ih => simp only [Host.Core.run, h, ih]

/-- Settles O30: one step keeps a terminal state, so every number of steps does. -/
theorem terminalStatusNeverChanges : Obligations.TerminalStatusNeverChanges := fun s h =>
  have hstep : step s = .next s := step_of_not_running h
  ⟨hstep, run_of_step_fixed (M := Sys2Proof.core) hstep⟩

end Sys2Proof.Machine
end

section
/-! PROOFS. The fields of a state after a commit with any memory effect and any register write
(spec 44_execution_engine.md R216). -/

namespace Sys2Proof.Machine

/-- A commit moves the pc and writes registers, besides what its memory effect does: every other field
is the one `applyStore` leaves. -/
theorem commit_eq_setX_setPc (s : State) (store : Option StoreEffect) (write : Option RegWrite)
    (nextPc : Word) :
    ∃ x, s.commit store write nextPc = ((s.applyStore store).setX x).setPc nextPc := by
  cases write with
  | none => exact ⟨_, rfl⟩
  | some w =>
    obtain ⟨x, hx⟩ := writeReg_eq_setX (s.applyStore store) w.rd w.value
    exact ⟨x.set 0 0#32, by rw [State.commit, applyRegWrite_some, hx]; rfl⟩

/-- A memory effect leaves the run status, the fault record, IMEM and the configuration alone, and
keeps data memory canonical and mapped. -/
theorem applyStore_keeps (s : State) (store : Option StoreEffect) :
    ControlKept s (s.applyStore store) ∧ (s.dmem.wf → (s.applyStore store).dmem.wf) ∧
      (s.dmemMapped → (s.applyStore store).dmemMapped) := by
  cases store with
  | none => exact ⟨⟨rfl, rfl, rfl, rfl⟩, id, id⟩
  | some e =>
    obtain ⟨_, _, hst, hf, him, hc, hwf, hmapped⟩ := memWrite_fields s e.addr e.bytes e.value
    exact ⟨⟨hst, hf, him, hc⟩, hwf, hmapped⟩

section
variable (s : State) (store : Option StoreEffect) (write : Option RegWrite) (nextPc : Word)

@[simp] theorem commit_dmem : (s.commit store write nextPc).dmem = (s.applyStore store).dmem := by
  obtain ⟨x, h⟩ := commit_eq_setX_setPc s store write nextPc; rw [h]; rfl

@[simp] theorem commit_out : (s.commit store write nextPc).out = (s.applyStore store).out := by
  obtain ⟨x, h⟩ := commit_eq_setX_setPc s store write nextPc; rw [h]; rfl

/-- R216: the slot of x0 holds 0 after every commit. -/
@[simp] theorem commit_slot0 : (s.commit store write nextPc).x[0] = 0#32 := by
  simp [State.commit]

/-- No commit touches the run status, the fault record, IMEM or the configuration. -/
theorem commit_control : ControlKept s (s.commit store write nextPc) := by
  obtain ⟨x, h⟩ := commit_eq_setX_setPc s store write nextPc
  obtain ⟨hst, hf, him, hc⟩ := (applyStore_keeps s store).1
  rw [h]
  exact ⟨hst, hf, him, hc⟩

theorem commit_dmemMapped :
    (s.commit store write nextPc).dmemMapped = (s.applyStore store).dmemMapped := by
  obtain ⟨x, h⟩ := commit_eq_setX_setPc s store write nextPc; rw [h]; rfl

end

end Sys2Proof.Machine
end

section
/-! PROOFS. Every step keeps the invariant (spec 10_state.md R21, R27, R28; 20_memory.md R42, R43, R46;
60_exceptions.md R270, R271): each of the three ways a Running state ends a step keeps it. -/

namespace Sys2Proof.Machine

/-- R28: no record stands in a state that is not Faulted. -/
theorem fault_eq_none_of_running {s : State} (h : s.statusWf = true) (hst : s.status = .running) :
    s.fault = none := by
  cases hf : s.fault with
  | none => rfl
  | some r => simp [State.statusWf, hst, hf] at h

/-- R216: every commit keeps the invariant, whatever it stores, writes and jumps to. -/
theorem wf_commit {s : State} (hs : s.wf = true) (hst : s.status = .running)
    (store : Option StoreEffect) (write : Option RegWrite) (nextPc : Word) :
    (s.commit store write nextPc).wf = true := by
  obtain ⟨_, hmem, hmapped, hstatus, hconfig, himem⟩ := (wf_iff s).mp hs
  obtain ⟨_, hmemKept, hmappedKept⟩ := applyStore_keeps s store
  obtain ⟨kst, kf, kimem, kconfig⟩ := commit_control s store write nextPc
  refine (wf_iff _).mpr ⟨commit_slot0 .., ?_, ?_, ?_, ?_, ?_⟩
  · rw [commit_dmem]; exact hmemKept hmem
  · rw [commit_dmemMapped]; exact hmappedKept hmapped
  · exact statusWf_of_running (kst.trans hst) (kf.trans (fault_eq_none_of_running hstatus hst))
  · rw [kconfig]; exact hconfig
  · rw [kimem]; exact himem

/-- R212, R213: halting keeps the invariant. -/
theorem wf_halt {s : State} (hs : s.wf = true) (hst : s.status = .running) : s.halt.wf = true := by
  obtain ⟨hx, hmem, hmapped, hstatus, hconfig, himem⟩ := (wf_iff s).mp hs
  have hf : s.halt.fault = none := fault_eq_none_of_running (s := s) hstatus hst
  have hhalted : s.halt.status = .halted := rfl
  have hagree : s.halt.statusWf = true := by simp only [State.statusWf, hhalted, hf]
  exact (wf_iff _).mpr ⟨hx, hmem, hmapped, hagree, hconfig, himem⟩

/-- R270, R271: raising a fault whose record is one a step can write keeps the invariant. -/
theorem wf_raiseFault {s : State} (hs : s.wf = true) {kind : Fault} {addr : Word}
    (hr : FaultRecord.wf ⟨kind, addr, s.pc⟩ = true) : (s.raiseFault kind addr).wf = true := by
  obtain ⟨hx, hmem, hmapped, _, hconfig, himem⟩ := (wf_iff s).mp hs
  have hagree : (s.raiseFault kind addr).statusWf = true := by
    simp [State.statusWf, State.raiseFault, hr]
  exact (wf_iff _).mpr ⟨hx, hmem, hmapped, hagree, hconfig, himem⟩

/-- R211, R271: the record of a misaligned fetch. -/
theorem faultRecord_wf_fetch {pc : Word} (h : pc.extractLsb' 0 2 ≠ 0#2) :
    FaultRecord.wf ⟨.fetchMisaligned, pc, pc⟩ = true := by
  simp [FaultRecord.wf, h]

/-- R271: the record of a misaligned load or store, whose instruction was fetched at an aligned pc. -/
theorem faultRecord_wf_access {kind : Fault} {addr pc : Word} (hk : kind ≠ .fetchMisaligned)
    (ha : addr.extractLsb' 0 2 ≠ 0#2) (hpc : pc.extractLsb' 0 2 = 0#2) :
    FaultRecord.wf ⟨kind, addr, pc⟩ = true := by
  cases kind with
  | fetchMisaligned => exact absurd rfl hk
  | loadMisaligned => simp [FaultRecord.wf, ha, hpc]
  | storeMisaligned => simp [FaultRecord.wf, ha, hpc]

/-- Every instruction run at an aligned pc keeps the invariant. -/
theorem ExecShape.wf {i : Instr} {s t : State} (h : ExecShape i s t) (hs : s.wf = true)
    (hst : s.status = .running) (hpc : s.pc.extractLsb' 0 2 = 0#2) : t.wf = true := by
  cases h with
  | reg | pc | store => exact wf_commit hs hst ..
  | fault kind addr _ hk ha => exact wf_raiseFault hs (faultRecord_wf_access hk ha hpc)
  | halt => exact wf_halt hs hst

/-- Settles O33, by the shapes of a step: a terminal state stays, and a Running one commits, halts or
faults with a record of its kind. -/
theorem stepKeepsInvariant : Obligations.StepKeepsInvariant := by
  intro s t hs hstep
  cases step_next hstep with
  | terminal => exact hs
  | fetchFault _ _ ha => exact wf_raiseFault hs (faultRecord_wf_fetch ha)
  | beyond hst => exact wf_halt hs hst
  | instr w i hst _ hpc _ _ hshape => exact hshape.wf hs hst hpc
  | noop w why hst => exact wf_commit hs hst ..

end Sys2Proof.Machine
end

section
/-! PROOFS. What the slot of x0 holds is seen by no step (spec 10_state.md R21; 44_execution_engine.md
R216, R218). `State.zeroX0` clears the slot, so two states that differ there only have the same
`zeroX0`; a step of the cleared state is shown to answer the cleared next state. -/

namespace Sys2Proof.Machine

/-! ### Clearing the slot commutes with the shared operations -/

@[simp] theorem zeroX0_zeroX0 (s : State) : s.zeroX0.zeroX0 = s.zeroX0 := by
  simp [State.zeroX0, State.setX]

/-- What was written to the slot of x0 is gone once it is cleared. -/
theorem zeroX0_set_slot0 (s : State) (v : Word) :
    State.zeroX0 { s with x := s.x.set 0 v } = s.zeroX0 := by
  simp [State.zeroX0, State.setX]

theorem zeroX0_writeReg_zeroX0 (s : State) (rd : RegIdx) (v : Word) :
    (s.zeroX0.writeReg rd v).zeroX0 = (s.writeReg rd v).zeroX0 := by
  by_cases h : rd = 0#5
  · simp [State.writeReg, h]
  · have hne : 0 ≠ rd.toNat := fun e => h (BitVec.eq_of_toNat_eq e.symm)
    simp only [State.writeReg, h, if_false, State.zeroX0, State.setX]
    rw [Vector.set_comm _ _ hne, Vector.set_set]

theorem writeByte_zeroX0 (s : State) (a : Word) (b : Byte) :
    s.zeroX0.writeByte a b = (s.writeByte a b).zeroX0 := by
  rw [State.writeByte, State.writeByte, apply_ite State.zeroX0]
  rfl

theorem writeBytes_zeroX0 (s : State) (addr v : Word) (n : Nat) :
    s.zeroX0.writeBytes addr v n = (s.writeBytes addr v n).zeroX0 := by
  induction n with
  | zero => rfl
  | succ n ih => rw [State.writeBytes, State.writeBytes, ih, writeByte_zeroX0]

theorem applyStore_zeroX0 (s : State) (store : Option StoreEffect) :
    s.zeroX0.applyStore store = (s.applyStore store).zeroX0 := by
  cases store with
  | none => rfl
  | some e =>
    simp only [State.applyStore]
    by_cases h : e.addr = s.config.mmioTxAddr
    · rw [memWrite_mmio h, memWrite_mmio (s := s.zeroX0) h]; rfl
    · rw [memWrite_memory h, memWrite_memory (s := s.zeroX0) h, writeBytes_zeroX0]

/-- R216: a commit clears the slot itself, so it does not matter what stood there before it. -/
@[simp] theorem commit_of_zeroX0 (s : State) (store : Option StoreEffect) (write : Option RegWrite)
    (nextPc : Word) : s.zeroX0.commit store write nextPc = s.commit store write nextPc := by
  rw [State.commit, State.commit, applyStore_zeroX0]
  cases write with
  | none => simp
  | some w => rw [applyRegWrite_some, applyRegWrite_some, zeroX0_writeReg_zeroX0]

/-- R216: clearing the slot again after a commit changes nothing. -/
@[simp] theorem zeroX0_commit (s : State) (store : Option StoreEffect) (write : Option RegWrite)
    (nextPc : Word) : (s.commit store write nextPc).zeroX0 = s.commit store write nextPc :=
  congrArg (State.setPc · nextPc) (zeroX0_zeroX0 _)

/-! ### The operands do not read the slot -/

@[simp] theorem loadAddress_zeroX0 (s : State) (rs1 : RegIdx) (imm : BitVec 12) :
    s.zeroX0.loadAddress rs1 imm = s.loadAddress rs1 imm := by
  simp [State.loadAddress]

@[simp] theorem storeAddress_zeroX0 (s : State) (rs1 : RegIdx) (imm : BitVec 12) :
    s.zeroX0.storeAddress rs1 imm = s.storeAddress rs1 imm := by
  simp [State.storeAddress]

@[simp] theorem jalrTarget_zeroX0 (s : State) (rs1 : RegIdx) (imm : BitVec 12) :
    s.zeroX0.jalrTarget rs1 imm = s.jalrTarget rs1 imm := by
  simp [State.jalrTarget]

/-! ### Meanings that do not see the slot -/

/-- A meaning does not see the slot of x0: from the state with the slot cleared it answers the next
state with the slot cleared. -/
def IgnoresSlot0 (meaning : State → Host.Outcome State Fault Refusal) : Prop :=
  ∀ s : State, ∃ t, meaning s = .next t ∧ meaning s.zeroX0 = .next t.zeroX0

/-- A meaning that commits, and whose effects read alike with the slot cleared, does not see it. -/
theorem ignoresSlot0_of_commit {store : State → Option StoreEffect} {write : State → Option RegWrite}
    {nextPc : State → Word} (hs : ∀ s : State, store s.zeroX0 = store s)
    (hw : ∀ s : State, write s.zeroX0 = write s) (hpc : ∀ s : State, nextPc s.zeroX0 = nextPc s) :
    IgnoresSlot0 fun s => .next (s.commit (store s) (write s) (nextPc s)) := fun s =>
  ⟨_, rfl, by simp only [hs, hw, hpc, commit_of_zeroX0, zeroX0_commit]⟩

/-- An instruction that writes rd with a value that reads alike with the slot cleared. -/
theorem ignoresSlot0_of_commitReg (rd : RegIdx) {value : State → Word}
    (hv : ∀ s : State, value s.zeroX0 = value s) :
    IgnoresSlot0 fun s => .next (s.commitReg rd (value s)) :=
  ignoresSlot0_of_commit (fun _ => rfl) (fun s => by rw [hv s]) (fun _ => rfl)

theorem ignoresSlot0_aluRegReg (op : AluOp) (rd rs1 rs2 : RegIdx) :
    IgnoresSlot0 (aluRegReg op rd rs1 rs2) :=
  ignoresSlot0_of_commitReg rd fun s => by rw [readReg_zeroX0, readReg_zeroX0]

theorem ignoresSlot0_aluRegImm (op : AluOp) (rd rs1 : RegIdx) (operand : Word) :
    IgnoresSlot0 (aluRegImm op rd rs1 operand) :=
  ignoresSlot0_of_commitReg rd fun s => by rw [readReg_zeroX0]

theorem ignoresSlot0_mduRegReg (op : MduOp) (rd rs1 rs2 : RegIdx) :
    IgnoresSlot0 (mduRegReg op rd rs1 rs2) :=
  ignoresSlot0_of_commitReg rd fun s => by rw [readReg_zeroX0, readReg_zeroX0]

/-- A branch whose condition compares two registers. -/
theorem ignoresSlot0_branchIf (taken : Word → Word → Bool) (rs1 rs2 : RegIdx) (offset : BitVec 13) :
    IgnoresSlot0 fun s => branchIf (taken (s.readReg rs1) (s.readReg rs2)) offset s :=
  ignoresSlot0_of_commit (fun _ => rfl) (fun _ => rfl) fun s => by
    rw [readReg_zeroX0, readReg_zeroX0]; rfl

/-- A jump to a target that reads alike with the slot cleared. -/
theorem ignoresSlot0_jump (rd : RegIdx) {target : State → Word}
    (ht : ∀ s : State, target s.zeroX0 = target s) :
    IgnoresSlot0 fun s => .next (s.jump rd (target s)) :=
  ignoresSlot0_of_commit (fun _ => rfl) (fun _ => rfl) ht

theorem ignoresSlot0_loadWith (width : Width) {value : State → Word → Word}
    (hv : ∀ (s : State) (ea : Word), value s.zeroX0 ea = value s ea) (rd rs1 : RegIdx)
    (imm : BitVec 12) : IgnoresSlot0 (loadWith width value rd rs1 imm) := by
  intro s
  by_cases h : width.aligned (s.loadAddress rs1 imm) = true
  · have h' : width.aligned (s.zeroX0.loadAddress rs1 imm) = true := by simpa using h
    refine ⟨_, loadWith_aligned h value rd, ?_⟩
    rw [loadWith_aligned h', loadAddress_zeroX0, hv]
    simp [State.commitReg, State.pcPlus4]
  · have h' : width.aligned (s.zeroX0.loadAddress rs1 imm) ≠ true := by simpa using h
    refine ⟨_, loadWith_misaligned h value rd, ?_⟩
    rw [loadWith_misaligned h', loadAddress_zeroX0]
    rfl

theorem ignoresSlot0_storeWith (width : Width) (rs2 rs1 : RegIdx) (imm : BitVec 12) :
    IgnoresSlot0 (storeWith width rs2 rs1 imm) := by
  intro s
  by_cases h : width.aligned (s.storeAddress rs1 imm) = true
  · have h' : width.aligned (s.zeroX0.storeAddress rs1 imm) = true := by simpa using h
    refine ⟨_, storeWith_aligned h rs2, ?_⟩
    rw [storeWith_aligned h', storeAddress_zeroX0, readReg_zeroX0]
    simp [State.pcPlus4]
  · have h' : width.aligned (s.zeroX0.storeAddress rs1 imm) ≠ true := by simpa using h
    refine ⟨_, storeWith_misaligned h rs2, ?_⟩
    rw [storeWith_misaligned h', storeAddress_zeroX0]
    rfl

/-- No instruction sees the slot of x0. -/
theorem ignoresSlot0_exec (i : Instr) : IgnoresSlot0 (exec i) := by
  cases i with
  | add rd rs1 rs2 | sub rd rs1 rs2 | sll rd rs1 rs2 | slt rd rs1 rs2 | sltu rd rs1 rs2
  | xor rd rs1 rs2 | srl rd rs1 rs2 | sra rd rs1 rs2 | or rd rs1 rs2 | and rd rs1 rs2 =>
    exact ignoresSlot0_aluRegReg _ rd rs1 rs2
  | addi rd rs1 imm | slti rd rs1 imm | sltiu rd rs1 imm | xori rd rs1 imm | ori rd rs1 imm
  | andi rd rs1 imm | slli rd rs1 imm | srli rd rs1 imm | srai rd rs1 imm =>
    exact ignoresSlot0_aluRegImm _ rd rs1 _
  | mul rd rs1 rs2 | mulh rd rs1 rs2 | mulhsu rd rs1 rs2 | mulhu rd rs1 rs2
  | div rd rs1 rs2 | divu rd rs1 rs2 | rem rd rs1 rs2 | remu rd rs1 rs2 =>
    exact ignoresSlot0_mduRegReg _ rd rs1 rs2
  | lui rd imm20 | auipc rd imm20 => exact ignoresSlot0_of_commitReg rd fun _ => rfl
  | jal rd offset => exact ignoresSlot0_jump rd fun _ => rfl
  | jalr rd rs1 imm => exact ignoresSlot0_jump rd fun s => jalrTarget_zeroX0 s rs1 imm
  | beq rs1 rs2 offset => exact ignoresSlot0_branchIf (fun a b => decide (a = b)) rs1 rs2 offset
  | bne rs1 rs2 offset => exact ignoresSlot0_branchIf (fun a b => decide (a ≠ b)) rs1 rs2 offset
  | blt rs1 rs2 offset =>
    exact ignoresSlot0_branchIf (fun a b => decide (a.toInt < b.toInt)) rs1 rs2 offset
  | bge rs1 rs2 offset =>
    exact ignoresSlot0_branchIf (fun a b => decide (b.toInt ≤ a.toInt)) rs1 rs2 offset
  | bltu rs1 rs2 offset =>
    exact ignoresSlot0_branchIf (fun a b => decide (a.toNat < b.toNat)) rs1 rs2 offset
  | bgeu rs1 rs2 offset =>
    exact ignoresSlot0_branchIf (fun a b => decide (b.toNat ≤ a.toNat)) rs1 rs2 offset
  | lb rd rs1 imm =>
    exact ignoresSlot0_loadWith .byte (value := fun s ea => (s.memRead8 ea).signExtend 32)
      (fun _ _ => rfl) rd rs1 imm
  | lh rd rs1 imm =>
    exact ignoresSlot0_loadWith .half (value := fun s ea => (s.memRead16 ea).signExtend 32)
      (fun _ _ => rfl) rd rs1 imm
  | lw rd rs1 imm =>
    exact ignoresSlot0_loadWith .word (value := fun s ea => s.memRead32 ea)
      (fun _ _ => rfl) rd rs1 imm
  | lbu rd rs1 imm =>
    exact ignoresSlot0_loadWith .byte (value := fun s ea => (s.memRead8 ea).setWidth 32)
      (fun _ _ => rfl) rd rs1 imm
  | lhu rd rs1 imm =>
    exact ignoresSlot0_loadWith .half (value := fun s ea => (s.memRead16 ea).setWidth 32)
      (fun _ _ => rfl) rd rs1 imm
  | sb rs2 rs1 imm => exact ignoresSlot0_storeWith .byte rs2 rs1 imm
  | sh rs2 rs1 imm => exact ignoresSlot0_storeWith .half rs2 rs1 imm
  | sw rs2 rs1 imm => exact ignoresSlot0_storeWith .word rs2 rs1 imm
  | halt => exact fun s => ⟨s.halt, rfl, rfl⟩

/-- No decoded word sees the slot of x0: the no-op of an unrecognised one commits the pc only. -/
theorem ignoresSlot0_runDecoded (d : Decoded) : IgnoresSlot0 (runDecoded d) := by
  cases d with
  | instr i => exact ignoresSlot0_exec i
  | unrecognised why =>
    exact ignoresSlot0_of_commit (fun _ => rfl) (fun _ => rfl) (fun _ => rfl)

@[simp] theorem fetch_zeroX0 (s : State) : s.zeroX0.fetch = s.fetch := rfl

/-- No step sees the slot of x0. -/
theorem ignoresSlot0_step : IgnoresSlot0 step := by
  intro s
  by_cases hst : s.status = .running
  · have hst' : s.zeroX0.status = .running := hst
    cases hf : s.fetch with
    | misaligned => exact ⟨_, step_misaligned hst hf, step_misaligned hst' hf⟩
    | outOfRange => exact ⟨_, step_outOfRange hst hf, step_outOfRange hst' hf⟩
    | word w =>
      rw [step_word hst hf, step_word hst' (w := w) hf]
      exact ignoresSlot0_runDecoded (decode s.config.branchSet w) s
  · exact ⟨s, step_of_not_running hst, step_of_not_running (s := s.zeroX0) hst⟩

/-- States that agree once the slot of x0 is cleared agree in every register read and every field but
the register file. -/
theorem agree_of_zeroX0_eq {t t' : State} (h : t'.zeroX0 = t.zeroX0) :
    (∀ r : RegIdx, t'.readReg r = t.readReg r) ∧ t'.pc = t.pc ∧ t'.status = t.status ∧
      t'.fault = t.fault ∧ t'.dmem = t.dmem ∧ t'.out = t.out ∧ t'.imem = t.imem ∧
      t'.config = t.config := by
  refine ⟨fun r => ?_, (congrArg State.pc h :), (congrArg State.status h :),
    (congrArg State.fault h :), (congrArg State.dmem h :), (congrArg State.out h :),
    (congrArg State.imem h :), (congrArg State.config h :)⟩
  rw [← readReg_zeroX0 t', h, readReg_zeroX0]

/-- Settles O39: the two states are one state once the slot of x0 is cleared, and the step of that
state is the cleared step of each of the two. -/
theorem slotOfX0IsInvisible : Obligations.SlotOfX0IsInvisible := by
  intro s v
  obtain ⟨t, ht, hclear⟩ := ignoresSlot0_step s
  obtain ⟨t', ht', hclear'⟩ := ignoresSlot0_step { s with x := s.x.set 0 v }
  rw [zeroX0_set_slot0, hclear] at hclear'
  have heq : t'.zeroX0 = t.zeroX0 := by injection hclear'.symm
  exact ⟨t, t', ht, ht', agree_of_zeroX0_eq heq⟩

end Sys2Proof.Machine
end

section
/-! PROOFS. The output stream changes by a store to MMIO_TX_ADDR only (spec 10_state.md R30; 20_memory.md
R44, R46). -/

namespace Sys2Proof.Machine

/-- R257 to R259: the instructions that store are SB, SH and SW, at their effective address. -/
theorem storeOf_eq_some {i : Instr} {s : State} {width : Width} {rs2 : RegIdx} {ea : Word}
    (h : storeOf i s = some (width, rs2, ea)) :
    ∃ rs1 imm, ea = s.storeAddress rs1 imm ∧
      (i = .sb rs2 rs1 imm ∨ i = .sh rs2 rs1 imm ∨ i = .sw rs2 rs1 imm) := by
  cases i with
  | sb r rs1 imm => cases h; exact ⟨rs1, imm, rfl, .inl rfl⟩
  | sh r rs1 imm => cases h; exact ⟨rs1, imm, rfl, .inr (.inl rfl)⟩
  | sw r rs1 imm => cases h; exact ⟨rs1, imm, rfl, .inr (.inr rfl)⟩
  | _ => exact absurd h nofun

/-- R46: a store elsewhere than MMIO_TX_ADDR emits nothing. -/
theorem memWrite_out_of_ne {s : State} {addr : Word} (h : addr ≠ s.config.mmioTxAddr) (n : Nat)
    (v : Word) : (s.memWrite addr n v).out = s.out := by
  obtain ⟨_, _, _, _, hout, _, _⟩ := (writeBytes_spec s addr v n).fields
  rw [memWrite_memory h, hout]

/-- An instruction leaves the output as it was, or it is a store to MMIO_TX_ADDR, which emits the low
byte of its source register and writes no memory (R44). -/
theorem ExecShape.out {i : Instr} {s t : State} (h : ExecShape i s t) :
    t.out = s.out ∨
    ∃ width rs2, storeOf i s = some (width, rs2, s.config.mmioTxAddr) ∧
      t.out = s.out ++ [(s.readReg rs2).extractLsb' 0 8] ∧ t.dmem = s.dmem := by
  cases h with
  | reg => exact .inl (commit_out ..)
  | pc | fault | halt => exact .inl rfl
  | store width rs2 ea _ hs =>
    by_cases he : ea = s.config.mmioTxAddr
    · refine .inr ⟨width, rs2, he ▸ hs, ?_, ?_⟩
      · rw [commit_out, State.applyStore, memWrite_mmio he]; rfl
      · rw [commit_dmem, State.applyStore, memWrite_mmio he]; rfl
    · exact .inl ((commit_out ..).trans (memWrite_out_of_ne he _ _))

/-- Settles O36: of the shapes of a step only an instruction's can change the output, and there it is
the transmit store. -/
theorem outputGrowsOnlyByTransmitStore : Obligations.OutputGrowsOnlyByTransmitStore := by
  intro s t hstep
  cases step_next hstep with
  | terminal | fetchFault | beyond | noop => exact .inl rfl
  | instr w i hst hf _ hd _ hshape =>
    obtain hkept | ⟨width, rs2, hs, hout, hdmem⟩ := hshape.out
    · exact .inl hkept
    · obtain ⟨rs1, imm, hea, hi⟩ := storeOf_eq_some hs
      refine .inr ⟨w, rs2, rs1, imm, hst, hf, ?_, hea.symm, hout, hdmem⟩
      rw [hd]
      simpa only [Decoded.instr.injEq] using hi

end Sys2Proof.Machine
end

section
/-! PROOFS. No step changes what the fetch reads (spec 20_memory.md R55). -/

namespace Sys2Proof.Machine

/-- Every shape of an instruction's next state has the IMEM and the configuration it started with. -/
theorem ExecShape.imem_config {i : Instr} {s t : State} (h : ExecShape i s t) :
    t.imem = s.imem ∧ t.config = s.config := by
  cases h with
  | reg | pc | store =>
    obtain ⟨_, _, himem, hconfig⟩ := commit_control s _ _ _
    exact ⟨himem, hconfig⟩
  | fault | halt => exact ⟨rfl, rfl⟩

/-- R55: no step changes IMEM or the configuration. -/
theorem step_imem_config {s t : State} (h : step s = .next t) :
    t.imem = s.imem ∧ t.config = s.config := by
  cases step_next h with
  | terminal | fetchFault | beyond | noop => exact ⟨rfl, rfl⟩
  | instr _ _ _ _ _ _ _ hshape => exact hshape.imem_config

/-- R41: the fetch depends on the pc and IMEM only. -/
theorem fetch_congr {s t : State} (hpc : t.pc = s.pc) (himem : t.imem = s.imem) :
    t.fetch = s.fetch := by
  rw [State.fetch, State.fetch, hpc, himem]

/-- Settles O35: the fetch depends on the pc and IMEM, and a step keeps IMEM. -/
theorem noStepChangesWhatFetchReads : Obligations.NoStepChangesWhatFetchReads := by
  intro s t pc hstep
  obtain ⟨himem, hconfig⟩ := step_imem_config hstep
  exact ⟨himem, hconfig, fetch_congr rfl himem⟩

end Sys2Proof.Machine
end

section
/-! PROOFS. Only stores write data memory, and only their own bytes (spec 20_memory.md R46, R49). -/

namespace Sys2Proof.Machine

/-- R46: a store of bytes leaves every byte outside the stored ones as it read. -/
theorem readByte_writeBytes_of_ne (s : State) {addr : Word} (v : Word) {n : Nat} {a : Word}
    (ha : ∀ i : Nat, i < n → a ≠ addr + BitVec.ofNat 32 i) :
    (s.writeBytes addr v n).readByte a = s.readByte a := by
  induction n with
  | zero => rfl
  | succ n ih =>
    rw [State.writeBytes, readByte_writeByte_ne _ (ha n n.lt_succ_self)]
    exact ih fun i hi => ha i (Nat.lt_succ_of_lt hi)

/-- R216: the bytes after a commit are those its memory effect leaves. -/
theorem readByte_commit (s : State) (store : Option StoreEffect) (write : Option RegWrite)
    (nextPc a : Word) : (s.commit store write nextPc).readByte a = (s.applyStore store).readByte a := by
  obtain ⟨x, h⟩ := commit_eq_setX_setPc s store write nextPc
  rw [h]
  exact readByte_congr rfl rfl a

/-- R49, R257 to R259: the instructions that store, at their effective address, each with the number of
bytes it moves. -/
theorem storeOf_eq_some_bytes {i : Instr} {s : State} {width : Width} {rs2 : RegIdx} {ea : Word}
    (h : storeOf i s = some (width, rs2, ea)) :
    ∃ rs1 imm, ea = s.storeAddress rs1 imm ∧
      ((i = .sb rs2 rs1 imm ∧ width.bytes = 1) ∨ (i = .sh rs2 rs1 imm ∧ width.bytes = 2) ∨
        (i = .sw rs2 rs1 imm ∧ width.bytes = 4)) := by
  obtain ⟨rs1, imm, hea, hi⟩ := storeOf_eq_some h
  refine ⟨rs1, imm, hea, ?_⟩
  obtain rfl | rfl | rfl := hi
  · cases h; exact .inl ⟨rfl, rfl⟩
  · cases h; exact .inr (.inl ⟨rfl, rfl⟩)
  · cases h; exact .inr (.inr ⟨rfl, rfl⟩)

/-- An instruction leaves data memory as it was, or it is a store elsewhere than at MMIO_TX_ADDR, which
leaves every byte but its own as it read. -/
theorem ExecShape.dmem {i : Instr} {s t : State} (h : ExecShape i s t) :
    t.dmem = s.dmem ∨
    ∃ width rs2 ea, storeOf i s = some (width, rs2, ea) ∧ ea ≠ s.config.mmioTxAddr ∧
      ∀ a : Word, (∀ i : Nat, i < width.bytes → a ≠ ea + BitVec.ofNat 32 i) →
        t.readByte a = s.readByte a := by
  cases h with
  | reg => exact .inl (commit_dmem ..)
  | pc | fault | halt => exact .inl rfl
  | store width rs2 ea _ hs =>
    by_cases he : ea = s.config.mmioTxAddr
    · left
      rw [commit_dmem, State.applyStore, memWrite_mmio he]
      rfl
    · refine .inr ⟨width, rs2, ea, hs, he, fun a ha => ?_⟩
      rw [readByte_commit, State.applyStore, memWrite_memory he, readByte_writeBytes_of_ne s _ ha]

/-- Settles O37: of the shapes of a step only an instruction's can change data memory, and there it is
a store outside MMIO_TX_ADDR. -/
theorem onlyStoresWriteDataMemory : Obligations.OnlyStoresWriteDataMemory := by
  intro s t hstep
  cases step_next hstep with
  | terminal | fetchFault | beyond | noop => exact .inl rfl
  | instr w i hst hf _ hd _ hshape =>
    obtain hkept | ⟨width, rs2, ea, hs, hne, hframe⟩ := hshape.dmem
    · exact .inl hkept
    · obtain ⟨rs1, imm, rfl, hi⟩ := storeOf_eq_some_bytes hs
      refine .inr ⟨w, rs2, rs1, imm, width.bytes, hst, hf, ?_, hne, hframe⟩
      rw [hd]
      simpa only [Decoded.instr.injEq] using hi

end Sys2Proof.Machine
end

section
/-! PROOFS. Below DATA_BASE loads read 0 and stores are discarded (spec 20_memory.md R43, R45, R46). -/

namespace Sys2Proof.Machine

/-- R10: DATA_BASE is a multiple of 4, and MMIO_TX_ADDR lies below it. -/
theorem dataBase_mmio_of_valid {c : Config} (h : c.valid = true) :
    c.dataBase.toNat % 4 = 0 ∧ c.mmioTxAddr < c.dataBase := by
  simp only [Config.valid, Bool.and_eq_true, beq_iff_eq, BitVec.ult_iff_lt] at h
  obtain ⟨⟨hbase, hmmio⟩, _⟩ := h
  exact ⟨(low_bits_zero_iff _).mp hbase, hmmio⟩

/-- R43: no aligned word straddles DATA_BASE. -/
theorem word_below_dataBase {c : Config} (hc : c.valid = true) {ea : Word}
    (hlow : ea.extractLsb' 0 2 = 0#2) (hea : ea < c.dataBase) {i : Nat} (hi : i < 4) :
    ea + BitVec.ofNat 32 i < c.dataBase := by
  obtain ⟨hbase, _⟩ := dataBase_mmio_of_valid hc
  rw [BitVec.lt_def] at hea ⊢
  rw [toNat_add_of_word_aligned hlow hi]
  have := (low_bits_zero_iff ea).mp hlow
  omega

/-- R48: a word-aligned address is aligned for an access of every width. -/
theorem aligned_of_low_bits_zero {addr : Word} (h : addr.extractLsb' 0 2 = 0#2) (width : Width) :
    width.aligned addr = true :=
  Decidable.not_not.mp fun hn => low_bits_of_not_aligned hn h

theorem mapped_eq_false {s : State} {a : Word} (h : a < s.config.dataBase) : s.mapped a = false :=
  decide_eq_false (BitVec.not_le.mpr h)

/-- R45: an unmapped byte reads 0. -/
theorem readByte_unmapped {s : State} {a : Word} (h : a < s.config.dataBase) :
    s.readByte a = 0#8 := by
  simp [State.readByte, mapped_eq_false h]

/-- R46: a store of unmapped bytes is discarded whole. -/
theorem writeBytes_unmapped {s : State} {addr : Word} (v : Word) {n : Nat}
    (h : ∀ i : Nat, i < n → addr + BitVec.ofNat 32 i < s.config.dataBase) :
    s.writeBytes addr v n = s := by
  induction n with
  | zero => rfl
  | succ n ih =>
    rw [State.writeBytes, ih fun i hi => h i (Nat.lt_succ_of_lt hi)]
    simp [State.writeByte, mapped_eq_false (h n n.lt_succ_self)]

/-- A load at an address aligned for it writes rd with the value it reads, and falls through. -/
theorem loadWith_effect {width : Width} {s : State} {rs1 : RegIdx} {imm : BitVec 12}
    (h : width.aligned (s.loadAddress rs1 imm) = true) (value : State → Word → Word) (rd : RegIdx) :
    ∃ t, loadWith width value rd rs1 imm s = .next t ∧
      RegisterEffect s t rd (value s (s.loadAddress rs1 imm)) (s.pc + 4#32) :=
  ⟨_, loadWith_aligned h value rd, commitReg_effect ..⟩

section
variable {s : State} {rs1 : RegIdx} {imm : BitVec 12} (hc : s.config.valid = true)
  (hea : s.storeAddress rs1 imm < s.config.dataBase)
  (hlow : (s.storeAddress rs1 imm).extractLsb' 0 2 = 0#2)
include hc hea hlow

/-- R45: every load of an aligned unmapped word, or of bytes at its start, writes 0. -/
theorem exec_load_unmapped (rd : RegIdx) {i : Instr}
    (hi : i ∈ [Instr.lb rd rs1 imm, .lh rd rs1 imm, .lw rd rs1 imm, .lbu rd rs1 imm,
      .lhu rd rs1 imm]) :
    ∃ t, exec i s = .next t ∧ RegisterEffect s t rd 0#32 (s.pc + 4#32) := by
  have hbyte {i : Nat} (hi : i < 4) : s.readByte (s.loadAddress rs1 imm + BitVec.ofNat 32 i) = 0#8 :=
    readByte_unmapped (word_below_dataBase hc hlow hea hi)
  have h0 : s.readByte (s.loadAddress rs1 imm) = 0#8 := readByte_unmapped hea
  have h8 : s.memRead8 (s.loadAddress rs1 imm) = 0#8 := h0
  have h16 : s.memRead16 (s.loadAddress rs1 imm) = 0#16 := by
    rw [State.memRead16, h0, hbyte (i := 1) (by decide)]; rfl
  have h32 : s.memRead32 (s.loadAddress rs1 imm) = 0#32 := by
    rw [State.memRead32, h0, hbyte (i := 1) (by decide), hbyte (i := 2) (by decide),
      hbyte (i := 3) (by decide)]; rfl
  have hload (width : Width) (value : State → Word → Word)
      (hv : value s (s.loadAddress rs1 imm) = 0#32) :
      ∃ t, loadWith width value rd rs1 imm s = .next t ∧
        RegisterEffect s t rd 0#32 (s.pc + 4#32) :=
    hv ▸ loadWith_effect (aligned_of_low_bits_zero hlow width) value rd
  simp only [List.mem_cons, List.not_mem_nil, or_false] at hi
  obtain rfl | rfl | rfl | rfl | rfl := hi
  · rw [exec_lb]; exact hload _ _ (by rw [h8]; rfl)
  · rw [exec_lh]; exact hload _ _ (by rw [h16]; rfl)
  · rw [exec_lw]; exact hload _ _ h32
  · rw [exec_lbu]; exact hload _ _ (by rw [h8]; rfl)
  · rw [exec_lhu]; exact hload _ _ (by rw [h16]; rfl)

/-- R46: every store to an aligned unmapped word elsewhere than MMIO_TX_ADDR moves the pc only. -/
theorem exec_store_unmapped (hne : s.storeAddress rs1 imm ≠ s.config.mmioTxAddr) (rs2 : RegIdx)
    {i : Instr} (hi : i ∈ [Instr.sb rs2 rs1 imm, .sh rs2 rs1 imm, .sw rs2 rs1 imm]) :
    ∃ t, exec i s = .next t ∧ PcEffect s t (s.pc + 4#32) := by
  have hstore (width : Width) :
      ∃ t, storeWith width rs2 rs1 imm s = .next t ∧ PcEffect s t (s.pc + 4#32) := by
    have hbytes : width.bytes ≤ 4 := by cases width <;> decide
    have hdiscard :
        s.applyStore (some ⟨s.storeAddress rs1 imm, width.bytes, s.readReg rs2⟩) = s := by
      rw [State.applyStore, memWrite_memory hne]
      exact writeBytes_unmapped _ fun i hi =>
        word_below_dataBase hc hlow hea (Nat.lt_of_lt_of_le hi hbytes)
    refine ⟨_, storeWith_aligned (aligned_of_low_bits_zero hlow width) rs2, ?_⟩
    rw [State.commit, hdiscard]
    exact commitPc_effect s _
  simp only [List.mem_cons, List.not_mem_nil, or_false] at hi
  obtain rfl | rfl | rfl := hi
  · rw [exec_sb]; exact hstore .byte
  · rw [exec_sh]; exact hstore .half
  · rw [exec_sw]; exact hstore .word

end

/-- Settles O25: no byte of an aligned word below DATA_BASE is mapped, so what is read there is 0 and
what is stored there is discarded. -/
theorem unmappedAccessesReadZeroAndDiscard : Obligations.UnmappedAccessesReadZeroAndDiscard :=
  fun r _ _ _ hc hea hlow =>
    ⟨fun _ => exec_load_unmapped hc hea hlow r, fun hne _ => exec_store_unmapped hc hea hlow hne r⟩

end Sys2Proof.Machine
end

section
/-! PROOFS. Loads see the latest word store, least significant byte first (spec 20_memory.md R45, R47,
R52). -/

namespace Sys2Proof.Machine

/-- R46: byte i of a value, as a number. -/
theorem byteOf_toNat (v : Word) (i : Nat) : (byteOf v i).toNat = v.toNat / 2 ^ (8 * i) % 2 ^ 8 := by
  rw [byteOf, BitVec.extractLsb'_toNat, Nat.shiftRight_eq_div_pow]

/-- The next byte up starts 8 bits higher. -/
theorem div_byte_succ (n i : Nat) : n / 2 ^ (8 * (i + 1)) = n / 2 ^ (8 * i) / 2 ^ 8 := by
  rw [Nat.div_div_eq_div_mul, ← pow_add, Nat.mul_succ]

/-- R48: an even offset into an aligned word is aligned for a halfword. -/
theorem half_aligned_in_word {addr : Word} (h : addr.extractLsb' 0 2 = 0#2) {i : Nat} (hi : i < 4)
    (heven : i % 2 = 0) : Width.half.aligned (addr + BitVec.ofNat 32 i) = true := by
  have hmod := (low_bits_zero_iff addr).mp h
  rw [half_aligned_iff, BitVec.getLsbD, toNat_add_of_word_aligned h hi, Nat.testBit_zero,
    decide_eq_false_iff_not]
  omega

/-! ### The loads inside a word that holds v -/

/-- The four bytes from `addr` on read as the bytes of v, the least significant first (R47). -/
def HoldsWord (t : State) (addr v : Word) : Prop :=
  ∀ i : Nat, i < 4 → t.readByte (addr + BitVec.ofNat 32 i) = byteOf v i

theorem HoldsWord.readByte_toNat {t : State} {addr v : Word} (h : HoldsWord t addr v) {i : Nat}
    (hi : i < 4) :
    (t.readByte (addr + BitVec.ofNat 32 i)).toNat = v.toNat / 2 ^ (8 * i) % 2 ^ 8 := by
  rw [h i hi, byteOf_toNat]

theorem HoldsWord.memRead16_toNat {t : State} {addr v : Word} (h : HoldsWord t addr v) {i : Nat}
    (hi : i + 1 < 4) :
    (t.memRead16 (addr + BitVec.ofNat 32 i)).toNat = v.toNat / 2 ^ (8 * i) % 2 ^ 16 := by
  have hnext : addr + BitVec.ofNat 32 i + 1#32 = addr + BitVec.ofNat 32 (i + 1) := by
    rw [BitVec.ofNat_add, BitVec.add_assoc]
  rw [Machine.memRead16_toNat, hnext, h.readByte_toNat hi, h.readByte_toNat (by omega),
    div_byte_succ]
  omega

theorem HoldsWord.memRead32_eq {t : State} {addr v : Word} (h : HoldsWord t addr v) :
    t.memRead32 addr = v := by
  have h0 : (t.readByte addr).toNat = v.toNat % 2 ^ 8 := by
    simpa using h.readByte_toNat (i := 0) (by decide)
  have h1 := h.readByte_toNat (i := 1) (by decide)
  have h2 := h.readByte_toNat (i := 2) (by decide)
  have h3 := h.readByte_toNat (i := 3) (by decide)
  have := v.isLt
  apply BitVec.eq_of_toNat_eq
  rw [memRead32_toNat, h0, h1, h2, h3]
  omega

/-- R46, R47, R52: after a word store at an aligned mapped address, the word there is the value
stored. -/
theorem holdsWord_of_exec_sw {s t : State} {rs2 rs1 : RegIdx} {imm : BitVec 12}
    (hmem : s.dmem.wf = true) (hc : s.config.valid = true)
    (hea : s.config.dataBase ≤ s.storeAddress rs1 imm)
    (hlow : (s.storeAddress rs1 imm).extractLsb' 0 2 = 0#2)
    (hexec : exec (.sw rs2 rs1 imm) s = .next t) :
    HoldsWord t (s.storeAddress rs1 imm) (s.readReg rs2) := by
  obtain ⟨_, hmmio⟩ := dataBase_mmio_of_valid hc
  have hne : s.storeAddress rs1 imm ≠ s.config.mmioTxAddr :=
    fun he => BitVec.not_le.mpr hmmio (he ▸ hea)
  rw [exec_sw, storeWith_aligned ((word_aligned_iff _).mpr hlow)] at hexec
  cases hexec
  have heffect := commit_store_effect hmem (s.storeAddress rs1 imm) (Nat.le_refl 4) (s.readReg rs2)
  intro i hi
  have hmapped : s.config.dataBase ≤ s.storeAddress rs1 imm + BitVec.ofNat 32 i := by
    rw [BitVec.le_def] at hea ⊢
    rw [toNat_add_of_word_aligned hlow hi]
    omega
  exact (heffect.stored hne i hi).trans (if_pos hmapped)

/-- A load at an address aligned for it leaves the value it reads in rd, unless rd is x0. -/
theorem loadWith_readReg {width : Width} {t : State} {rb : RegIdx} {imm : BitVec 12} {rd : RegIdx}
    (h : width.aligned (t.loadAddress rb imm) = true) (hrd : rd ≠ 0#5)
    (value : State → Word → Word) :
    ∃ u, loadWith width value rd rb imm t = .next u ∧
      u.readReg rd = value t (t.loadAddress rb imm) := by
  obtain ⟨u, hu, heffect⟩ := loadWith_effect h value rd
  exact ⟨u, hu, (heffect.reg rd).trans (if_pos ⟨rfl, hrd⟩)⟩

/-- Settles O24: the store leaves the value's four bytes in its word, and each load puts together the
bytes it covers. -/
theorem loadsSeeLatestStoreLittleEndian : Obligations.LoadsSeeLatestStoreLittleEndian := by
  intro rs2 rs1 rd rb imm imm' s t i hmem hc hea hlow hexec hi haddr hrd
  have hword := holdsWord_of_exec_sw hmem hc hea hlow hexec
  refine ⟨?_, fun heven => ?_, fun hzero => ?_⟩
  · obtain ⟨u, hu, hreg⟩ := loadWith_readReg (width := .byte) (t := t) (rb := rb) (imm := imm') rfl
      hrd fun s ea => (s.memRead8 ea).setWidth 32
    refine ⟨u, (exec_lbu ..).trans hu, ?_⟩
    rw [hreg, BitVec.toNat_setWidth_of_le (by decide), haddr]
    exact hword.readByte_toNat hi
  · have halign := half_aligned_in_word hlow hi heven
    rw [← haddr] at halign
    obtain ⟨u, hu, hreg⟩ := loadWith_readReg halign hrd fun s ea => (s.memRead16 ea).setWidth 32
    refine ⟨u, (exec_lhu ..).trans hu, ?_⟩
    rw [hreg, BitVec.toNat_setWidth_of_le (by decide), haddr]
    exact hword.memRead16_toNat (by omega)
  · subst hzero
    rw [BitVec.add_zero] at haddr
    have halign := (word_aligned_iff _).mpr hlow
    rw [← haddr] at halign
    obtain ⟨u, hu, hreg⟩ := loadWith_readReg halign hrd fun s ea => s.memRead32 ea
    refine ⟨u, (exec_lw ..).trans hu, ?_⟩
    rw [hreg, haddr]
    exact hword.memRead32_eq

end Sys2Proof.Machine
end

section
/-! PROOFS. Decoder and encoder are inverse to each other, and a word of another major opcode is
unrecognised (spec 30_encoding.md R60 to R76). -/

namespace Sys2Proof

/-! ### The decoder on an encoded word -/

/-- R74: a branch of the full set is decoded where it exists. -/
theorem decodeFullBranch_of_available {bs : BranchSet} (h : (bs == .full) = true) (i : Instr) :
    decodeFullBranch bs i = .instr i := by
  rw [eq_of_beq h, decodeFullBranch]

/-- Settles O1: the opcode of the encoded word picks the decoder, its function fields pick the row
there, and the operand fields are the operands; JAL is the one instruction whose word must be told
from the halt sentinel. -/
theorem decodeOfEncodeGivesInstruction : Obligations.DecodeOfEncodeGivesInstruction := by
  intro bs i hwf hbs
  cases i with
  | halt => exact decode_haltWord bs
  | lui rd imm20 => simp [encode, decode_lui]
  | auipc rd imm20 => simp [encode, decode_auipc]
  | jal rd offset =>
    obtain ⟨heven, hne⟩ := Bool.and_eq_true_iff.mp hwf
    have hhalt := encodeJ_ne_haltWord heven (Bool.not_eq_true' _ |>.mp hne)
    simp [encode, decode_jal hhalt, jFieldOf_encodeJ _ _ heven]
  | jalr rd rs1 imm => simp [encode, decode_jalr, decodeJalr]
  | beq _ _ offset | bne _ _ offset =>
    simp [encode, decode_branch, decodeBranch, bFieldOf_encodeB _ _ _ _ hwf]
  | blt _ _ offset | bge _ _ offset | bltu _ _ offset | bgeu _ _ offset =>
    simp [encode, decode_branch, decodeBranch, bFieldOf_encodeB _ _ _ _ hwf,
      decodeFullBranch_of_available hbs]
  | lb | lh | lw | lbu | lhu => simp [encode, decode_load, decodeLoad]
  | sb | sh | sw => simp [encode, decode_store, decodeStore]
  | addi | slti | sltiu | xori | ori | andi | slli | srli | srai =>
    simp [encode, decode_opImm, decodeOpImm]
  | add | sub | sll | slt | sltu | xor | srl | sra | or | and
  | mul | mulh | mulhsu | mulhu | div | divu | rem | remu => simp [encode, decode_op, decodeOp]

/-! ### The encoder on a decoded word -/

/-- The word is the encoding of the instruction, which is well-formed and recognised under
BRANCH_SET. -/
def IsEncodingOf (bs : BranchSet) (w : Word) (i : Instr) : Prop :=
  encode i = w ∧ i.wellFormed = true ∧ i.mnemonic.availableIn bs = true

/-! The word put together from its fields, where the opcode and function fields are known. -/

section
variable {w : Word} {op : BitVec 7} {f3 : BitVec 3} {f7 : BitVec 7}
  (hop : opcodeOf w = op) (h3 : funct3Of w = f3)
include hop h3

theorem encodeR_of_fields (h7 : funct7Of w = f7) :
    encodeR f7 (rs2Of w) (rs1Of w) f3 (rdOf w) op = w := by
  rw [← hop, ← h3, ← h7, encodeR_fields]

theorem encodeI_of_fields : encodeI (iFieldOf w) (rs1Of w) f3 (rdOf w) op = w := by
  rw [← hop, ← h3, encodeI_fields]

theorem encodeS_of_fields : encodeS (sFieldOf w) (rs2Of w) (rs1Of w) f3 op = w := by
  rw [← hop, ← h3, encodeS_fields]

theorem encodeB_of_fields : encodeB (bFieldOf w) (rs2Of w) (rs1Of w) f3 op = w := by
  rw [← hop, ← h3, encodeB_fields]

end

/-! One lemma per decoder of a major opcode: in each of its branches the fields it matched on are
those the encoder writes. -/

section
variable {bs : BranchSet} {w : Word} {i : Instr}

theorem isEncodingOf_of_decodeOp (hop : opcodeOf w = 0b0110011#7) (h : decodeOp w = .instr i) :
    IsEncodingOf bs w i := by
  rw [decodeOp] at h
  split at h
  case h_19 => cases h
  all_goals next h7 h3 =>
    cases h
    exact ⟨encodeR_of_fields hop h3 h7, rfl, rfl⟩

theorem isEncodingOf_of_decodeOpImm (hop : opcodeOf w = 0b0010011#7)
    (h : decodeOpImm w = .instr i) : IsEncodingOf bs w i := by
  rw [decodeOpImm] at h
  split at h
  case h_7 h3 =>
    split at h
    case h_2 => cases h
    case h_1 h7 =>
      cases h
      exact ⟨encodeR_of_fields hop h3 h7, rfl, rfl⟩
  case h_8 h3 =>
    split at h
    case h_3 => cases h
    all_goals next h7 =>
      cases h
      exact ⟨encodeR_of_fields hop h3 h7, rfl, rfl⟩
  case h_9 => cases h
  all_goals next h3 =>
    cases h
    exact ⟨encodeI_of_fields hop h3, rfl, rfl⟩

theorem isEncodingOf_of_decodeLoad (hop : opcodeOf w = 0b0000011#7)
    (h : decodeLoad w = .instr i) : IsEncodingOf bs w i := by
  rw [decodeLoad] at h
  split at h
  case h_6 => cases h
  all_goals next h3 =>
    cases h
    exact ⟨encodeI_of_fields hop h3, rfl, rfl⟩

theorem isEncodingOf_of_decodeStore (hop : opcodeOf w = 0b0100011#7)
    (h : decodeStore w = .instr i) : IsEncodingOf bs w i := by
  rw [decodeStore] at h
  split at h
  case h_4 => cases h
  all_goals next h3 =>
    cases h
    exact ⟨encodeS_of_fields hop h3, rfl, rfl⟩

theorem isEncodingOf_of_decodeJalr (hop : opcodeOf w = 0b1100111#7)
    (h : decodeJalr w = .instr i) : IsEncodingOf bs w i := by
  rw [decodeJalr] at h
  split at h
  case h_2 => cases h
  case h_1 h3 =>
    cases h
    exact ⟨encodeI_of_fields hop h3, rfl, rfl⟩

/-- R74: a branch of the full set is decoded under FULL only. -/
theorem decodeFullBranch_eq_instr {j : Instr} (h : decodeFullBranch bs i = .instr j) :
    j = i ∧ bs = .full := by
  cases bs with
  | full => exact ⟨(Decoded.instr.inj h).symm, rfl⟩
  | eqNeOnly => cases h

theorem isEncodingOf_of_decodeBranch (hop : opcodeOf w = 0b1100011#7)
    (h : decodeBranch bs w = .instr i) : IsEncodingOf bs w i := by
  have heven := evenOffset_bFieldOf w
  rw [decodeBranch] at h
  split at h
  case h_7 => cases h
  case h_1 h3 | h_2 h3 =>
    cases h
    exact ⟨encodeB_of_fields hop h3, heven, rfl⟩
  all_goals next h3 =>
    obtain ⟨rfl, rfl⟩ := decodeFullBranch_eq_instr h
    exact ⟨encodeB_of_fields hop h3, heven, rfl⟩

/-- A JAL word of x0 and offset 0 is the halt sentinel (R213). -/
theorem isHaltSentinel_eq_false (hw : w ≠ haltWord) (hop : opcodeOf w = 0b1101111#7) :
    isHaltSentinel (rdOf w) (jFieldOf w) = false := by
  refine Bool.eq_false_iff.mpr fun h => hw ?_
  obtain ⟨hrd, hoffset⟩ := Bool.and_eq_true_iff.mp h
  rw [← encodeJ_fields w, hop, eq_of_beq hrd, eq_of_beq hoffset]
  rfl

end

/-- Settles O2: by the branch of the decoder that answered. Each read the opcode and the function
fields of the row it answers, and the rest of the word is its operands. -/
theorem encodeOfDecodeGivesWord : Obligations.EncodeOfDecodeGivesWord := by
  intro bs w i h
  change IsEncodingOf bs w i
  by_cases hhalt : w = haltWord
  · subst hhalt
    rw [decode_haltWord] at h
    cases h
    exact ⟨rfl, rfl, rfl⟩
  rw [decode, if_neg hhalt] at h
  split at h
  case h_1 hop | h_2 hop =>
    cases h
    exact ⟨by rw [encode, ← hop, encodeU_fields], rfl, rfl⟩
  case h_3 hop =>
    cases h
    refine ⟨by rw [encode, ← hop, encodeJ_fields], ?_, rfl⟩
    rw [Instr.wellFormed, evenOffset_jFieldOf, isHaltSentinel_eq_false hhalt hop]
    rfl
  case h_4 hop => exact isEncodingOf_of_decodeJalr hop h
  case h_5 hop => exact isEncodingOf_of_decodeBranch hop h
  case h_6 hop => exact isEncodingOf_of_decodeLoad hop h
  case h_7 hop => exact isEncodingOf_of_decodeStore hop h
  case h_8 hop => exact isEncodingOf_of_decodeOpImm hop h
  case h_9 hop => exact isEncodingOf_of_decodeOp hop h
  case h_10 => cases h

/-! ### Words of no major opcode -/

/-- R70, R75: the decoder reads no word of another major opcode. -/
theorem decode_of_no_majorOpcode (bs : BranchSet) {w : Word} (h : opcodeOf w ∉
    [0x37#7, 0x17#7, 0x6F#7, 0x67#7, 0x63#7, 0x03#7, 0x23#7, 0x13#7, 0x33#7]) :
    decode bs w = .unrecognised .majorOpcode := by
  have hhalt : w ≠ haltWord := ne_haltWord fun hop => h (by rw [hop]; decide)
  rw [decode, if_neg hhalt]
  split
  case h_10 => rfl
  all_goals next hop => exact absurd (by rw [hop]; decide) h

/-- R60: the bits [1:0] of every major opcode are 0b11. -/
theorem low_bits_of_majorOpcode {opcode : BitVec 7} (h : opcode ∈
    [0x37#7, 0x17#7, 0x6F#7, 0x67#7, 0x63#7, 0x03#7, 0x23#7, 0x13#7, 0x33#7]) :
    opcode.extractLsb' 0 2 = 0b11#2 := by
  revert opcode
  decide

theorem low_bits_opcodeOf (w : Word) : (opcodeOf w).extractLsb' 0 2 = w.extractLsb' 0 2 := by
  rw [opcodeOf, BitVec.extractLsb'_extractLsb'_of_le (by decide)]

/-- Settles O4: the nine major opcodes all end in 0b11, so a word that ends otherwise is of none. -/
theorem onlyNineMajorOpcodesAreRecognised : Obligations.OnlyNineMajorOpcodesAreRecognised :=
  ⟨fun bs _ h => decode_of_no_majorOpcode bs h, fun bs w h => decode_of_no_majorOpcode bs fun hop =>
    h ((low_bits_opcodeOf w).symm.trans (low_bits_of_majorOpcode hop))⟩

/-! ### Words of the spec's vectors -/

/-- Settles O6: the decoder evaluated on the twelve words. -/
theorem writtenOutWordsDecode : Obligations.WrittenOutWordsDecode := by
  unfold Obligations.WrittenOutWordsDecode
  decide

end Sys2Proof
end

section
/-! PROOFS. The decoder against the opcode table (spec 30_encoding.md R76). -/

namespace Sys2Proof

/-! ### The fields of a word of a row -/

section
variable {r : OpcodeRow} {w : Word} (h : r.matchesWord w = true)
include h

/-- Where the mask of a row is all ones, a word of the row has the row's bits. -/
theorem extractLsb'_of_matchesWord {start len : Nat}
    (hm : r.mask.extractLsb' start len = BitVec.allOnes len) :
    w.extractLsb' start len = r.pattern.extractLsb' start len := by
  rw [← eq_of_beq h, BitVec.extractLsb'_and, hm, BitVec.and_allOnes]

theorem opcodeOf_of_matchesWord (hm : opcodeOf r.mask = 0x7F#7) : opcodeOf w = opcodeOf r.pattern :=
  extractLsb'_of_matchesWord h hm

theorem funct3Of_of_matchesWord (hm : funct3Of r.mask = 0x7#3) :
    funct3Of w = funct3Of r.pattern :=
  extractLsb'_of_matchesWord h hm

theorem funct7Of_of_matchesWord (hm : funct7Of r.mask = 0x7F#7) :
    funct7Of w = funct7Of r.pattern :=
  extractLsb'_of_matchesWord h hm

end

/-! ### The decoder on a word of a row -/

/-- The mnemonic the decoder names, if it reads an instruction: the `op` output of its port (R69). -/
def namedBy (bs : BranchSet) (w : Word) : Option Mnemonic :=
  (decode bs w).toOption.map Instr.mnemonic

section
variable (bs : BranchSet) {w : Word}

theorem namedBy_of_opRow : ∀ r ∈ opRows ++ mduRows, r.matchesWord w = true →
    namedBy bs w = some r.mnemonic := by
  simp only [opRows, mduRows, List.cons_append, List.nil_append, List.forall_mem_cons,
    List.not_mem_nil, false_implies, implies_true, and_true]
  and_intros
  all_goals
    intro h
    rw [namedBy, decode_op (opcodeOf_of_matchesWord h rfl), decodeOp,
      funct7Of_of_matchesWord h rfl, funct3Of_of_matchesWord h rfl]
    rfl

theorem namedBy_of_opImmRow : ∀ r ∈ opImmRows, r.matchesWord w = true →
    namedBy bs w = some r.mnemonic := by
  simp only [opImmRows, List.forall_mem_cons,
    List.not_mem_nil, false_implies, implies_true, and_true]
  and_intros
  -- ADDI to ANDI, whose rows leave the funct7 bits to the immediate
  case _ | _ | _ | _ | _ | _ =>
    intro h
    rw [namedBy, decode_opImm (opcodeOf_of_matchesWord h rfl), decodeOpImm,
      funct3Of_of_matchesWord h rfl]
    rfl
  -- the shifts
  all_goals
    intro h
    rw [namedBy, decode_opImm (opcodeOf_of_matchesWord h rfl), decodeOpImm,
      funct3Of_of_matchesWord h rfl, funct7Of_of_matchesWord h rfl]
    rfl

theorem namedBy_of_memoryRow : ∀ r ∈ memoryRows, r.matchesWord w = true →
    namedBy bs w = some r.mnemonic := by
  simp only [memoryRows, List.forall_mem_cons,
    List.not_mem_nil, false_implies, implies_true, and_true]
  and_intros
  -- the loads
  case _ | _ | _ | _ | _ =>
    intro h
    rw [namedBy, decode_load (opcodeOf_of_matchesWord h rfl), decodeLoad,
      funct3Of_of_matchesWord h rfl]
    rfl
  -- the stores
  all_goals
    intro h
    rw [namedBy, decode_store (opcodeOf_of_matchesWord h rfl), decodeStore,
      funct3Of_of_matchesWord h rfl]
    rfl

theorem namedBy_of_transferRow (hhalt : w ≠ haltWord) : ∀ r ∈ transferRows,
    r.matchesWord w = true → r.mnemonic.availableIn bs = true → namedBy bs w = some r.mnemonic := by
  simp only [transferRows, List.forall_mem_cons,
    List.not_mem_nil, false_implies, implies_true, and_true]
  and_intros
  -- LUI
  case _ =>
    intro h _
    rw [namedBy, decode_lui (opcodeOf_of_matchesWord h rfl)]
    rfl
  -- AUIPC
  case _ =>
    intro h _
    rw [namedBy, decode_auipc (opcodeOf_of_matchesWord h rfl)]
    rfl
  -- JAL
  case _ =>
    intro h _
    rw [namedBy, decode_jal hhalt (opcodeOf_of_matchesWord h rfl)]
    rfl
  -- JALR
  case _ =>
    intro h _
    rw [namedBy, decode_jalr (opcodeOf_of_matchesWord h rfl), decodeJalr,
      funct3Of_of_matchesWord h rfl]
    rfl
  -- BEQ and BNE
  case _ | _ =>
    intro h _
    rw [namedBy, decode_branch (opcodeOf_of_matchesWord h rfl), decodeBranch,
      funct3Of_of_matchesWord h rfl]
    rfl
  -- the branches of the full set
  all_goals
    intro h hbs
    rw [namedBy, decode_branch (opcodeOf_of_matchesWord h rfl), decodeBranch,
      funct3Of_of_matchesWord h rfl]
    exact congrArg (·.toOption.map Instr.mnemonic) (decodeFullBranch_of_available hbs _)

/-- R76: the decoder names the row that matches, for every word but the halt sentinel. -/
theorem namedBy_of_row (hhalt : w ≠ haltWord) {r : OpcodeRow} (hr : r ∈ opcodeRows)
    (h : r.matchesWord w = true) (hbs : r.mnemonic.availableIn bs = true) :
    namedBy bs w = some r.mnemonic := by
  rw [opcodeRows, List.mem_append, List.mem_append, List.mem_append] at hr
  obtain ((hr | hr) | hr) | hr := hr
  · exact namedBy_of_opRow bs r hr h
  · exact namedBy_of_opImmRow bs r hr h
  · exact namedBy_of_transferRow bs hhalt r hr h hbs
  · exact namedBy_of_memoryRow bs r hr h

end

/-! ### The row of a decoded word -/

/-- Every instruction's encoding is of the row of its mnemonic. -/
theorem tableStatement (i : Instr) : Laws.Table.Statement i := by
  cases i with
  | add => exact Laws.Table.add ..
  | sub => exact Laws.Table.sub ..
  | sll => exact Laws.Table.sll ..
  | slt => exact Laws.Table.slt ..
  | sltu => exact Laws.Table.sltu ..
  | xor => exact Laws.Table.xor ..
  | srl => exact Laws.Table.srl ..
  | sra => exact Laws.Table.sra ..
  | or => exact Laws.Table.or ..
  | and => exact Laws.Table.and ..
  | addi => exact Laws.Table.addi ..
  | slti => exact Laws.Table.slti ..
  | sltiu => exact Laws.Table.sltiu ..
  | xori => exact Laws.Table.xori ..
  | ori => exact Laws.Table.ori ..
  | andi => exact Laws.Table.andi ..
  | slli => exact Laws.Table.slli ..
  | srli => exact Laws.Table.srli ..
  | srai => exact Laws.Table.srai ..
  | mul => exact Laws.Table.mul ..
  | mulh => exact Laws.Table.mulh ..
  | mulhsu => exact Laws.Table.mulhsu ..
  | mulhu => exact Laws.Table.mulhu ..
  | div => exact Laws.Table.div ..
  | divu => exact Laws.Table.divu ..
  | rem => exact Laws.Table.rem ..
  | remu => exact Laws.Table.remu ..
  | lui => exact Laws.Table.lui ..
  | auipc => exact Laws.Table.auipc ..
  | jal => exact Laws.Table.jal ..
  | jalr => exact Laws.Table.jalr ..
  | beq => exact Laws.Table.beq ..
  | bne => exact Laws.Table.bne ..
  | blt => exact Laws.Table.blt ..
  | bge => exact Laws.Table.bge ..
  | bltu => exact Laws.Table.bltu ..
  | bgeu => exact Laws.Table.bgeu ..
  | lb => exact Laws.Table.lb ..
  | lh => exact Laws.Table.lh ..
  | lw => exact Laws.Table.lw ..
  | lbu => exact Laws.Table.lbu ..
  | lhu => exact Laws.Table.lhu ..
  | sb => exact Laws.Table.sb ..
  | sh => exact Laws.Table.sh ..
  | sw => exact Laws.Table.sw ..
  | halt => exact Laws.Table.halt

/-- A word the decoder reads, but for the halt sentinel, is of a row recognised under BRANCH_SET. -/
theorem exists_row_of_decode {bs : BranchSet} {w : Word} {i : Instr} (hhalt : w ≠ haltWord)
    (h : decode bs w = .instr i) :
    ∃ r ∈ opcodeRows, r.matchesWord w = true ∧ r.mnemonic.availableIn bs = true := by
  obtain ⟨rfl, _, hbs⟩ := encodeOfDecodeGivesWord bs w i h
  obtain ⟨r, hr, hm, hmatch⟩ := tableStatement i
  rw [← hm] at hbs
  rcases hr with rfl | hr
  · rw [haltRow_matchesWord] at hmatch
    exact absurd (of_decide_eq_true hmatch) hhalt
  · exact ⟨r, hr, hmatch, hbs⟩

/-- R76: the decoder names what the table's priority names. -/
theorem namedBy_eq_opcodeLookup (bs : BranchSet) (w : Word) :
    namedBy bs w = opcodeLookup bs w := by
  rw [opcodeLookup, haltRow_matchesWord]
  by_cases hhalt : w = haltWord
  · rw [namedBy, hhalt, decode_haltWord]
    rfl
  rw [if_neg (by simpa using hhalt)]
  cases hfind : opcodeRows.find? fun r => r.matchesWord w && r.mnemonic.availableIn bs with
  | some r =>
    have hfound := List.find?_some hfind
    obtain ⟨hmatch, hbs⟩ := Bool.and_eq_true_iff.mp hfound
    exact namedBy_of_row bs hhalt (List.mem_of_find?_eq_some hfind) hmatch hbs
  | none =>
    rw [List.find?_eq_none] at hfind
    cases hd : decode bs w with
    | unrecognised why => rw [namedBy, hd]; rfl
    | instr i =>
      obtain ⟨r, hr, hmatch, hbs⟩ := exists_row_of_decode hhalt hd
      exact absurd (Bool.and_eq_true_iff.mpr ⟨hmatch, hbs⟩) (hfind r hr)

/-! ### Disjoint rows -/

/-- R74: under FULL every row is recognised. -/
theorem availableIn_full (m : Mnemonic) : m.availableIn .full = true := by
  cases m <;> rfl

/-- The rows are told apart by their mnemonics. -/
theorem row_eq_of_mnemonic_eq {r r' : OpcodeRow} (hr : r ∈ opcodeRows) (hr' : r' ∈ opcodeRows)
    (h : r.mnemonic = r'.mnemonic) : r = r' :=
  List.inj_on_of_nodup_map (f := OpcodeRow.mnemonic) (by decide) hr hr' h

/-- The halt sentinel is of no row but JAL's (R76). -/
theorem mnemonic_of_matchesWord_haltWord : ∀ r ∈ opcodeRows, r.matchesWord haltWord = true →
    r.mnemonic = .jal := by
  decide

theorem rows_disjoint {w : Word} {r r' : OpcodeRow} (hr : r ∈ opcodeRows) (hr' : r' ∈ opcodeRows)
    (h : r.matchesWord w = true) (h' : r'.matchesWord w = true) : r = r' := by
  refine row_eq_of_mnemonic_eq hr hr' ?_
  by_cases hhalt : w = haltWord
  · subst hhalt
    exact (mnemonic_of_matchesWord_haltWord r hr h).trans
      (mnemonic_of_matchesWord_haltWord r' hr' h').symm
  · exact Option.some.inj <| (namedBy_of_row .full hhalt hr h (availableIn_full _)).symm.trans
      (namedBy_of_row .full hhalt hr' h' (availableIn_full _))

/-- Settles O3: a matching row makes the decoder answer its mnemonic, and an instruction the decoder
answers has a matching row; two matching rows are one, since the decoder answers once. -/
theorem decoderFollowsOpcodeTablePriority : Obligations.DecoderFollowsOpcodeTablePriority :=
  ⟨namedBy_eq_opcodeLookup, fun _ _ _ => rows_disjoint,
    fun w => by rw [haltRow_matchesWord, decide_eq_true_iff, haltWord],
    ⟨.jal, 0x0000006F#32, 0x0000007F#32⟩, by decide, rfl, rfl⟩

end Sys2Proof
end

section
/-! PROOFS. The bits of the five immediates (spec 30_encoding.md R63 to R67). -/

namespace Sys2Proof

theorem getLsbD_iFieldOf (w : Word) {i : Nat} (hi : i < 12) :
    (iFieldOf w).getLsbD i = w.getLsbD (i + 20) := by
  rw [iFieldOf, BitVec.getLsbD_extractLsb', decide_eq_true hi, Bool.true_and, Nat.add_comm]

theorem getLsbD_uFieldOf (w : Word) {i : Nat} (hi : i < 20) :
    (uFieldOf w).getLsbD i = w.getLsbD (i + 12) := by
  rw [uFieldOf, BitVec.getLsbD_extractLsb', decide_eq_true hi, Bool.true_and, Nat.add_comm]

section
variable (w : Word) {i : Nat} (hi : i < 32)
include hi

/-- R12, R63: the bits above a field are its sign bit. -/
theorem getLsbD_immSext {n : Nat} (field : BitVec n) :
    (immSext field).getLsbD i = if i < n then field.getLsbD i else field.getLsbD (n - 1) := by
  rw [immSext, BitVec.getLsbD_signExtend, decide_eq_true hi, Bool.true_and,
    BitVec.msb_eq_getLsbD_last]

theorem getLsbD_immIOf :
    (immIOf w).getLsbD i = if i < 11 then w.getLsbD (i + 20) else w.getLsbD 31 := by
  rw [immIOf, getLsbD_immSext hi]
  rcases (by omega : i < 11 ∨ i = 11 ∨ 12 ≤ i) with h | rfl | h
  all_goals simp (disch := omega) only [if_pos, if_neg, getLsbD_iFieldOf]

theorem getLsbD_immSOf : (immSOf w).getLsbD i =
    if i < 5 then w.getLsbD (i + 7) else if i < 11 then w.getLsbD (i + 20) else w.getLsbD 31 := by
  rw [immSOf, getLsbD_immSext hi, getLsbD_sFieldOf, getLsbD_sFieldOf]
  rcases (by omega : i < 5 ∨ (5 ≤ i ∧ i < 11) ∨ i = 11 ∨ 12 ≤ i) with h | h | rfl | h
  all_goals simp (disch := omega) only [if_pos, if_neg]

theorem getLsbD_immBOf : (immBOf w).getLsbD i =
    if i = 0 then false else if i < 5 then w.getLsbD (i + 7)
    else if i < 11 then w.getLsbD (i + 20) else if i = 11 then w.getLsbD 7 else w.getLsbD 31 := by
  rw [immBOf, getLsbD_immSext hi, getLsbD_bFieldOf, getLsbD_bFieldOf]
  rcases (by omega : i = 0 ∨ (1 ≤ i ∧ i < 5) ∨ (5 ≤ i ∧ i < 11) ∨ i = 11 ∨ i = 12 ∨ 13 ≤ i) with
    rfl | h | h | rfl | rfl | h
  all_goals simp (disch := omega) only [if_pos, if_neg, if_true]

theorem getLsbD_immUOf : (immUOf w).getLsbD i = if i < 12 then false else w.getLsbD i := by
  rw [immUOf, immUpper, BitVec.getLsbD_append, BitVec.getLsbD_zero]
  by_cases h : i < 12
  · rw [if_pos h, if_pos h]
  · rw [if_neg h, if_neg h, getLsbD_uFieldOf w (by omega), Nat.sub_add_cancel (by omega)]

theorem getLsbD_immJOf : (immJOf w).getLsbD i =
    if i = 0 then false else if i < 11 then w.getLsbD (i + 20)
    else if i = 11 then w.getLsbD 20 else if i < 20 then w.getLsbD i else w.getLsbD 31 := by
  rw [immJOf, getLsbD_immSext hi, getLsbD_jFieldOf, getLsbD_jFieldOf]
  rcases (by omega : i = 0 ∨ (1 ≤ i ∧ i < 11) ∨ i = 11 ∨ (12 ≤ i ∧ i < 20) ∨ i = 20 ∨ 21 ≤ i) with
    rfl | h | rfl | h | rfl | h
  all_goals simp (disch := omega) only [if_pos, if_neg, if_true]

end

/-- Settles O5: the bits of each field, sign-extended or, for U, above twelve zeros. -/
theorem immediateBitsComeFromTheirPlaces : Obligations.ImmediateBitsComeFromTheirPlaces :=
  fun w _ hi => ⟨getLsbD_immIOf w hi, getLsbD_immSOf w hi, getLsbD_immBOf w hi,
    getLsbD_immUOf w hi, getLsbD_immJOf w hi⟩

end Sys2Proof
end

section
/-! PROOFS. The expansion of LI (spec 30_encoding.md R79): the constant put together from its split,
and the registers after the one or two instructions. -/

namespace Sys2Proof.Machine

/-! ### The split of a constant -/

theorem toNat_lo12 (imm : Word) : (lo12 imm).toNat = imm.toNat % 4096 := by
  rw [lo12, BitVec.extractLsb'_toNat, Nat.shiftRight_zero]

theorem toInt_immSext_lo12 (imm : Word) : (immSext (lo12 imm)).toInt = imm.toInt.bmod 4096 := by
  rw [immSext, BitVec.toInt_signExtend_of_le (by decide), BitVec.toInt_eq_toNat_bmod, toNat_lo12,
    BitVec.toInt_eq_toNat_bmod, Int.bmod_bmod_of_dvd (by decide), Int.natCast_mod]
  exact Int.emod_bmod _ 4096

/-- R79: the sign-extended low 12 bits are the constant where it lies in the range of ADDI. -/
theorem immSext_lo12_eq_iff (imm : Word) :
    immSext (lo12 imm) = imm ↔ -2048 ≤ imm.toInt ∧ imm.toInt ≤ 2047 := by
  rw [← BitVec.toInt_inj, toInt_immSext_lo12, Int.bmod_eq_iff (by decide)]
  omega

theorem toNat_immSext_lo12_mod (imm : Word) :
    (immSext (lo12 imm)).toNat % 4096 = imm.toNat % 4096 := by
  rw [immSext, BitVec.toNat_signExtend, BitVec.toNat_setWidth, toNat_lo12]
  split <;> omega

theorem lo12_sub_immSext_lo12 (imm : Word) : lo12 (imm - immSext (lo12 imm)) = 0#12 := by
  have hmod := toNat_immSext_lo12_mod imm
  apply BitVec.eq_of_toNat_eq
  rw [toNat_lo12, BitVec.toNat_sub]
  simp only [BitVec.toNat_ofNat]
  omega

/-- R66: a word without low 12 bits is the U-immediate of its upper 20. -/
theorem immUpper_of_lo12_eq_zero {x : Word} (h : lo12 x = 0#12) :
    immUpper (x.extractLsb' 12 20) = x := by
  rw [immUpper, ← h]
  exact BitVec.extractLsb'_append_extractLsb'

/-- R79: the two parts of the split add up to the constant. -/
theorem immUpper_hi20_add (imm : Word) : immUpper (hi20 imm) + immSext (lo12 imm) = imm := by
  rw [hi20, immUpper_of_lo12_eq_zero (lo12_sub_immSext_lo12 imm), BitVec.sub_add_cancel]

/-! ### The expansion -/

/-- R79: which of its two forms the expansion has. -/
theorem pseudoLi_forms (rd : RegIdx) (imm : Word) :
    (pseudoLi rd imm = [.addi rd 0#5 (lo12 imm)] ∧ -2048 ≤ imm.toInt ∧ imm.toInt ≤ 2047) ∨
      (pseudoLi rd imm = [.lui rd (hi20 imm), .addi rd rd (lo12 imm)] ∧
        ¬ (-2048 ≤ imm.toInt ∧ imm.toInt ≤ 2047)) := by
  rw [← immSext_lo12_eq_iff, pseudoLi]
  by_cases h : immSext (lo12 imm) = imm
  · exact .inl ⟨if_pos h, h⟩
  · exact .inr ⟨if_neg h, h⟩

/-- R123: ADDI writes the sum of its source register and its immediate. -/
theorem exec_addi_regWritten (rd rs1 : RegIdx) (imm : BitVec 12) (s : State) :
    ∃ t, exec (.addi rd rs1 imm) s = .next t ∧ RegWritten s t rd (s.readReg rs1 + immSext imm) := by
  refine ⟨_, exec_addi .., ?_⟩
  rw [alu_r]
  exact (commitReg_effect ..).reg

/-- R231: LUI writes its U-immediate. -/
theorem exec_lui_regWritten (rd : RegIdx) (imm20 : BitVec 20) (s : State) :
    ∃ t, exec (.lui rd imm20) s = .next t ∧ RegWritten s t rd (immUpper imm20) :=
  ⟨_, exec_lui .., (commitReg_effect ..).reg⟩

/-- A register written twice holds the second value, and every other register is as before both. -/
theorem RegWritten.trans {s t u : State} {rd : RegIdx} {v v' : Word} (h : RegWritten s t rd v)
    (h' : RegWritten t u rd v') : RegWritten s u rd v' := by
  intro r
  rw [h' r, h r]
  split <;> rfl

/-- Settles O60: LUI leaves the upper part of the split in rd, and ADDI adds the lower part to it, or
to x0 where the lower part is the constant. -/
theorem loadImmediateExpansionWritesConstant :
    Obligations.LoadImmediateExpansionWritesConstant := by
  intro rd imm s
  refine ⟨pseudoLi_forms rd imm, fun hrd => ?_, fun hlow hhigh => ?_⟩
  · obtain ⟨t, ht, hlui⟩ := exec_lui_regWritten rd (hi20 imm) s
    obtain ⟨u, hu, haddi⟩ := exec_addi_regWritten rd rd (lo12 imm) t
    have hupper : t.readReg rd = immUpper (hi20 imm) := (hlui rd).trans (if_pos ⟨rfl, hrd⟩)
    rw [hupper, immUpper_hi20_add] at haddi
    exact ⟨t, u, ht, hu, hlui.trans haddi⟩
  · obtain ⟨t, ht, haddi⟩ := exec_addi_regWritten rd 0#5 (lo12 imm) s
    rw [readReg_zero, BitVec.zero_add, (immSext_lo12_eq_iff imm).mpr ⟨hlow, hhigh⟩] at haddi
    exact ⟨t, ht, haddi⟩

end Sys2Proof.Machine
end

section
/-! PROOFS. The ripple adder's carry chain, and negation and subtraction on it (spec
40_adder_shifter.md R83, R84, R86). -/

namespace Sys2Proof.Machine

/-! ### The carry chain -/

/-- The carry into position i of `rippleAdd`: the carry out of the full adder below it (R83). -/
def carryInto {w : Nat} (a b : BitVec w) (cin : Bool) : Nat → Bool
  | 0 => cin
  | i + 1 => fullCarry (a.getLsbD i) (b.getLsbD i) (carryInto a b cin i)

theorem carryInto_succ {w : Nat} (a b : BitVec w) (cin : Bool) (i : Nat) :
    carryInto a b cin (i + 1) = fullCarry (a.getLsbD i) (b.getLsbD i) (carryInto a b cin i) := rfl

theorem getLsbD_extractLsb'_one {w : Nat} (a : BitVec (w + 1)) (i : Nat) :
    (a.extractLsb' 1 w).getLsbD i = a.getLsbD (i + 1) := by
  rw [BitVec.getLsbD_extractLsb', Nat.add_comm 1 i]
  by_cases hi : i < w
  · simp [hi]
  · simp [hi, BitVec.getLsbD_of_ge a (i + 1) (by omega)]

/-- The chain over the operands without their lowest bit, begun with the carry out of that bit, is the
chain over the whole operands from position 1 on. -/
theorem carryInto_extractLsb'_one {w : Nat} (a b : BitVec (w + 1)) (cin : Bool) (i : Nat) :
    carryInto (a.extractLsb' 1 w) (b.extractLsb' 1 w)
      (fullCarry (a.getLsbD 0) (b.getLsbD 0) cin) i = carryInto a b cin (i + 1) := by
  induction i with
  | zero => rfl
  | succ i ih =>
    rw [carryInto_succ, ih, getLsbD_extractLsb'_one, getLsbD_extractLsb'_one,
      carryInto_succ a b cin (i + 1)]

theorem rippleAdd_fst_getLsbD : ∀ {w : Nat} (a b : BitVec w) (cin : Bool) {i : Nat}, i < w →
    (rippleAdd w a b cin).1.getLsbD i = fullSum (a.getLsbD i) (b.getLsbD i) (carryInto a b cin i)
  | 0, _, _, _, _, hi => absurd hi (Nat.not_lt_zero _)
  | w + 1, a, b, cin, 0, _ => by rw [rippleAdd, BitVec.getLsbD_concat_zero, carryInto]
  | w + 1, a, b, cin, i + 1, hi => by
    rw [rippleAdd, BitVec.getLsbD_concat_succ,
      rippleAdd_fst_getLsbD _ _ _ (Nat.lt_of_succ_lt_succ hi), carryInto_extractLsb'_one,
      getLsbD_extractLsb'_one, getLsbD_extractLsb'_one]

theorem rippleAdd_snd_eq_carryInto : ∀ {w : Nat} (a b : BitVec w) (cin : Bool),
    (rippleAdd w a b cin).2 = carryInto a b cin w
  | 0, _, _, _ => rfl
  | w + 1, a, b, cin => by
    rw [rippleAdd, rippleAdd_snd_eq_carryInto, carryInto_extractLsb'_one]

/-! ### The subtractor -/

/-- R86: the subtractor's difference and carry out together. -/
theorem rippleSub_eq {w : Nat} (a b : BitVec w) :
    rippleSub a b = (a - b, decide (b.toNat ≤ a.toNat)) :=
  Prod.ext (rippleSub_fst a b) (rippleSub_snd a b)

/-- All ones plus all ones plus 1 is the subtraction of 0 from all ones. -/
theorem rippleAdd_allOnes (w : Nat) :
    rippleAdd w (BitVec.allOnes w) (BitVec.allOnes w) true = (BitVec.allOnes w, true) :=
  calc rippleAdd w (BitVec.allOnes w) (BitVec.allOnes w) true
    _ = rippleSub (BitVec.allOnes w) 0#w := by rw [rippleSub, BitVec.not_zero]
    _ = (BitVec.allOnes w, true) := by simp [rippleSub_eq]

/-- Settles O40: the carry sequence is the chain of full adders that the recursion goes through. -/
theorem rippleAdderIsExact : Obligations.RippleAdderIsExact :=
  ⟨fun _ a b cin => ⟨carryInto a b cin, rfl,
      fun i hi => ⟨rippleAdd_fst_getLsbD a b cin hi, carryInto_succ a b cin i⟩,
      rippleAdd_snd_eq_carryInto a b cin⟩,
    rippleAdd_exact, rippleAdd_allOnes⟩

/-- Settles O41: negation is `-b`, and the subtractor's outputs are `a - b` and the comparison. -/
theorem negationAndSubtractionAreModular : Obligations.NegationAndSubtractionAreModular := by
  refine ⟨fun w b => ⟨rfl, ?_⟩, fun w a b => ⟨rfl, ?_, ?_⟩, ?_⟩
  · rw [negate_eq, BitVec.toNat_neg]
  · rw [rippleSub_fst, rippleAdd_false_fst, negate_eq, BitVec.sub_eq_add_neg]
  · rw [rippleSub_snd, decide_eq_true_iff]
  · simp only [negate_eq, rippleSub_eq]
    decide

end Sys2Proof.Machine
end

section
/-! PROOFS. The shifter, bit by bit and as integers (spec 40_adder_shifter.md R88 to R90). -/

namespace Sys2Proof.Machine

/-! ### Where each bit comes from -/

theorem getLsbD_shiftLeft (a : Word) (sh : BitVec 5) {i : Nat} (hi : i < 32) :
    (shiftLeft a sh).getLsbD i = if sh.toNat ≤ i then a.getLsbD (i - sh.toNat) else false := by
  rw [shiftLeft, BitVec.getLsbD_shiftLeft]
  by_cases h : sh.toNat ≤ i
  · simp [hi, h]
  · simp [h, Nat.lt_of_not_le h]

theorem getLsbD_shiftRightLogical (a : Word) (sh : BitVec 5) (i : Nat) :
    (shiftRightLogical a sh).getLsbD i =
      if i + sh.toNat ≤ 31 then a.getLsbD (i + sh.toNat) else false := by
  rw [shiftRightLogical, BitVec.getLsbD_ushiftRight, Nat.add_comm]
  split
  · rfl
  · exact BitVec.getLsbD_of_ge a _ (by omega)

theorem getLsbD_shiftRightArith (a : Word) (sh : BitVec 5) {i : Nat} (hi : i < 32) :
    (shiftRightArith a sh).getLsbD i =
      if i + sh.toNat ≤ 31 then a.getLsbD (i + sh.toNat) else a.getLsbD 31 := by
  have hlow : ¬ 32 ≤ i := Nat.not_le.mpr hi
  simp only [shiftRightArith, BitVec.getLsbD_sshiftRight, hlow, decide_false, Bool.not_false,
    Bool.true_and, BitVec.msb_eq_getLsbD_last, Nat.add_comm sh.toNat i, Nat.lt_succ_iff]

/-! ### The values -/

theorem toNat_shiftLeft (a : Word) (sh : BitVec 5) :
    (shiftLeft a sh).toNat = a.toNat * 2 ^ sh.toNat % 2 ^ 32 := by
  rw [shiftLeft, BitVec.toNat_shiftLeft, Nat.shiftLeft_eq]

theorem toNat_shiftRightLogical (a : Word) (sh : BitVec 5) :
    (shiftRightLogical a sh).toNat = a.toNat / 2 ^ sh.toNat := by
  rw [shiftRightLogical, BitVec.toNat_ushiftRight, Nat.shiftRight_eq_div_pow]

/-- `/` on `Int` rounds to minus infinity where the divisor is positive. -/
theorem toInt_shiftRightArith (a : Word) (sh : BitVec 5) :
    (shiftRightArith a sh).toInt = a.toInt / 2 ^ sh.toNat := by
  rw [shiftRightArith, BitVec.toInt_sshiftRight, Int.shiftRight_eq_div_pow, Nat.cast_pow,
    Nat.cast_ofNat]

/-- Settles O42, by the source of each bit and by the value of each shift. -/
theorem shifterMovesBits : Obligations.ShifterMovesBits := fun a sh =>
  ⟨fun i hi => ⟨getLsbD_shiftLeft a sh hi, getLsbD_shiftRightLogical a sh i,
      getLsbD_shiftRightArith a sh hi⟩,
    toNat_shiftLeft a sh, toNat_shiftRightLogical a sh, toInt_shiftRightArith a sh⟩

end Sys2Proof.Machine
end

section
/-! PROOFS. The integer ALU instructions (spec 41_integer_alu.md R112 to R131): each decodes from
its word, writes the value of its ALU operation and leaves the rest of the state alone. -/

namespace Sys2Proof.Machine

/-! ### The shared frame -/

/-- R112: an instruction that commits the value `w` to rd has the frame of a register write. -/
theorem exec_writes {i : Instr} {s : State} {rd : RegIdx} {w v : Word}
    (hexec : exec i s = .next (s.commitReg rd w)) (hv : w = v) :
    ∃ t, exec i s = .next t ∧ RegisterEffect s t rd v (s.pc + 4#32) := by
  subst hv
  exact ⟨_, hexec, commitReg_effect s rd w⟩

/-- R214: a step on an unrecognised word moves the pc by 4 and changes nothing else. -/
theorem step_unrecognised {s : State} {w : Word} {why : Unrecognised} (hst : s.status = .running)
    (hf : s.fetch = .word w) (hd : decode s.config.branchSet w = .unrecognised why) :
    ∃ t, step s = .next t ∧ PcEffect s t (s.pc + 4#32) :=
  ⟨s.unrecognised, by rw [step_word hst hf, hd, runDecoded], commitPc_effect s _⟩

/-! ### The second operand -/

/-- R63: the sign-extended field stands for the field's signed value. -/
theorem immOperand_eq_ofInt (imm : BitVec 12) : immOperand imm = BitVec.ofInt 32 imm.toInt := rfl

theorem toInt_immOperand (imm : BitVec 12) : (immOperand imm).toInt = imm.toInt :=
  BitVec.toInt_signExtend_of_le (by decide)

/-- R91: the shift amount of a second operand is its value modulo 32. -/
theorem toNat_shiftAmount (b : Word) : (shiftAmount b).toNat = b.toNat % 32 :=
  BitVec.extractLsb'_toNat ..

/-- R68: the amount of an immediate shift is in range, so reading it modulo 32 changes nothing. -/
theorem toNat_shamtOperand_mod (shamt : BitVec 5) :
    (shamtOperand shamt).toNat % 32 = shamt.toNat := by
  rw [shamtOperand, BitVec.toNat_setWidth_of_le (by decide), Nat.mod_eq_of_lt shamt.isLt]

/-! ### The shifts as integer arithmetic -/

/-- R107: SLL multiplies by 2^n modulo 2^32. -/
theorem alu_sll_r (a b : Word) :
    (alu .sll a b).r = BitVec.ofNat 32 (a.toNat * 2 ^ (b.toNat % 32)) := by
  apply BitVec.eq_of_toNat_eq
  rw [BitVec.toNat_ofNat, ← toNat_shiftAmount]
  exact toNat_shiftLeft a _

/-- R108: SRL is the unsigned quotient by 2^n. -/
theorem alu_srl_r (a b : Word) :
    (alu .srl a b).r = BitVec.ofNat 32 (a.toNat / 2 ^ (b.toNat % 32)) := by
  rw [← toNat_shiftAmount, ← toNat_shiftRightLogical, BitVec.ofNat_toNat, BitVec.setWidth_eq]
  rfl

/-- R109: SRA is the signed quotient by 2^n, rounded to minus infinity. -/
theorem alu_sra_r (a b : Word) :
    (alu .sra a b).r = BitVec.ofInt 32 (a.toInt / 2 ^ (b.toNat % 32)) := by
  rw [← toNat_shiftAmount, ← toInt_shiftRightArith, BitVec.ofInt_toInt]
  rfl

/-! ### Shift words of no row -/

section
variable (bs : BranchSet) {f : BitVec 7} (shamt : BitVec 5) (rs1 rd : RegIdx)

/-- R72: a left-shift word of OP-IMM whose upper bits are not 0. -/
theorem decode_opImm_leftShift_unrecognised (hf : f ≠ 0b0000000#7) :
    decode bs (encodeR f shamt rs1 0b001#3 rd 0b0010011#7) = .unrecognised .opImmFunction := by
  -- the hypotheses on f rule out the listed rows, so the match falls through to its last branch
  simp only [decode_opImm (opcodeOf_encodeR ..), decodeOpImm, funct3Of_encodeR, funct7Of_encodeR]

/-- R72: a right-shift word of OP-IMM whose upper bits are those of neither SRLI nor SRAI. -/
theorem decode_opImm_rightShift_unrecognised (hf : f ≠ 0b0000000#7) (hf' : f ≠ 0b0100000#7) :
    decode bs (encodeR f shamt rs1 0b101#3 rd 0b0010011#7) = .unrecognised .opImmFunction := by
  -- the hypotheses on f rule out the listed rows, so the match falls through to its last branch
  simp only [decode_opImm (opcodeOf_encodeR ..), decodeOpImm, funct3Of_encodeR, funct7Of_encodeR]

end

/-! ### Register-register instructions -/

/-- Settles O7: each word is the instruction's encoding, and the ALU computes `+` and `-`. -/
theorem addSubWriteWrappedSum : Obligations.AddSubWriteWrappedSum := fun bs rd rs1 rs2 _ =>
  ⟨decodeOfEncodeGivesInstruction bs (.add rd rs1 rs2) rfl rfl,
    decodeOfEncodeGivesInstruction bs (.sub rd rs1 rs2) rfl rfl,
    exec_writes (exec_add ..) (alu_r ..),
    exec_writes (exec_sub ..) (alu_r ..)⟩

/-- Settles O8: the three words are encodings, and the ALU computes the operation of `BitVec`. -/
theorem logicOpsWriteBitwiseResult : Obligations.LogicOpsWriteBitwiseResult :=
  fun bs rd rs1 rs2 _ =>
  ⟨decodeOfEncodeGivesInstruction bs (.xor rd rs1 rs2) rfl rfl,
    decodeOfEncodeGivesInstruction bs (.or rd rs1 rs2) rfl rfl,
    decodeOfEncodeGivesInstruction bs (.and rd rs1 rs2) rfl rfl,
    exec_writes (exec_xor ..) (alu_r ..),
    exec_writes (exec_or ..) (alu_r ..),
    exec_writes (exec_and ..) (alu_r ..)⟩

/-- Settles O9: the ALU reads the amount modulo 32, and its shifts are products and quotients. -/
theorem registerShiftsWriteShiftedValue : Obligations.RegisterShiftsWriteShiftedValue :=
  fun bs rd rs1 rs2 _ =>
  ⟨decodeOfEncodeGivesInstruction bs (.sll rd rs1 rs2) rfl rfl,
    decodeOfEncodeGivesInstruction bs (.srl rd rs1 rs2) rfl rfl,
    decodeOfEncodeGivesInstruction bs (.sra rd rs1 rs2) rfl rfl,
    exec_writes (exec_sll ..) (alu_sll_r ..),
    exec_writes (exec_srl ..) (alu_srl_r ..),
    exec_writes (exec_sra ..) (alu_sra_r ..)⟩

/-- Settles O10: N xor V of the subtraction is the signed order, a borrow the unsigned one. -/
theorem comparesWriteOneOrZero : Obligations.ComparesWriteOneOrZero := fun bs rd rs1 rs2 _ =>
  ⟨decodeOfEncodeGivesInstruction bs (.slt rd rs1 rs2) rfl rfl,
    decodeOfEncodeGivesInstruction bs (.sltu rd rs1 rs2) rfl rfl,
    exec_writes (exec_slt ..) (aluSlt_r ..),
    exec_writes (exec_sltu ..) (aluSltu_r ..)⟩

/-! ### Register-immediate instructions -/

/-- Settles O11: the operations of ADD, XOR, OR and AND with the sign-extended field for x[rs2]. -/
theorem immediateArithmeticUsesSignedImmediate :
    Obligations.ImmediateArithmeticUsesSignedImmediate := fun bs rd rs1 imm s =>
  ⟨decodeOfEncodeGivesInstruction bs (.addi rd rs1 imm) rfl rfl,
    decodeOfEncodeGivesInstruction bs (.xori rd rs1 imm) rfl rfl,
    decodeOfEncodeGivesInstruction bs (.ori rd rs1 imm) rfl rfl,
    decodeOfEncodeGivesInstruction bs (.andi rd rs1 imm) rfl rfl,
    exec_writes (exec_addi ..) (by rw [alu_r, immOperand_eq_ofInt]),
    exec_writes (exec_xori ..) (by rw [alu_r, immOperand_eq_ofInt]),
    exec_writes (exec_ori ..) (by rw [alu_r, immOperand_eq_ofInt]),
    exec_writes (exec_andi ..) (by rw [alu_r, immOperand_eq_ofInt])⟩

/-- Settles O12: the comparisons of SLT and SLTU against the sign-extended field, which as signed is
the field's own value. -/
theorem immediateComparesWriteOneOrZero : Obligations.ImmediateComparesWriteOneOrZero :=
  fun bs rd rs1 imm s =>
  ⟨decodeOfEncodeGivesInstruction bs (.slti rd rs1 imm) rfl rfl,
    decodeOfEncodeGivesInstruction bs (.sltiu rd rs1 imm) rfl rfl,
    exec_writes (exec_slti ..) (by rw [alu_r, toInt_immOperand]),
    exec_writes (exec_sltiu ..) (by rw [alu_r, immOperand_eq_ofInt])⟩

/-- Settles O13: the shifts are those of SLL, SRL and SRA with an amount below 32, and a shift word of
no row is unrecognised, so a step on it is the no-op. -/
theorem immediateShiftsWriteShiftedValue : Obligations.ImmediateShiftsWriteShiftedValue := by
  intro bs rd rs1 shamt f s
  refine ⟨decodeOfEncodeGivesInstruction bs (.slli rd rs1 shamt) rfl rfl,
    decodeOfEncodeGivesInstruction bs (.srli rd rs1 shamt) rfl rfl,
    decodeOfEncodeGivesInstruction bs (.srai rd rs1 shamt) rfl rfl,
    decode_opImm_leftShift_unrecognised bs shamt rs1 rd,
    decode_opImm_rightShift_unrecognised bs shamt rs1 rd, ?_,
    exec_writes (exec_slli ..) (by rw [alu_sll_r, toNat_shamtOperand_mod]),
    exec_writes (exec_srli ..) (by rw [alu_srl_r, toNat_shamtOperand_mod]),
    exec_writes (exec_srai ..) (by rw [alu_sra_r, toNat_shamtOperand_mod])⟩
  rintro hst hf (hfetch | ⟨hf', hfetch⟩)
  · exact step_unrecognised hst hfetch (decode_opImm_leftShift_unrecognised _ _ _ _ hf)
  · exact step_unrecognised hst hfetch (decode_opImm_rightShift_unrecognised _ _ _ _ hf hf')

end Sys2Proof.Machine
end

section
/-! PROOFS. The flags of the ALU (spec 41_integer_alu.md R101 to R103). -/

namespace Sys2Proof.Machine

/-! ### The records of the operations -/

/-- R101: the record of every operation is `aluFlags` of its result, for some C and V. -/
theorem alu_flags_eq_aluFlags (op : AluOp) (a b : Word) :
    ∃ c v, (alu op a b).flags = aluFlags (alu op a b).r c v := by
  cases op with
  | add | sub | and | or | xor | sll | srl | sra | slt | sltu => exact ⟨_, _, rfl⟩

/-- R101, D17: the operations but ADD and SUB leave C and V 0. -/
theorem alu_flags_of_ne (a b : Word) {op : AluOp} (hadd : op ≠ .add) (hsub : op ≠ .sub) :
    (alu op a b).flags = aluFlagsPlain (alu op a b).r := by
  cases op with
  | add => exact absurd rfl hadd
  | sub => exact absurd rfl hsub
  | and | or | xor | sll | srl | sra | slt | sltu => rfl

/-- R102: C of ADD is the adder's carry out. -/
theorem aluAdd_flags (a b : Word) : (aluAdd a b).flags =
    aluFlags (a + b) (decide (2 ^ 32 ≤ a.toNat + b.toNat)) (addOverflow a b (a + b)) := by
  rw [← rippleAdd_false_fst, ← rippleAdd_false_snd, aluAdd]

/-- R103: C of SUB is the subtractor's carry out. -/
theorem aluSub_flags (a b : Word) : (aluSub a b).flags =
    aluFlags (a - b) (decide (b.toNat ≤ a.toNat)) (subOverflow a b (a - b)) := by
  rw [← rippleSub_fst, ← rippleSub_snd, aluSub]

/-! ### V as signed overflow -/

theorem addOverflow_iff (a b r : Word) : addOverflow a b r = true ↔
    a.getLsbD 31 = b.getLsbD 31 ∧ r.getLsbD 31 ≠ a.getLsbD 31 := by
  rw [addOverflow, Bool.and_eq_true, beq_iff_eq, bne_iff_ne]

theorem subOverflow_iff (a b r : Word) : subOverflow a b r = true ↔
    a.getLsbD 31 ≠ b.getLsbD 31 ∧ r.getLsbD 31 ≠ a.getLsbD 31 := by
  rw [subOverflow, Bool.and_eq_true, bne_iff_ne, bne_iff_ne]

theorem addOverflow_eq_saddOverflow (a b : Word) :
    addOverflow a b (a + b) = a.saddOverflow b := by
  simp only [addOverflow, BitVec.saddOverflow_eq, BitVec.msb_eq_getLsbD_last, bne]

theorem subOverflow_eq_ssubOverflow (a b : Word) :
    subOverflow a b (a - b) = a.ssubOverflow b := by
  simp only [subOverflow, BitVec.ssubOverflow_eq, BitVec.msb_eq_getLsbD_last]
  cases a.getLsbD 31 <;> cases b.getLsbD 31 <;> simp

/-- R102: no word stands for a sum out of range, and `a + b` stands for every sum in range. -/
theorem addOverflow_iff_toInt_ne (a b : Word) :
    addOverflow a b (a + b) = true ↔ (a + b).toInt ≠ a.toInt + b.toInt := by
  rw [addOverflow_eq_saddOverflow]
  refine ⟨fun hover heq => ?_, fun hne => by_contra fun h =>
    hne (BitVec.toInt_add_of_not_saddOverflow h)⟩
  have hlo := BitVec.le_toInt (a + b)
  have hhi := BitVec.toInt_lt (x := a + b)
  rw [BitVec.saddOverflow, ← heq, Bool.or_eq_true, decide_eq_true_iff, decide_eq_true_iff] at hover
  omega

/-- R103: the same of the difference. -/
theorem subOverflow_iff_toInt_ne (a b : Word) :
    subOverflow a b (a - b) = true ↔ (a - b).toInt ≠ a.toInt - b.toInt := by
  rw [subOverflow_eq_ssubOverflow]
  refine ⟨fun hover heq => ?_, fun hne => by_contra fun h =>
    hne (BitVec.toInt_sub_of_not_ssubOverflow h)⟩
  have hlo := BitVec.le_toInt (a - b)
  have hhi := BitVec.toInt_lt (x := a - b)
  rw [BitVec.ssubOverflow, ← heq, Bool.or_eq_true, decide_eq_true_iff, decide_eq_true_iff] at hover
  omega

/-- R101: Z says that the result is 0. -/
theorem zeroFlag_iff (r : Word) : zeroFlag r = true ↔ r = 0#32 := beq_iff_eq

/-- Settles O43: N and Z from the record of every operation, C and V from those of ADD and SUB. -/
theorem aluFlagsDescribeResult : Obligations.AluFlagsDescribeResult := by
  refine ⟨fun op a b => ⟨?_, ?_, fun hadd hsub => ?_⟩, fun a b => ?_⟩
  · obtain ⟨c, v, h⟩ := alu_flags_eq_aluFlags op a b
    rw [h, aluFlags, negFlag]
  · obtain ⟨c, v, h⟩ := alu_flags_eq_aluFlags op a b
    rw [h]
    exact zeroFlag_iff _
  · rw [alu_flags_of_ne a b hadd hsub]
    exact ⟨rfl, rfl⟩
  · rw [alu, alu, aluAdd_r, aluSub_r, aluAdd_flags, aluSub_flags]
    exact ⟨decide_eq_true_iff, addOverflow_iff a b _, addOverflow_iff_toInt_ne a b,
      decide_eq_true_iff, subOverflow_iff a b _, subOverflow_iff_toInt_ne a b, rfl, rfl⟩

end Sys2Proof.Machine
end

section
/-! PROOFS. The arithmetic API port and its mnemonics (spec 44_execution_engine.md R217,
60_exceptions.md R273). -/

namespace Sys2Proof.Machine

/-- The table lists no name twice, so each entry is the one its name finds. -/
theorem apiOpOf_of_mem : ∀ entry ∈ apiMnemonics, apiOpOf entry.1 = some entry.2 := by
  decide

/-- R217: a listed mnemonic answers its own operation. -/
theorem apiCall_of_mem (c : Config) {mnemonic : String} {op : ApiOp}
    (h : (mnemonic, op) ∈ apiMnemonics) (a b : Word) :
    apiCall c mnemonic a b = apiRun c op a b := by
  have hop : apiOpOf mnemonic = some op := apiOpOf_of_mem _ h
  rw [apiCall, hop]

theorem apiOpOf_eq_none_iff (mnemonic : String) :
    apiOpOf mnemonic = none ↔ mnemonic ∉ apiMnemonics.map Prod.fst := by
  rw [apiOpOf, Option.map_eq_none_iff, List.find?_eq_none, List.mem_map]
  simp only [decide_eq_true_eq, not_exists, not_and]

/-- Every operation answers a result. -/
theorem apiRun_ne_invalidOperation (c : Config) (op : ApiOp) (a b : Word) :
    apiRun c op a b ≠ .invalidOperation := by
  cases op with
  | alu | mdu | fpu => exact ApiOutcome.noConfusion

/-- R273: the port rejects exactly what the table does not list. -/
theorem apiCall_eq_invalidOperation_iff (c : Config) (mnemonic : String) (a b : Word) :
    apiCall c mnemonic a b = .invalidOperation ↔ mnemonic ∉ apiMnemonics.map Prod.fst := by
  rw [← apiOpOf_eq_none_iff, apiCall]
  cases apiOpOf mnemonic with
  | none => exact iff_of_true rfl rfl
  | some op => exact iff_of_false (apiRun_ne_invalidOperation c op a b) (Option.some_ne_none op)

/-- Settles O47: a name of the table answers its own entry's operation, and every other name is
rejected. -/
theorem apiPortAnswersOnlyItsMnemonics : Obligations.ApiPortAnswersOnlyItsMnemonics := by
  intro c mnemonic a b
  refine ⟨apiCall_eq_invalidOperation_iff c mnemonic a b,
    (apiCall_eq_invalidOperation_iff c "ADDI" a b).mpr (by decide),
    fun p hp => ?_, fun p hp => ?_, ?_⟩
  · exact apiCall_of_mem c (op := .alu p.2) (by revert p; decide) a b
  · exact apiCall_of_mem c (op := .mdu p.2) (by revert p; decide) a b
  · simp only [List.forall_mem_cons, List.not_mem_nil, false_implies, implies_true, and_true]
    exact ⟨apiCall_of_mem c (op := .fpu .add) (by decide) a b,
      apiCall_of_mem c (op := .fpu .sub) (by decide) a b,
      apiCall_of_mem c (op := .fpu .mul) (by decide) a b,
      apiCall_of_mem c (op := .fpu .div) (by decide) a b⟩

end Sys2Proof.Machine
end

section
/-! PROOFS. The multiplies: which half of the exact product each returns, and where its overflow
flag is set (spec 42_mdu.md R143, R144, R151 to R154). -/

namespace Sys2Proof.Machine

/-! ### The halves of the 64-bit product -/

theorem extractLsb'_low_ofInt (x : Int) :
    (BitVec.ofInt 64 x).extractLsb' 0 32 = BitVec.ofInt 32 x := by
  apply BitVec.eq_of_toNat_eq
  rw [BitVec.extractLsb'_toNat, BitVec.toNat_ofInt, BitVec.toNat_ofInt, Nat.shiftRight_zero]
  omega

theorem extractLsb'_high_ofInt (x : Int) :
    (BitVec.ofInt 64 x).extractLsb' 32 32 = BitVec.ofInt 32 (x / 2 ^ 32) := by
  apply BitVec.eq_of_toNat_eq
  rw [BitVec.extractLsb'_toNat, BitVec.toNat_ofInt, BitVec.toNat_ofInt, Nat.shiftRight_eq_div_pow]
  omega

theorem extractLsb'_high_ofNat (n : Nat) :
    (BitVec.ofNat 64 n).extractLsb' 32 32 = BitVec.ofNat 32 (n / 2 ^ 32) := by
  rw [← BitVec.ofInt_natCast, extractLsb'_high_ofInt, ← BitVec.ofInt_natCast, Int.natCast_ediv]
  rfl

/-- Settles O14: the words are encodings, and each half of the exact product is the product or its
floored quotient by 2^32, modulo 2^32. -/
theorem multipliesWriteHalfOfExactProduct : Obligations.MultipliesWriteHalfOfExactProduct :=
  fun bs rd rs1 rs2 _ =>
  ⟨decodeOfEncodeGivesInstruction bs (.mul rd rs1 rs2) rfl rfl,
    decodeOfEncodeGivesInstruction bs (.mulh rd rs1 rs2) rfl rfl,
    decodeOfEncodeGivesInstruction bs (.mulhsu rd rs1 rs2) rfl rfl,
    decodeOfEncodeGivesInstruction bs (.mulhu rd rs1 rs2) rfl rfl,
    exec_writes (exec_mul ..) (by rw [mdu_mul_r, extractLsb'_low_ofInt]),
    exec_writes (exec_mulh ..) (by rw [mdu_mulh_r, extractLsb'_high_ofInt]),
    exec_writes (exec_mulhsu ..) (by rw [mdu_mulhsu_r, extractLsb'_high_ofInt]),
    exec_writes (exec_mulhu ..) (by rw [mdu_mulhu_r, extractLsb'_high_ofNat])⟩

/-! ### The overflow flag -/

/-- R143: the high half is the sign fill of the low half exactly where the product is the value of
its low half, which is where it fits in 32 bits. -/
theorem productOverflow_iff (q : BitVec 64) :
    productOverflow (highHalf q) (lowHalf q) = true ↔ q.toInt < -2 ^ 31 ∨ 2 ^ 31 ≤ q.toInt := by
  have hlo : (lowHalf q).toNat = q.toNat % 2 ^ 32 := BitVec.extractLsb'_toNat ..
  have hhi : (highHalf q).toNat = q.toNat / 2 ^ 32 := by
    rw [highHalf, BitVec.extractLsb'_toNat, Nat.shiftRight_eq_div_pow]
    omega
  rw [productOverflow, bne_iff_ne, ne_eq, ← BitVec.toNat_inj, hhi, getLsbD_31, hlo,
    BitVec.toInt_eq_toNat_cond]
  by_cases hsign : 2 ^ 31 ≤ q.toNat % 2 ^ 32
  · rw [if_pos (decide_eq_true hsign), BitVec.toNat_ofNat]
    omega
  · rw [if_neg (by simpa using hsign), BitVec.toNat_ofNat]
    omega

theorem mulFlags_eq (q : BitVec 64) :
    mulFlags q = ⟨decide (q.toInt < -2 ^ 31 ∨ 2 ^ 31 ≤ q.toInt), false⟩ := by
  rw [mulFlags, Bool.eq_iff_iff.mpr ((productOverflow_iff q).trans decide_eq_true_iff.symm)]

/-- Every multiply takes its result and its flags from the same exact product. -/
theorem mulHigh_eq (ka kb : Signedness) (a b : Word) :
    mulHigh ka kb a b = ⟨highHalf (BitVec.ofInt 64 (valueOf ka a * valueOf kb b)),
      mulFlags (BitVec.ofInt 64 (valueOf ka a * valueOf kb b))⟩ := by
  rw [mulHigh, product_eq]

theorem mulLow_eq (a b : Word) :
    mulLow a b = ⟨lowHalf (BitVec.ofInt 64 (a.toInt * b.toInt)),
      mulFlags (BitVec.ofInt 64 (a.toInt * b.toInt))⟩ := by
  rw [mulLow, product_eq, valueOf, valueOf]

/-! ### The port -/

/-- R217: what the port answers for a mnemonic of the MDU whose result is known. -/
theorem apiCall_mdu_eq (c : Config) {mnemonic : String} {op : MduOp} {a b r : Word}
    {flags flags' : MduFlags} (h : (mnemonic, ApiOp.mdu op) ∈ apiMnemonics)
    (hr : mdu op a b = ⟨r, flags⟩) (hflags : flags = flags') :
    apiCall c mnemonic a b = .result r (.mdu flags') := by
  rw [apiCall_of_mem c h, apiRun, hr, hflags]

/-- Settles O44: a multiply's flags say of its 64-bit product whether it fits in 32 bits. -/
theorem multiplyOverflowMeansProductDoesNotFit :
    Obligations.MultiplyOverflowMeansProductDoesNotFit := by
  intro c a b
  simp only [List.forall_mem_cons, List.not_mem_nil, false_implies, implies_true, and_true]
  exact ⟨apiCall_mdu_eq c (op := .mul) (by decide) (mulLow_eq a b) (mulFlags_eq _),
    apiCall_mdu_eq c (op := .mulh) (by decide) (mulHigh_eq .signed .signed a b) (mulFlags_eq _),
    apiCall_mdu_eq c (op := .mulhsu) (by decide) (mulHigh_eq .signed .unsigned a b)
      (mulFlags_eq _),
    apiCall_mdu_eq c (op := .mulhu) (by decide) (mulHigh_eq .unsigned .unsigned a b)
      (mulFlags_eq _)⟩

end Sys2Proof.Machine
end

section
/-! PROOFS. The divides: truncation, the zero divisor, and quotient and remainder together (spec
42_mdu.md R145 to R148, R155 to R159). -/

namespace Sys2Proof.Machine

/-- Settles O15: the words are encodings, and the remainder is what truncated division leaves. -/
theorem dividesTruncateOrGiveSentinel : Obligations.DividesTruncateOrGiveSentinel :=
  fun bs rd rs1 rs2 _ =>
  ⟨decodeOfEncodeGivesInstruction bs (.div rd rs1 rs2) rfl rfl,
    decodeOfEncodeGivesInstruction bs (.divu rd rs1 rs2) rfl rfl,
    decodeOfEncodeGivesInstruction bs (.rem rd rs1 rs2) rfl rfl,
    decodeOfEncodeGivesInstruction bs (.remu rd rs1 rs2) rfl rfl,
    exec_writes (exec_div ..) (mdu_div_r ..),
    exec_writes (exec_divu ..) (mdu_divu_r ..),
    exec_writes (exec_rem ..) (by rw [mdu_rem_r, Int.tmod_def]),
    exec_writes (exec_remu ..) (mdu_remu_r ..)⟩

/-! ### The zero divisor -/

/-- R147: the quotient's sentinel. -/
theorem divide_zero (k : Signedness) (a : Word) :
    divide k a 0#32 = ⟨0xFFFFFFFF#32, MduFlags.divideByZero⟩ := if_pos rfl

/-- R147: the remainder's sentinel is the dividend. -/
theorem remainder_zero (k : Signedness) (a : Word) :
    remainder k a 0#32 = ⟨a, MduFlags.divideByZero⟩ := if_pos rfl

/-- R147, R148: the flags of a division tell a zero divisor and nothing else. -/
theorem divide_flags (k : Signedness) (a b : Word) :
    (divide k a b).flags = ⟨false, decide (b = 0#32)⟩ := by
  by_cases hb : b = 0#32
  · rw [hb, divide_zero]
    rfl
  · rw [divide, if_neg hb, decide_eq_false hb]
    rfl

theorem remainder_flags (k : Signedness) (a b : Word) :
    (remainder k a b).flags = ⟨false, decide (b = 0#32)⟩ := by
  by_cases hb : b = 0#32
  · rw [hb, remainder_zero]
    rfl
  · rw [remainder, if_neg hb, decide_eq_false hb]
    rfl

/-- R143, R147: a multiply never sets invalid, a division for the divisor 0 only. -/
theorem mdu_invalid_iff (op : MduOp) (a b : Word) : (mdu op a b).flags.invalid = true ↔
    b = 0#32 ∧ (op = .div ∨ op = .divu ∨ op = .rem ∨ op = .remu) := by
  cases op with
  | mul | mulh | mulhsu | mulhu => exact iff_of_false Bool.false_ne_true (by simp)
  | div | divu => simp [mdu, divide_flags]
  | rem | remu => simp [mdu, remainder_flags]

/-- R148: the one quotient out of range wraps to the dividend. -/
theorem divide_mostNegative_negOne :
    divide .signed 0x80000000#32 0xFFFFFFFF#32 = ⟨0x80000000#32, MduFlags.none⟩ := by decide +kernel

theorem remainder_mostNegative_negOne :
    remainder .signed 0x80000000#32 0xFFFFFFFF#32 = ⟨0#32, MduFlags.none⟩ := by decide +kernel

/-- Settles O45: the sentinels of a zero divisor, and the one quotient out of range. -/
theorem divisionCornersAtApi : Obligations.DivisionCornersAtApi :=
  ⟨fun c a =>
    ⟨apiCall_mdu_eq c (op := .div) (by decide) (divide_zero .signed a) rfl,
      apiCall_mdu_eq c (op := .divu) (by decide) (divide_zero .unsigned a) rfl,
      apiCall_mdu_eq c (op := .rem) (by decide) (remainder_zero .signed a) rfl,
      apiCall_mdu_eq c (op := .remu) (by decide) (remainder_zero .unsigned a) rfl,
      apiCall_mdu_eq c (op := .div) (by decide) divide_mostNegative_negOne rfl,
      apiCall_mdu_eq c (op := .rem) (by decide) remainder_mostNegative_negOne rfl⟩,
    mdu_invalid_iff⟩

/-! ### Quotient and remainder together -/

theorem ofInt_valueOf (k : Signedness) (v : Word) : BitVec.ofInt 32 (valueOf k v) = v := by
  cases k with
  | signed => exact BitVec.ofInt_toInt
  | unsigned => rw [valueOf, BitVec.ofInt_natCast, BitVec.ofNat_toNat, BitVec.setWidth_eq]

section
variable (k : Signedness) (a : Word) {b : Word} (hb : b ≠ 0#32)
include hb

/-- R159: the division identity of the integers, read modulo 2^32. -/
theorem divide_mul_add_remainder : (divide k a b).r * b + (remainder k a b).r = a := by
  rw [divide_r, remainder_r, if_neg hb, if_neg hb]
  calc BitVec.ofInt 32 ((valueOf k a).tdiv (valueOf k b)) * b
        + BitVec.ofInt 32 ((valueOf k a).tmod (valueOf k b))
      = BitVec.ofInt 32 ((valueOf k a).tdiv (valueOf k b) * valueOf k b
        + (valueOf k a).tmod (valueOf k b)) := by
        rw [BitVec.ofInt_add, BitVec.ofInt_mul, ofInt_valueOf k b]
    _ = a := by rw [Int.tdiv_mul_add_tmod, ofInt_valueOf]

theorem valueOf_ne_zero : valueOf k b ≠ 0 := fun h =>
  hb (by rw [← ofInt_valueOf k b, h]; rfl)

theorem natAbs_tmod_valueOf_lt :
    ((valueOf k a).tmod (valueOf k b)).natAbs < (valueOf k b).natAbs := by
  rw [Int.natAbs_tmod]
  exact Nat.mod_lt _ (Int.natAbs_pos.mpr (valueOf_ne_zero k hb))

/-- R146: the remainder is in range, so the result stands for it exactly. -/
theorem valueOf_remainder :
    valueOf k (remainder k a b).r = (valueOf k a).tmod (valueOf k b) := by
  rw [remainder_r, if_neg hb]
  have hlt := natAbs_tmod_valueOf_lt k a hb
  cases k with
  | signed =>
    have hlo := BitVec.le_toInt b
    have hhi := BitVec.toInt_lt (x := b)
    simp only [valueOf] at hlt ⊢
    exact BitVec.toInt_ofInt_eq_self (by decide) (by omega) (by omega)
  | unsigned =>
    have hhi := b.isLt
    simp only [valueOf, ← Int.ofNat_tmod, Int.natAbs_natCast] at hlt ⊢
    rw [BitVec.ofInt_natCast, BitVec.toNat_ofNat, Nat.mod_eq_of_lt (hlt.trans hhi)]

theorem natAbs_valueOf_remainder_lt :
    (valueOf k (remainder k a b).r).natAbs < (valueOf k b).natAbs := by
  rw [valueOf_remainder k a hb]
  exact natAbs_tmod_valueOf_lt k a hb

/-- R146: a nonzero remainder of REM has the sign of the dividend. -/
theorem remainder_signed_eq_zero_or_sign : (remainder .signed a b).r = 0#32 ∨
    (remainder .signed a b).r.getLsbD 31 = a.getLsbD 31 := by
  have hr : (remainder .signed a b).r.toInt = a.toInt.tmod b.toInt := valueOf_remainder .signed a hb
  have hsign := Int.sign_tmod a.toInt b.toInt
  rw [← hr] at hsign
  split at hsign
  · have h0 := Int.sign_eq_zero_iff_zero.mp hsign
    exact .inl (BitVec.toInt_inj.mp (h0.trans BitVec.toInt_zero.symm))
  · refine .inr ?_
    rw [← BitVec.msb_eq_getLsbD_last, ← BitVec.msb_eq_getLsbD_last, BitVec.msb_eq_toInt,
      BitVec.msb_eq_toInt, decide_eq_decide, ← Int.sign_neg_iff, hsign, Int.sign_neg_iff]

end

/-- Settles O46: the identity and the bound hold of the integers under either signedness, and the
remainder is in range. -/
theorem quotientTimesDivisorPlusRemainder : Obligations.QuotientTimesDivisorPlusRemainder :=
  fun a _ hb =>
  ⟨divide_mul_add_remainder .signed a hb,
    divide_mul_add_remainder .unsigned a hb,
    natAbs_valueOf_remainder_lt .signed a hb,
    natAbs_valueOf_remainder_lt .unsigned a hb,
    remainder_signed_eq_zero_or_sign a hb⟩

end Sys2Proof.Machine
end

section
/-! PROOFS. The class of a word against the patterns of the special-case tables, and the words put
together from a sign and a magnitude (spec 43_fpu.md R171). -/

namespace Sys2Proof.Machine

/-! ### The fields of a packed word -/

/-- Bit i of a packed word: fraction, then exponent, then sign. -/
theorem getLsbD_fpPack (s : Bool) (e : BitVec 8) (f : BitVec 23) (i : Nat) :
    (fpPack s e f).getLsbD i = if i < 23 then f.getLsbD i
      else if i < 31 then e.getLsbD (i - 23) else decide (i = 31) && s := by
  change (BitVec.ofBool s ++ e ++ f).getLsbD i = _
  rw [BitVec.getLsbD_append, BitVec.getLsbD_append, BitVec.getLsbD_ofBool]
  by_cases hf : i < 23
  · simp [hf]
  · have he : i - 23 < 8 ↔ i < 31 := by omega
    have hs : i - 23 - 8 = 0 ↔ i < 31 ∨ i = 31 := by omega
    by_cases h : i < 31 <;> simp [hf, he, hs, h]

@[simp] theorem fpSign_fpPack (s : Bool) (e : BitVec 8) (f : BitVec 23) :
    fpSign (fpPack s e f) = s := by
  rw [fpSign, getLsbD_fpPack]
  rfl

@[simp] theorem fpExponent_fpPack (s : Bool) (e : BitVec 8) (f : BitVec 23) :
    fpExponent (fpPack s e f) = e := by
  apply BitVec.eq_of_getLsbD_eq
  intro i hi
  have hlt : 23 + i < 31 := by omega
  simp [fpExponent, getLsbD_fpPack, hi, hlt]

@[simp] theorem fpFraction_fpPack (s : Bool) (e : BitVec 8) (f : BitVec 23) :
    fpFraction (fpPack s e f) = f := by
  apply BitVec.eq_of_getLsbD_eq
  intro i hi
  simp [fpFraction, getLsbD_fpPack, hi]

@[simp] theorem fpSign_fpInfinity (s : Bool) : fpSign (fpInfinity s) = s := fpSign_fpPack s _ _

theorem isZero_fpZero (s : Bool) : IsZero (fpZero s) := by
  simp [isZero_iff, fpZero]

theorem isInf_fpInfinity (s : Bool) : IsInf (fpInfinity s) := by
  simp [isInf_iff, fpInfinity]

/-! ### The three patterns are told by the class -/

theorem isNan_iff_classify (w : Word) : IsNan w ↔ classify w = .nan := by
  refine ⟨classify_nan, fun h => ?_⟩
  by_contra hn
  by_cases hi : IsInf w
  · simp [classify_inf hi] at h
  · by_cases hz : IsZero w
    · simp [classify_zero hz] at h
    · obtain ⟨v, hv, -⟩ := classify_finite ⟨hn, hi, hz⟩
      simp [hv] at h

theorem isInf_iff_classify (w : Word) : IsInf w ↔ ∃ s, classify w = .infinity s := by
  refine ⟨fun h => ⟨_, classify_inf h⟩, fun ⟨s, h⟩ => ?_⟩
  by_contra hi
  by_cases hn : IsNan w
  · simp [classify_nan hn] at h
  · by_cases hz : IsZero w
    · simp [classify_zero hz] at h
    · obtain ⟨v, hv, -⟩ := classify_finite ⟨hn, hi, hz⟩
      simp [hv] at h

theorem isZero_iff_classify (w : Word) : IsZero w ↔ ∃ s, classify w = .zero s := by
  refine ⟨fun h => ⟨_, classify_zero h⟩, fun ⟨s, h⟩ => ?_⟩
  by_contra hz
  by_cases hn : IsNan w
  · simp [classify_nan hn] at h
  · by_cases hi : IsInf w
    · simp [classify_inf hi] at h
    · obtain ⟨v, hv, -⟩ := classify_finite ⟨hn, hi, hz⟩
      simp [hv] at h

/-- What is left for an operand that is neither a NaN nor an infinity. -/
theorem classify_of_not_nan_inf {w : Word} (hn : ¬ IsNan w) (hi : ¬ IsInf w) :
    (∃ s, classify w = .zero s) ∨ ∃ v, classify w = .finite v := by
  by_cases hz : IsZero w
  · exact .inl ⟨_, classify_zero hz⟩
  · obtain ⟨v, hv, -⟩ := classify_finite ⟨hn, hi, hz⟩
    exact .inr ⟨v, hv⟩

/-- What is left for an operand that is neither a NaN nor a zero. -/
theorem classify_of_not_nan_zero {w : Word} (hn : ¬ IsNan w) (hz : ¬ IsZero w) :
    (∃ s, classify w = .infinity s) ∨ ∃ v, classify w = .finite v := by
  by_cases hi : IsInf w
  · exact .inl ⟨_, classify_inf hi⟩
  · obtain ⟨v, hv, -⟩ := classify_finite ⟨hn, hi, hz⟩
    exact .inr ⟨v, hv⟩

/-- Two infinities of one sign are one word. -/
theorem eq_of_isInf {a b : Word} (ha : IsInf a) (hb : IsInf b) (h : fpSign a = fpSign b) :
    a = b := by
  rw [isInf_iff] at ha hb
  rw [← fpPack_fields a, ← fpPack_fields b, h, ha.1, ha.2, hb.1, hb.2]

/-! ### The product sign (R183, R184) -/

theorem and_signMask (w : Word) : w &&& 0x80000000#32 = fpZero (fpSign w) := by
  apply BitVec.eq_of_getLsbD_eq
  intro i hi
  simp only [fpZero, fpPack, fpSign, BitVec.getLsbD_and, BitVec.getLsbD_append,
    BitVec.getLsbD_ofBool]
  interval_cases i <;> simp

theorem fpSign_xor (a b : Word) : fpSign (a ^^^ b) = (fpSign a ^^ fpSign b) := BitVec.getLsbD_xor

theorem withProductSign_infinity (a b : Word) :
    withProductSign a b 0x7F800000#32 = fpInfinity (fpSign a ^^ fpSign b) := by
  rw [withProductSign, and_signMask, fpSign_xor]
  cases fpSign a ^^ fpSign b <;> decide

theorem withProductSign_zero (a b : Word) :
    withProductSign a b 0x00000000#32 = fpZero (fpSign a ^^ fpSign b) := by
  rw [withProductSign, and_signMask, fpSign_xor, BitVec.or_zero]

/-! ### The inverted sign (R182) -/

theorem fpExponent_flipSign (w : Word) : fpExponent (w ^^^ 0x80000000#32) = fpExponent w := by
  apply BitVec.eq_of_getLsbD_eq
  intro i hi
  simp only [fpExponent, BitVec.getLsbD_extractLsb', BitVec.getLsbD_xor]
  interval_cases i <;> simp

theorem fpFraction_flipSign (w : Word) : fpFraction (w ^^^ 0x80000000#32) = fpFraction w := by
  apply BitVec.eq_of_getLsbD_eq
  intro i hi
  simp only [fpFraction, BitVec.getLsbD_extractLsb', BitVec.getLsbD_xor]
  interval_cases i <;> simp

theorem fpSign_flipSign (w : Word) : fpSign (w ^^^ 0x80000000#32) = !fpSign w := by
  rw [fpSign_xor, show fpSign 0x80000000#32 = true by decide, Bool.xor_true]

theorem isNan_flipSign (w : Word) : IsNan (w ^^^ 0x80000000#32) ↔ IsNan w := by
  rw [isNan_iff, isNan_iff, fpExponent_flipSign, fpFraction_flipSign]

theorem classify_flipSign {w : Word} {v : Finite} (h : classify w = .finite v) :
    classify (w ^^^ 0x80000000#32) = .finite { v with sign := !v.sign } := by
  have hE := fpExponent_flipSign w
  have hf := fpFraction_flipSign w
  have hs := fpSign_flipSign w
  by_cases h1 : fpExponent w = 0xFF#8
  · rw [classify_of_allOnes h1] at h
    split at h <;> cases h
  by_cases h0 : fpExponent w = 0x00#8
  · rw [classify_of_zero h0] at h
    rw [classify_of_zero (hE.trans h0), hf, hs]
    split at h
    · cases h
    · rename_i hne
      cases h
      rw [if_neg hne]
  · rw [classify_of_normal h1 h0] at h
    cases h
    rw [classify_of_normal (hE ▸ h1) (hE ▸ h0), hE, hf, hs]

end Sys2Proof.Machine
end

section
/-! PROOFS. Addition, subtraction and multiplication: the rows of their special-case tables, the finite
computation, and that they commute (spec 43_fpu.md R180, R182, R183, R188). -/

namespace Sys2Proof.Machine

/-! ### The rows of f32_add -/

section
variable (c : Config) {a b : Word}

theorem f32Add_nan (h : IsNan a ∨ IsNan b) : f32Add c a b = nanResult c := by
  simp only [isNan_iff_classify] at h
  rcases h with ha | hb
  · rw [f32Add, ha]
  · rw [f32Add, hb]
    cases classify a <;> rfl

theorem f32Add_inf_inf (ha : IsInf a) (hb : IsInf b) :
    f32Add c a b = if a = b then fpExact a else invalidResult c := by
  have hab : fpSign a = fpSign b ↔ a = b := ⟨eq_of_isInf ha hb, congrArg fpSign⟩
  simp only [f32Add, classify_inf ha, classify_inf hb, hab]

theorem f32Add_inf_left (ha : IsInf a) (hi : ¬ IsInf b) (hn : ¬ IsNan b) :
    f32Add c a b = fpExact a := by
  rcases classify_of_not_nan_inf hn hi with ⟨s, hb⟩ | ⟨v, hb⟩ <;>
    rw [f32Add, classify_inf ha, hb]

theorem f32Add_inf_right (hb : IsInf b) (hi : ¬ IsInf a) (hn : ¬ IsNan a) :
    f32Add c a b = fpExact b := by
  rcases classify_of_not_nan_inf hn hi with ⟨s, ha⟩ | ⟨v, ha⟩ <;>
    rw [f32Add, classify_inf hb, ha]

theorem f32Add_zero_left (ha : IsZero a) (hn : ¬ IsNan b) : f32Add c a b = fpExact b := by
  rw [isNan_iff_classify] at hn
  rw [f32Add, classify_zero ha]
  cases hb : classify b with
  | nan => exact absurd hb hn
  | infinity | zero | finite => rfl

theorem f32Add_zero_right (hb : IsZero b) (hn : ¬ IsNan a) (hz : ¬ IsZero a) :
    f32Add c a b = fpExact a := by
  rcases classify_of_not_nan_zero hn hz with ⟨s, ha⟩ | ⟨v, ha⟩ <;>
    rw [f32Add, classify_zero hb, ha]

theorem f32Add_finite {va vb : Finite} (ha : classify a = .finite va)
    (hb : classify b = .finite vb) : f32Add c a b = addFinite c.subnormalReround va vb := by
  rw [f32Add, ha, hb]

end

/-! ### The exact sum (R180) -/

/-- A power of two in units of another. -/
theorem zpow_eq_natPow_mul {a b : Int} {n : Nat} (h : a = n + b) :
    (2 : ℚ) ^ a = ((2 ^ n : ℕ) : ℚ) * 2 ^ b := by
  rw [h, zpow_add₀ two_ne_zero, zpow_natCast, Nat.cast_pow, Nat.cast_ofNat]

/-- The aligned significand is the operand's signed value in units of 2^(emin - 23). -/
theorem alignedSignificand_mul_zpow (v : Finite) {emin : Int} (h : emin ≤ v.e) :
    (alignedSignificand v emin : ℚ) * (2 : ℚ) ^ (emin - 23) =
      if v.sign then -v.magnitude else v.magnitude := by
  have hscale : ((2 ^ (v.e - emin).toNat : Nat) : ℚ) * (2 : ℚ) ^ (emin - 23) =
      (2 : ℚ) ^ (v.e - 23) := (zpow_eq_natPow_mul (by omega)).symm
  cases hs : v.sign <;>
    simp [alignedSignificand, Finite.magnitude, hs, ← hscale] <;> ring

/-- The exact sum of two operands in units of 2^(emin - 23). -/
def exactSum (a b : Finite) : Int :=
  alignedSignificand a (min a.e b.e) + alignedSignificand b (min a.e b.e)

theorem exactSum_mul_zpow (a b : Finite) :
    (exactSum a b : ℚ) * (2 : ℚ) ^ (min a.e b.e - 23) =
      (if a.sign then -a.magnitude else a.magnitude) +
        (if b.sign then -b.magnitude else b.magnitude) := by
  rw [exactSum, Int.cast_add, add_mul, alignedSignificand_mul_zpow a (min_le_left _ _),
    alignedSignificand_mul_zpow b (min_le_right _ _)]

theorem exactSum_comm (a b : Finite) : exactSum a b = exactSum b a := by
  rw [exactSum, exactSum, min_comm, add_comm]

theorem addFinite_eq (mode : SubnormalReround) (a b : Finite) :
    addFinite mode a b = if exactSum a b = 0 then fpExact (fpZero false)
      else roundPack mode (decide (exactSum a b < 0)) (exactSum a b).natAbs (min a.e b.e - 23) :=
  rfl

theorem addFinite_comm (mode : SubnormalReround) (a b : Finite) :
    addFinite mode a b = addFinite mode b a := by
  rw [addFinite_eq, addFinite_eq, exactSum_comm, min_comm]

/-- Settles O48: one lemma per row, and the integer that scales to the exact sum is unique. -/
theorem addFollowsItsTable : Obligations.AddFollowsItsTable := by
  intro c a b
  refine ⟨f32Add_nan c, fun ha hb hne => ?_, fun ha hb he => ?_, f32Add_inf_left c,
    f32Add_inf_right c, f32Add_zero_left c, f32Add_zero_right c, fun va vb N ha hb hN => ?_⟩
  · rw [f32Add_inf_inf c ha hb, if_neg hne]
    rfl
  · rw [f32Add_inf_inf c ha hb, if_pos he]
    rfl
  · have hpos : (2 : ℚ) ^ (min va.e vb.e - 23) ≠ 0 := zpow_ne_zero _ two_ne_zero
    have hN' : N = exactSum va vb := by
      rw [← exactSum_mul_zpow] at hN
      exact_mod_cast mul_right_cancel₀ hpos hN
    rw [f32Add_finite c ha hb, addFinite_eq, hN']
    rfl

/-! ### Subtraction (R182) -/

/-- An operand and its negation cancel. -/
theorem exactSum_neg (v : Finite) : exactSum v { v with sign := !v.sign } = 0 := by
  cases hs : v.sign <;> simp [exactSum, alignedSignificand, hs]

/-- Settles O49: inverting the sign keeps the other fields, so the rows of f32_add apply. -/
theorem subtractionInvertsSign : Obligations.SubtractionInvertsSign := by
  refine ⟨fun _ _ _ => rfl, fun c x ⟨hn, hi, hz⟩ => ?_, fun c b hb => ?_, fun c => ?_⟩
  · obtain ⟨v, hv, -⟩ := classify_finite ⟨hn, hi, hz⟩
    rw [f32Sub, f32Add_finite c hv (classify_flipSign hv), addFinite_eq, if_pos (exactSum_neg v)]
    rfl
  · exact f32Add_zero_left c (.inl rfl) (mt (isNan_flipSign b).mp hb)
  · exact (f32Add_inf_inf c (.inl rfl) (.inr rfl)).trans (if_neg (by decide))

/-! ### The rows of f32_mul -/

section
variable (c : Config) {a b : Word}

theorem f32Mul_nan (h : IsNan a ∨ IsNan b) : f32Mul c a b = nanResult c := by
  simp only [isNan_iff_classify] at h
  rcases h with ha | hb
  · rw [f32Mul, ha]
  · rw [f32Mul, hb]
    cases classify a <;> rfl

theorem f32Mul_zero_inf (h : (IsZero a ∧ IsInf b) ∨ (IsInf a ∧ IsZero b)) :
    f32Mul c a b = invalidResult c := by
  rcases h with ⟨ha, hb⟩ | ⟨ha, hb⟩
  · rw [f32Mul, classify_zero ha, classify_inf hb]
  · rw [f32Mul, classify_inf ha, classify_zero hb]

theorem f32Mul_inf (hna : ¬ IsNan a) (hnb : ¬ IsNan b) (hza : ¬ IsZero a) (hzb : ¬ IsZero b)
    (h : IsInf a ∨ IsInf b) : f32Mul c a b = fpExact (fpInfinity (fpSign a ^^ fpSign b)) := by
  rcases h with ha | hb
  · rcases classify_of_not_nan_zero hnb hzb with ⟨s, hb⟩ | ⟨v, hb⟩ <;>
      rw [f32Mul, classify_inf ha, hb]
  · rcases classify_of_not_nan_zero hna hza with ⟨s, ha⟩ | ⟨v, ha⟩ <;>
      rw [f32Mul, classify_inf hb, ha]

theorem f32Mul_zero (hna : ¬ IsNan a) (hnb : ¬ IsNan b) (hia : ¬ IsInf a) (hib : ¬ IsInf b)
    (h : IsZero a ∨ IsZero b) : f32Mul c a b = fpExact (fpZero (fpSign a ^^ fpSign b)) := by
  rcases h with ha | hb
  · rcases classify_of_not_nan_inf hnb hib with ⟨s, hb⟩ | ⟨v, hb⟩ <;>
      rw [f32Mul, classify_zero ha, hb]
  · rcases classify_of_not_nan_inf hna hia with ⟨s, ha⟩ | ⟨v, ha⟩ <;>
      rw [f32Mul, classify_zero hb, ha]

end

theorem significand_lt {w : Word} {v : Finite} (h : classify w = .finite v) : v.m < 2 ^ 24 := by
  rcases classify_range h with ⟨-, hlt, -⟩ | ⟨-, hlt, -⟩ <;> omega

theorem significand_pos {w : Word} {v : Finite} (h : classify w = .finite v) : 0 < v.m := by
  rcases classify_range h with ⟨hle, -⟩ | ⟨hpos, -⟩ <;> omega

/-- R183: the shift-add product of the significands is exact. -/
theorem significand_product {ma mb : Nat} (ha : ma < 2 ^ 24) (hb : mb < 2 ^ 24) :
    (shiftAdd 48 (BitVec.ofNat 24 ma) (BitVec.ofNat 24 mb)).toNat = ma * mb := by
  rw [shiftAdd_toNat (by decide), BitVec.toNat_ofNat, BitVec.toNat_ofNat, Nat.mod_eq_of_lt ha,
    Nat.mod_eq_of_lt hb]

theorem f32Mul_finite (c : Config) {a b : Word} {va vb : Finite} (ha : classify a = .finite va)
    (hb : classify b = .finite vb) : f32Mul c a b =
      roundPack c.subnormalReround (va.sign ^^ vb.sign) (va.m * vb.m) (va.e + vb.e - 46) := by
  simp only [f32Mul, ha, hb, mulFinite, significand_product (significand_lt ha) (significand_lt hb)]

/-- Settles O50: one lemma per row, the exact product, and its range for normal operands. -/
theorem mulFollowsItsTable : Obligations.MulFollowsItsTable := by
  intro c a b
  rw [withProductSign_infinity, withProductSign_zero]
  refine ⟨f32Mul_nan c, f32Mul_zero_inf c, f32Mul_inf c, f32Mul_zero c, fun va vb ha hb => ?_⟩
  have hma := significand_lt ha
  have hmb := significand_lt hb
  refine ⟨significand_product hma hmb, f32Mul_finite c ha hb, fun hna hnb => ⟨?_, ?_⟩⟩
  · exact le_trans (by decide : 2 ^ 46 ≤ 2 ^ 23 * 2 ^ 23) (Nat.mul_le_mul hna hnb)
  · exact lt_of_lt_of_le (Nat.mul_lt_mul'' hma hmb) (by decide)

/-! ### Commutation (R188) -/

theorem f32Mul_comm (c : Config) (a b : Word) : f32Mul c a b = f32Mul c b a := by
  by_cases hfin : ∃ va vb, classify a = .finite va ∧ classify b = .finite vb
  · obtain ⟨va, vb, ha, hb⟩ := hfin
    rw [f32Mul_finite c ha hb, f32Mul_finite c hb ha, Bool.xor_comm, Nat.mul_comm, add_comm va.e]
  · rw [f32Mul, f32Mul, Bool.xor_comm]
    cases ha : classify a with
    | nan | infinity | zero => cases classify b <;> rfl
    | finite va =>
      cases hb : classify b with
      | nan | infinity | zero => rfl
      | finite vb => exact absurd ⟨va, vb, ha, hb⟩ hfin

theorem f32Add_comm (c : Config) {a b : Word} (hz : ¬ (IsZero a ∧ IsZero b)) :
    f32Add c a b = f32Add c b a := by
  by_cases hinf : IsInf a ∧ IsInf b
  · rw [f32Add_inf_inf c hinf.1 hinf.2, f32Add_inf_inf c hinf.2 hinf.1]
    by_cases hab : a = b
    · rw [hab]
    · rw [if_neg hab, if_neg (Ne.symm hab)]
  · simp only [isInf_iff_classify, isZero_iff_classify] at hinf hz
    rw [f32Add, f32Add]
    cases ha : classify a with
    | nan => cases classify b <;> rfl
    | infinity s =>
      cases hb : classify b with
      | infinity t => exact absurd ⟨⟨s, ha⟩, t, hb⟩ hinf
      | nan | zero | finite => rfl
    | zero s =>
      cases hb : classify b with
      | zero t => exact absurd ⟨⟨s, ha⟩, t, hb⟩ hz
      | nan | infinity | finite => rfl
    | finite va =>
      cases classify b with
      | nan | infinity | zero => rfl
      | finite vb => exact addFinite_comm ..

theorem not_isNan_of_isZero {w : Word} (h : IsZero w) : ¬ IsNan w := fun hn => by
  rw [isNan_iff_classify, classify_zero h] at hn
  cases hn

/-- Settles O54: the tables are symmetric but for the row of two zeros. -/
theorem addAndMulCommute : Obligations.AddAndMulCommute :=
  ⟨f32Mul_comm, fun c _ _ => f32Add_comm c,
    fun c _ _ ha hb => f32Add_zero_left c ha (not_isNan_of_isZero hb)⟩

end Sys2Proof.Machine
end

section
/-! PROOFS. Division: the rows of its special-case table (spec 43_fpu.md R184). -/

namespace Sys2Proof.Machine

section
variable (c : Config) {a b : Word}

theorem f32Div_nan (h : IsNan a ∨ IsNan b) : f32Div c a b = nanResult c := by
  simp only [isNan_iff_classify] at h
  rcases h with ha | hb
  · rw [f32Div, ha]
  · rw [f32Div, hb]
    cases classify a <;> rfl

theorem f32Div_invalid (h : (IsZero a ∧ IsZero b) ∨ (IsInf a ∧ IsInf b)) :
    f32Div c a b = invalidResult c := by
  rcases h with ⟨ha, hb⟩ | ⟨ha, hb⟩
  · rw [f32Div, classify_zero ha, classify_zero hb]
  · rw [f32Div, classify_inf ha, classify_inf hb]

theorem f32Div_inf_left (ha : IsInf a) (hn : ¬ IsNan b) (hi : ¬ IsInf b) :
    f32Div c a b = ⟨fpInfinity (fpSign a ^^ fpSign b), FpuFlags.onlyOverflow⟩ := by
  rcases classify_of_not_nan_inf hn hi with ⟨s, hb⟩ | ⟨v, hb⟩ <;>
    rw [f32Div, classify_inf ha, hb]

theorem f32Div_zero_left (ha : IsZero a) (hn : ¬ IsNan b) (hz : ¬ IsZero b) :
    f32Div c a b = ⟨fpZero (fpSign a ^^ fpSign b), FpuFlags.onlyUnderflow⟩ := by
  rcases classify_of_not_nan_zero hn hz with ⟨s, hb⟩ | ⟨v, hb⟩ <;>
    rw [f32Div, classify_zero ha, hb]

theorem f32Div_zero_right (hb : IsZero b) (ha : IsFiniteNonzero a) :
    f32Div c a b = ⟨fpInfinity (fpSign a ^^ fpSign b), FpuFlags.onlyOverflow⟩ := by
  obtain ⟨v, hv, -⟩ := classify_finite ha
  rw [f32Div, hv, classify_zero hb]

theorem f32Div_inf_right (hb : IsInf b) (ha : IsFiniteNonzero a) :
    f32Div c a b = ⟨fpZero (fpSign a ^^ fpSign b), FpuFlags.onlyUnderflow⟩ := by
  obtain ⟨v, hv, -⟩ := classify_finite ha
  rw [f32Div, hv, classify_inf hb]

theorem f32Div_finite {va vb : Finite} (ha : classify a = .finite va)
    (hb : classify b = .finite vb) : f32Div c a b = divFinite c va vb := by
  rw [f32Div, ha, hb]

end

/-- Settles O51: one lemma per row, and 1 and -1 divided by 0. -/
theorem divSpecialCases : Obligations.DivSpecialCases := by
  intro c a b
  rw [withProductSign_infinity, withProductSign_zero]
  have hfin : IsFiniteNonzero 0x3F800000#32 ∧ IsFiniteNonzero 0xBF800000#32 := by
    unfold IsFiniteNonzero IsNan IsInf IsZero
    decide
  exact ⟨f32Div_nan c, f32Div_invalid c, f32Div_inf_left c, f32Div_zero_right c,
    f32Div_zero_left c, f32Div_inf_right c, f32Div_zero_right c (.inl rfl) hfin.1,
    f32Div_zero_right c (.inl rfl) hfin.2⟩

end Sys2Proof.Machine
end

section
/-! PROOFS. Rounding to the nearest integer, ties to even, and the guard, round and sticky bits that
compute it (spec 43_fpu.md R174, R177). The rounder is read as a function of an exact rational: `Represents`
says which rationals an input M · 2^q of the rounder may stand for. -/

namespace Sys2Proof.Machine

/-! ### The nearest integer -/

/-- k is the integer nearest to x, the even one of two that are as near. -/
def IsNearestEven (k : Nat) (x : ℚ) : Prop :=
  |(k : ℚ) - x| ≤ 1 / 2 ∧ (|(k : ℚ) - x| = 1 / 2 → Even k)

theorem isNearestEven_self (k : Nat) : IsNearestEven k k := by
  simp [IsNearestEven]

/-- Against an even j the nearest integer is smaller exactly below the midpoint j - 1/2. -/
theorem IsNearestEven.lt_iff {k j : Nat} {x : ℚ} (h : IsNearestEven k x) (hj : Even j) :
    k < j ↔ x < j - 1 / 2 := by
  obtain ⟨hle, htie⟩ := h
  have hb := abs_le.mp hle
  constructor
  · intro hlt
    have hcast : (k : ℚ) + 1 ≤ j := by exact_mod_cast hlt
    by_contra hge
    have hx : x = j - 1 / 2 := by linarith
    have hk : k + 1 = j := by
      have : (k : ℚ) + 1 = j := by linarith
      exact_mod_cast this
    have heven : Even k := htie (by rw [hx, ← hk, Nat.cast_add_one, abs_of_neg] <;> linarith)
    rw [← hk] at hj
    exact Nat.even_add_one.mp hj heven
  · intro hlt
    have : (k : ℚ) < j := by linarith
    exact_mod_cast this

theorem IsNearestEven.unique {k j : Nat} {x : ℚ} (hk : IsNearestEven k x)
    (hj : IsNearestEven j x) : k = j := by
  wlog hlt : k < j generalizing k j
  · rcases (not_lt.mp hlt).eq_or_lt with h | h
    · exact h.symm
    · exact (this hj hk h).symm
  have hbk := abs_le.mp hk.1
  have hbj := abs_le.mp hj.1
  have hcast : (k : ℚ) + 1 ≤ j := by exact_mod_cast hlt
  have hx : x = k + 1 / 2 := by linarith
  have hsucc : j = k + 1 := by
    have : (j : ℚ) = k + 1 := by linarith
    exact_mod_cast this
  have hek : Even k := hk.2 (by rw [hx, abs_of_neg] <;> linarith)
  have hej : Even j := hj.2 (by rw [hx, hsucc, Nat.cast_add_one, abs_of_pos] <;> linarith)
  exact absurd hek (Nat.even_add_one.mp (hsucc ▸ hej))

/-- The nearest integer is no further from x than any other, and even where another is as near. -/
theorem IsNearestEven.le_dist {k j : Nat} {x : ℚ} (h : IsNearestEven k x) :
    |(k : ℚ) - x| ≤ |(j : ℚ) - x| ∧ (j ≠ k → |(k : ℚ) - x| = |(j : ℚ) - x| → Even k) := by
  by_cases hjk : j = k
  · exact ⟨by rw [hjk], fun hne => absurd hjk hne⟩
  have hone : (1 : ℚ) ≤ |(j : ℚ) - k| := by
    have : (1 : ℤ) ≤ |(j : ℤ) - k| := Int.one_le_abs (by omega)
    exact_mod_cast this
  have htri : |(j : ℚ) - k| ≤ |(j : ℚ) - x| + |(k : ℚ) - x| := by
    rw [abs_sub_comm (k : ℚ) x]
    exact abs_sub_le _ _ _
  have hle := h.1
  exact ⟨by linarith, fun _ heq => h.2 (by linarith)⟩

/-! ### Guard, round and sticky bits -/

/-- M / 2^n rounded by its guard bit, the bits below it and the last kept bit (R174, R177). -/
def roundBits (M n : Nat) : Nat :=
  M >>> n + (M.testBit (n - 1) && (stickyBelow M (n - 1) || (M >>> n).testBit 0)).toNat

theorem stickyBelow_eq_false_iff (M n : Nat) : stickyBelow M n = false ↔ M % 2 ^ n = 0 := by
  simp [stickyBelow]

/-- The low n + 1 bits of M are its bit n and its low n bits. -/
theorem mod_two_pow_succ_eq (M n : Nat) :
    M % 2 ^ (n + 1) = M % 2 ^ n + 2 ^ n * (M.testBit n).toNat := by
  rw [Nat.mod_pow_succ, Nat.testBit_eq_decide_div_mod_eq]
  rcases Nat.mod_two_eq_zero_or_one (M / 2 ^ n) with h | h <;> simp [h]

theorem stickyBelow_succ (M n : Nat) :
    stickyBelow M (n + 1) = (M.testBit n || stickyBelow M n) := by
  have hpos := Nat.two_pow_pos n
  rw [Bool.eq_iff_iff]
  simp only [stickyBelow, mod_two_pow_succ_eq, Bool.or_eq_true, bne_iff_ne]
  cases M.testBit n <;> simp

/-- The rounded bits by the three ways a remainder 2^n · guard + r of M / 2^(n + 1) can lie. -/
theorem roundBits_succ (M n : Nat) :
    roundBits M (n + 1) = M / 2 ^ (n + 1) +
      if M.testBit n = true ∧ (M % 2 ^ n ≠ 0 ∨ M / 2 ^ (n + 1) % 2 = 1) then 1 else 0 := by
  rw [roundBits, Nat.shiftRight_eq_div_pow, Nat.add_sub_cancel, Nat.testBit_zero]
  split <;> rename_i h <;> simpa [stickyBelow] using h

/-- The distance of M from the rounded bits, in units of 2^-(n + 1): at most the half, and the half only
where the rounded bits are even. -/
theorem roundBits_nearest (M n : Nat) :
    |(2 : ℤ) ^ (n + 1) * roundBits M (n + 1) - M| ≤ 2 ^ n ∧
      (|(2 : ℤ) ^ (n + 1) * roundBits M (n + 1) - M| = 2 ^ n → Even (roundBits M (n + 1))) := by
  have hM := Nat.div_add_mod M (2 ^ (n + 1))
  have hr : M % 2 ^ n < 2 ^ n := Nat.mod_lt _ (Nat.two_pow_pos n)
  rw [mod_two_pow_succ_eq] at hM
  rw [roundBits_succ]
  generalize M / 2 ^ (n + 1) = k at *
  generalize M % 2 ^ n = r at *
  have hcast : (M : ℤ) = 2 ^ (n + 1) * k + (r + 2 ^ n * (M.testBit n).toNat) := by
    exact_mod_cast hM.symm
  have hr' : (r : ℤ) < 2 ^ n := by exact_mod_cast hr
  rw [hcast]
  generalize M.testBit n = guard
  split <;> rename_i hup
  · obtain ⟨rfl, hor⟩ := hup
    have hdist : (2 : ℤ) ^ (n + 1) * ((k + 1 : ℕ) : ℤ) - (2 ^ (n + 1) * k + (r + 2 ^ n * true.toNat)) =
        2 ^ n - r := by push_cast [Bool.toNat_true]; ring
    rw [hdist, abs_of_pos (by omega)]
    exact ⟨by omega, fun htie => Nat.even_iff.mpr (by omega)⟩
  · have hdist : (2 : ℤ) ^ (n + 1) * ((k + 0 : ℕ) : ℤ) - (2 ^ (n + 1) * k + (r + 2 ^ n * guard.toNat)) =
        -(r + 2 ^ n * guard.toNat) := by push_cast; ring
    rw [hdist, abs_neg, abs_of_nonneg (by positivity)]
    cases guard
    · simp only [Bool.toNat_false]
      exact ⟨by omega, fun htie => by omega⟩
    · have hr0 : r = 0 := by simp at hup; omega
      simp [hr0] at hup ⊢
      exact Nat.even_iff.mpr hup

/-- The sticky bits are clear exactly where the rounded bits are M / 2^(n + 1) itself. -/
theorem stickyBelow_eq_false_iff_roundBits (M n : Nat) : stickyBelow M (n + 1) = false ↔
    (2 : ℤ) ^ (n + 1) * roundBits M (n + 1) = M := by
  rw [stickyBelow_eq_false_iff]
  constructor
  · intro h
    have hlow := mod_two_pow_succ_eq M n
    have hguard : M.testBit n = false := by
      have hpos := Nat.two_pow_pos n
      cases hg : M.testBit n
      · rfl
      · rw [h, hg, Bool.toNat_true] at hlow
        omega
    rw [roundBits_succ, if_neg (by simp [hguard])]
    exact_mod_cast Nat.mul_div_cancel' (Nat.dvd_of_mod_eq_zero h)
  · intro h
    exact Nat.mod_eq_zero_of_dvd ⟨roundBits M (n + 1), by exact_mod_cast h.symm⟩

/-! ### The exact value behind an input of the rounder -/

/-- The rationals an input (M, q) of the rounder may stand for: M · 2^q itself, or, where M is odd and
long enough for its last bit to lie below the round bit, any x next to it. -/
def Represents (M : Nat) (q : Int) (x : ℚ) : Prop :=
  (M : ℚ) * 2 ^ q = x ∨ (2 ^ 25 ≤ M ∧ Odd M ∧ |x - M * 2 ^ q| < 2 ^ q)

theorem represents_self (M : Nat) (q : Int) : Represents M q ((M : ℚ) * 2 ^ q) := .inl rfl

/-- The value M · 2^q in units of 2^u, rounded, and whether a bit was lost (R174, R177). -/
def roundUnits (M : Nat) (q u : Int) : Nat × Bool :=
  if u ≤ q then (M <<< (q - u).toNat, false)
  else (roundBits M (u - q).toNat, stickyBelow M (u - q).toNat)

/-- A bound in units of 2^-(n + 1) read as a bound on the quotient. -/
theorem isNearestEven_div {R n : Nat} {x : ℚ} (hle : |(2 : ℚ) ^ (n + 1) * R - x| ≤ 2 ^ n)
    (htie : |(2 : ℚ) ^ (n + 1) * R - x| = 2 ^ n → Even R) :
    IsNearestEven R (x / 2 ^ (n + 1)) := by
  have hpos : (0 : ℚ) < 2 ^ (n + 1) := by positivity
  have hdist : |(R : ℚ) - x / 2 ^ (n + 1)| = |(2 : ℚ) ^ (n + 1) * R - x| / 2 ^ (n + 1) := by
    rw [← abs_of_pos hpos, ← abs_div, abs_of_pos hpos]
    congr 1
    field_simp
  have hhalf : (1 : ℚ) / 2 * 2 ^ (n + 1) = 2 ^ n := by ring
  rw [IsNearestEven, hdist, div_le_iff₀ hpos, div_eq_iff hpos.ne', hhalf]
  exact ⟨hle, htie⟩

/-- Rounding M at n + 1 bits rounds every rational that M stands for there: M itself, or a rational next
to an odd M that has a bit below its guard bit. -/
theorem roundBits_isNearestEven {M n : Nat} {x : ℚ}
    (h : (M : ℚ) = x ∨ (Odd M ∧ 1 ≤ n ∧ |x - M| < 1)) :
    IsNearestEven (roundBits M (n + 1)) (x / 2 ^ (n + 1)) ∧
      (stickyBelow M (n + 1) = false ↔ (2 : ℚ) ^ (n + 1) * roundBits M (n + 1) = x) := by
  obtain ⟨hle, htie⟩ := roundBits_nearest M n
  have hflag := stickyBelow_eq_false_iff_roundBits M n
  generalize roundBits M (n + 1) = R at *
  rcases h with rfl | ⟨hodd, hn, hnear⟩
  · refine ⟨isNearestEven_div (by exact_mod_cast hle) fun h => htie (by exact_mod_cast h), ?_⟩
    rw [hflag]
    exact_mod_cast Iff.rfl
  · obtain ⟨j, rfl⟩ := hodd
    obtain ⟨n, rfl⟩ := Nat.exists_eq_add_of_le' hn
    have heven : (2 : ℤ) ^ (n + 1 + 1) * R = 2 * (2 ^ (n + 1) * R) := by ring
    have hhalf : (2 : ℤ) ^ (n + 1) = 2 * 2 ^ n := by ring
    have hne : (2 : ℤ) ^ (n + 1 + 1) * R - (2 * j + 1 : ℕ) ≠ 0 := by omega
    have hlt : |(2 : ℤ) ^ (n + 1 + 1) * R - (2 * j + 1 : ℕ)| + 1 ≤ 2 ^ (n + 1) := by
      obtain ⟨hlo, hhi⟩ := abs_le.mp hle
      have : |(2 : ℤ) ^ (n + 1 + 1) * R - (2 * j + 1 : ℕ)| ≤ 2 ^ (n + 1) - 1 :=
        abs_le.mpr ⟨by omega, by omega⟩
      omega
    have hone := Int.one_le_abs hne
    have hltQ : |(2 : ℚ) ^ (n + 1 + 1) * R - (2 * j + 1 : ℕ)| + 1 ≤ 2 ^ (n + 1) := by
      exact_mod_cast hlt
    have honeQ : (1 : ℚ) ≤ |(2 : ℚ) ^ (n + 1 + 1) * R - (2 * j + 1 : ℕ)| := by
      exact_mod_cast hone
    have htri := abs_sub_le ((2 : ℚ) ^ (n + 1 + 1) * R) ((2 * j + 1 : ℕ) : ℚ) x
    have hstrict : |(2 : ℚ) ^ (n + 1 + 1) * R - x| < 2 ^ (n + 1) := by
      rw [abs_sub_comm x] at hnear
      linarith
    refine ⟨isNearestEven_div hstrict.le fun h => absurd h hstrict.ne, ?_⟩
    refine iff_of_false (fun h => hne (by rw [hflag.mp h, sub_self])) fun h => ?_
    rw [h] at honeQ
    linarith

theorem roundUnits_spec {M : Nat} {q u : Int} {x : ℚ} (h : Represents M q x)
    (hu : (M : ℚ) * 2 ^ q = x ∨ q + 2 ≤ u) :
    IsNearestEven (roundUnits M q u).1 (x / 2 ^ u) ∧
      ((roundUnits M q u).2 = false ↔ ((roundUnits M q u).1 : ℚ) * 2 ^ u = x) := by
  have hq : (0 : ℚ) < 2 ^ q := by positivity
  by_cases huq : u ≤ q
  · have hx : (M : ℚ) * 2 ^ q = x := hu.resolve_right (by omega)
    have hunits : ((M <<< (q - u).toNat : ℕ) : ℚ) * 2 ^ u = x := by
      rw [Nat.shiftLeft_eq, Nat.cast_mul, mul_assoc, ← zpow_eq_natPow_mul (a := q) (by omega), hx]
    rw [roundUnits, if_pos huq]
    refine ⟨?_, iff_of_true rfl hunits⟩
    rw [← hunits, mul_div_cancel_right₀ _ (by positivity)]
    exact isNearestEven_self _
  · obtain ⟨n, hn⟩ : ∃ n : ℕ, u = q + ((n + 1 : ℕ) : ℤ) := ⟨(u - q - 1).toNat, by omega⟩
    have hx : (M : ℚ) = x / 2 ^ q ∨ (Odd M ∧ 1 ≤ n ∧ |x / 2 ^ q - M| < 1) := by
      rcases h with h | ⟨-, hodd, hnear⟩
      · exact .inl (eq_div_of_mul_eq hq.ne' h)
      · refine hu.imp (eq_div_of_mul_eq hq.ne') fun hge => ⟨hodd, by omega, ?_⟩
        have hdist : x / 2 ^ q - M = (x - M * 2 ^ q) / 2 ^ q := by field_simp
        rwa [hdist, abs_div, abs_of_pos hq, div_lt_one hq]
    obtain ⟨hnear, hflag⟩ := roundBits_isNearestEven hx
    have hz : (2 : ℚ) ^ u = 2 ^ q * 2 ^ (n + 1) := by
      rw [hn, zpow_add₀ two_ne_zero, zpow_natCast]
    rw [roundUnits, if_neg huq, show (u - q).toNat = n + 1 by omega, hz, ← div_div]
    refine ⟨hnear, hflag.trans ?_⟩
    rw [eq_div_iff hq.ne']
    constructor <;> intro h <;> rw [← h] <;> ring

end Sys2Proof.Machine
end

section
/-! PROOFS. The rounder as a function of the exact value: two inputs that stand for the same rational pack to
the same result (spec 43_fpu.md R173 to R177). -/

namespace Sys2Proof.Machine

/-! ### The two roundings are the same operation -/

/-- A carry out of the rounded significand renormalizes (R174). -/
def carried (units : Nat × Bool) (e : Int) : FirstRounding :=
  if units.1 = 2 ^ 24 then ⟨2 ^ 23, e + 1, units.2⟩ else ⟨units.1, e, units.2⟩

theorem bitBelow_of_lt (M : Nat) {p d : Nat} (h : p < d) : bitBelow M p d = false := by
  rw [bitBelow, decide_eq_false (by omega), Bool.false_and]

theorem bitBelow_of_le (M : Nat) {p d : Nat} (h : d ≤ p) :
    bitBelow M p d = M.testBit (p - d) := by
  rw [bitBelow, decide_eq_true h, Bool.true_and]

theorem stickyBelow_zero (M : Nat) : stickyBelow M 0 = false := by
  simp [stickyBelow, Nat.mod_one]

/-- R and S together are the bits below the guard bit. -/
theorem round_or_sticky (M : Nat) {p : Nat} (h : 24 ≤ p) :
    (bitBelow M p 25 || (decide (26 ≤ p) && stickyBelow M (p - 25))) = stickyBelow M (p - 24) := by
  rcases h.eq_or_lt with rfl | h25
  · rw [bitBelow_of_lt M (by decide), stickyBelow_zero]
    rfl
  · rw [show p - 24 = p - 25 + 1 by omega, stickyBelow_succ, bitBelow_of_le M h25]
    rcases Nat.lt_or_ge p 26 with h26 | h26
    · rw [show p - 25 = 0 by omega, stickyBelow_zero, Bool.and_false]
    · rw [decide_eq_true h26, Bool.true_and]

/-- The first rounding rounds to the unit that leaves 24 bits. -/
theorem firstRounding_eq (M : Nat) (q : Int) :
    firstRounding M q = carried (roundUnits M q (M.log2 + q - 23)) (M.log2 + q) := by
  generalize hp : M.log2 = p
  by_cases hle : p ≤ 23
  · rw [roundUnits, if_pos (by omega), show (q - (p + q - 23)).toNat = 23 - p by omega]
    simp only [firstRounding, hp, keepBits, if_pos hle, bitBelow_of_lt M (show p < 24 by omega),
      bitBelow_of_lt M (show p < 25 by omega), decide_eq_false (show ¬ 26 ≤ p by omega),
      Bool.false_and, Bool.or_false, Bool.toNat_false, Nat.add_zero, carried]
  · have h24 : 24 ≤ p := by omega
    have hflag : stickyBelow M (p - 23) = (M.testBit (p - 24) || stickyBelow M (p - 24)) := by
      rw [show p - 23 = p - 24 + 1 by omega, stickyBelow_succ]
    rw [roundUnits, if_neg (by omega), show ((p : Int) + q - 23 - q).toNat = p - 23 by omega]
    simp only [firstRounding, hp, keepBits, if_neg hle, bitBelow_of_le M h24, Bool.or_assoc,
      round_or_sticky M h24, carried, hflag, roundBits, show p - 23 - 1 = p - 24 by omega]

/-- The subnormal path rounds to units of 2^-149. -/
theorem subnormalUnits_eq (M : Nat) (q : Int) : subnormalUnits M q = roundUnits M q (-149) := by
  by_cases h : -149 ≤ q
  · simp only [subnormalUnits, roundUnits, if_pos h, if_pos (show -149 - q ≤ 0 by omega), neg_sub]
  · simp only [subnormalUnits, roundUnits, if_neg h, if_neg (show ¬ -149 - q ≤ 0 by omega)]
    rfl

/-! ### The exact value decides -/

/-- The leading 1 of M stands at the binary logarithm of the exact value. -/
theorem Represents.zpow_bounds {M : Nat} {q : Int} {x : ℚ} (h : Represents M q x) (hM : M ≠ 0) :
    (2 : ℚ) ^ (M.log2 + q) ≤ x ∧ x < (2 : ℚ) ^ (M.log2 + q + 1) := by
  have hq : (0 : ℚ) < 2 ^ q := by positivity
  have hlo : 2 ^ M.log2 ≤ M := Nat.log2_self_le hM
  have hhi : M < 2 ^ (M.log2 + 1) := Nat.lt_log2_self
  have hzlo : (2 : ℚ) ^ (M.log2 + q) = ((2 ^ M.log2 : ℕ) : ℚ) * 2 ^ q :=
    zpow_eq_natPow_mul rfl
  have hzhi : (2 : ℚ) ^ (M.log2 + q + 1) = ((2 ^ (M.log2 + 1) : ℕ) : ℚ) * 2 ^ q :=
    zpow_eq_natPow_mul (by omega)
  rw [hzlo, hzhi]
  rcases h with rfl | ⟨hlarge, hodd, hnear⟩
  · exact ⟨mul_le_mul_of_nonneg_right (by exact_mod_cast hlo) hq.le,
      mul_lt_mul_of_pos_right (by exact_mod_cast hhi) hq⟩
  · have hp : M.log2 ≠ 0 := fun h0 => by rw [h0] at hhi; omega
    have hne : 2 ^ M.log2 ≠ M := fun h0 =>
      Nat.not_even_iff_odd.mpr hodd (h0 ▸ (Nat.even_pow.mpr ⟨even_two, hp⟩))
    have hloQ : ((2 ^ M.log2 : ℕ) : ℚ) + 1 ≤ M := by exact_mod_cast lt_of_le_of_ne hlo hne
    have hhiQ : (M : ℚ) + 1 ≤ (2 ^ (M.log2 + 1) : ℕ) := by exact_mod_cast hhi
    have hlo' := mul_le_mul_of_nonneg_right hloQ hq.le
    have hhi' := mul_le_mul_of_nonneg_right hhiQ hq.le
    obtain ⟨hx1, hx2⟩ := abs_lt.mp hnear
    constructor <;> linarith

theorem Represents.pos {M : Nat} {q : Int} {x : ℚ} (h : Represents M q x) (hM : M ≠ 0) :
    0 < x :=
  lt_of_lt_of_le (by positivity) (h.zpow_bounds hM).1

theorem Represents.log_eq {M : Nat} {q : Int} {x : ℚ} (h : Represents M q x) (hM : M ≠ 0) :
    M.log2 + q = Int.log 2 x := by
  obtain ⟨hlo, hhi⟩ := h.zpow_bounds hM
  have hpos := h.pos hM
  have h1 : (M.log2 : ℤ) + q ≤ Int.log 2 x :=
    (Int.zpow_le_iff_le_log (b := 2) (by decide) hpos).mp (by exact_mod_cast hlo)
  have h2 : Int.log 2 x < M.log2 + q + 1 :=
    (Int.lt_zpow_iff_log_lt (b := 2) (by decide) hpos).mp (by exact_mod_cast hhi)
  omega

theorem Represents.eq_zero_iff {M : Nat} {q : Int} {x : ℚ} (h : Represents M q x) :
    M = 0 ↔ x = 0 := by
  constructor
  · rintro rfl
    rcases h with h | ⟨hlarge, -⟩
    · rw [← h, Nat.cast_zero, zero_mul]
    · omega
  · intro hx
    by_contra hM
    exact (h.pos hM).ne' hx

/-- Where the last bit of an inexact M must lie for a rounding to the unit 2^u to see the exact value. -/
theorem Represents.low_enough {M : Nat} {q u : Int} {x : ℚ} (h : Represents M q x)
    (hu : Int.log 2 x - 23 ≤ u) : (M : ℚ) * 2 ^ q = x ∨ q + 2 ≤ u := by
  rcases h with hx | hodd
  · exact .inl hx
  · have hM : M ≠ 0 := by omega
    have hlog := Represents.log_eq (.inr hodd) hM
    have h25 : 25 ≤ M.log2 := (Nat.le_log2 hM).mpr hodd.1
    exact .inr (by omega)

/-- The rounding of an exact value x ≠ 0 to a unit at or above that of 24 bits. -/
theorem Represents.roundUnits_spec {M : Nat} {q u : Int} {x : ℚ} (h : Represents M q x)
    (hu : Int.log 2 x - 23 ≤ u) :
    IsNearestEven (roundUnits M q u).1 (x / 2 ^ u) ∧
      ((roundUnits M q u).2 = false ↔ ((roundUnits M q u).1 : ℚ) * 2 ^ u = x) :=
  Machine.roundUnits_spec h (h.low_enough hu)

/-- The rounding depends on the exact value only. -/
theorem roundUnits_congr {M M' : Nat} {q q' u : Int} {x : ℚ} (h : Represents M q x)
    (h' : Represents M' q' x) (hu : Int.log 2 x - 23 ≤ u) :
    roundUnits M q u = roundUnits M' q' u := by
  obtain ⟨hnear, hflag⟩ := h.roundUnits_spec hu
  obtain ⟨hnear', hflag'⟩ := h'.roundUnits_spec hu
  have hunits := hnear.unique hnear'
  refine Prod.ext hunits ?_
  rw [Bool.eq_iff_iff, ← not_iff_not, Bool.not_eq_true, Bool.not_eq_true, hflag, hflag', hunits]

theorem Represents.firstRounding_eq {M : Nat} {q : Int} {x : ℚ} (h : Represents M q x)
    (hM : M ≠ 0) :
    firstRounding M q = carried (roundUnits M q (Int.log 2 x - 23)) (Int.log 2 x) := by
  rw [Machine.firstRounding_eq, h.log_eq hM]

theorem le_carried_e (units : Nat × Bool) (e : Int) : e ≤ (carried units e).e := by
  unfold carried
  split <;> simp

/-- The rounder, in both modes of the subnormal path, depends on the exact value only. -/
theorem roundPack_congr (mode : SubnormalReround) (sign : Bool) {M M' : Nat} {q q' : Int} {x : ℚ}
    (h : Represents M q x) (h' : Represents M' q' x) :
    roundPack mode sign M q = roundPack mode sign M' q' := by
  by_cases hx : x = 0
  · rw [h.eq_zero_iff.mpr hx, h'.eq_zero_iff.mpr hx]
    rfl
  have hM : M ≠ 0 := mt h.eq_zero_iff.mp hx
  have hM' : M' ≠ 0 := mt h'.eq_zero_iff.mp hx
  have hfirst : firstRounding M q = firstRounding M' q' := by
    rw [h.firstRounding_eq hM, h'.firstRounding_eq hM', roundUnits_congr h h' le_rfl]
  have hlog : Int.log 2 x ≤ (firstRounding M' q').e := by
    rw [h'.firstRounding_eq hM']
    exact le_carried_e _ _
  simp only [roundPack, if_neg hM, if_neg hM', hfirst]
  split
  · rfl
  split
  · rfl
  · cases mode with
    | fromRounded => rfl
    | fromUnrounded =>
      simp only [subnormalPack, subnormalUnits_eq,
        roundUnits_congr h h' (u := -149) (by omega)]

end Sys2Proof.Machine
end

section
/-! PROOFS. The words the rounder packs, and the correctly rounded value under FROM_UNROUNDED (spec 43_fpu.md
R175 to R178). -/

namespace Sys2Proof.Machine

/-! ### The words the rounder packs -/

theorem fpMagnitude_of_finite {w : Word} {v : Finite} (h : classify w = .finite v) :
    fpMagnitude w = some v.magnitude := by
  rw [fpMagnitude, h]

theorem fpMagnitude_of_inf {w : Word} (h : IsInf w) : fpMagnitude w = none := by
  rw [fpMagnitude, classify_inf h]

theorem not_isNan_of_isInf {w : Word} (h : IsInf w) : ¬ IsNan w := fun hn => by
  rw [isNan_iff_classify, classify_inf h] at hn
  cases hn

theorem not_isInf_of_magnitude {w : Word} {y : ℚ} (h : fpMagnitude w = some y) : ¬ IsInf w :=
  fun hi => by rw [fpMagnitude_of_inf hi] at h; cases h

theorem not_isNan_of_magnitude {w : Word} {y : ℚ} (h : fpMagnitude w = some y) : ¬ IsNan w :=
  fun hn => by rw [fpMagnitude, classify_nan hn] at h; cases h

/-- The significand of a normal word: the fraction below a leading 1 (R171). -/
theorem leadingOne_toNat (f : BitVec 23) : (1#1 ++ f).toNat = 2 ^ 23 + f.toNat := by
  rw [BitVec.toNat_append, ← Nat.shiftLeft_add_eq_or_of_lt f.isLt]
  rfl

/-- The significand of a subnormal word is its fraction (R171). -/
theorem leadingZero_toNat (f : BitVec 23) : (0#1 ++ f).toNat = f.toNat := by
  rw [BitVec.toNat_append]
  simp

theorem fpMagnitude_normal (sign : Bool) {k : Nat} {e : Int} (hk1 : 2 ^ 23 ≤ k) (hk2 : k < 2 ^ 24)
    (he1 : -126 ≤ e) (he2 : e ≤ 127) :
    fpMagnitude (fpPack sign (BitVec.ofNat 8 (e + 127).toNat) (BitVec.ofNat 23 k)) =
      some (k * (2 : ℚ) ^ (e - 23)) := by
  have hmod : (e + 127).toNat % 2 ^ 8 = (e + 127).toNat := Nat.mod_eq_of_lt (by omega)
  have hne (n : Nat) (hn : n = 0 ∨ n = 255) :
      BitVec.ofNat 8 (e + 127).toNat ≠ BitVec.ofNat 8 n := fun h => by
    have := congrArg BitVec.toNat h
    simp only [BitVec.toNat_ofNat, hmod] at this
    omega
  rw [fpMagnitude_of_finite (classify_of_normal (by simpa using hne 255 (.inr rfl))
    (by simpa using hne 0 (.inl rfl)))]
  simp only [Finite.magnitude, fpExponent_fpPack, fpFraction_fpPack, leadingOne_toNat,
    BitVec.toNat_ofNat, hmod, show 2 ^ 23 + k % 2 ^ 23 = k by omega]
  rw [Int.toNat_of_nonneg (by omega), add_sub_cancel_right]

/-- A word with a number of units of 2^-149 as its low bits (R177): its exponent field is what the units
carry into it. -/
theorem fpZero_or_units (sign : Bool) {k : Nat} (hk : k < 2 ^ 31) :
    fpZero sign ||| BitVec.ofNat 32 k =
      fpPack sign (BitVec.ofNat 8 (k / 2 ^ 23)) (BitVec.ofNat 23 k) := by
  apply BitVec.eq_of_getLsbD_eq
  intro i hi
  rw [BitVec.getLsbD_or, fpZero, getLsbD_fpPack, getLsbD_fpPack]
  simp only [BitVec.getLsbD_ofNat, Nat.testBit_div_two_pow]
  by_cases hf : i < 23
  · simp [hf, hi]
  · by_cases he : i < 31
    · simp [hf, he, hi, show i - 23 < 8 by omega, show i - 23 + 23 = i by omega]
    · have htop : k.testBit i = false :=
        Nat.testBit_lt_two_pow (hk.trans_le (Nat.pow_le_pow_right (by decide) (by omega)))
      simp [hf, he, htop]

theorem fpMagnitude_units (sign : Bool) {k : Nat} (hk : k ≤ 2 ^ 23) :
    fpMagnitude (fpZero sign ||| BitVec.ofNat 32 k) = some (k * (2 : ℚ) ^ (-149 : Int)) := by
  rw [fpZero_or_units sign (by omega)]
  rcases hk.eq_or_lt with heq | hlt
  · rw [show k / 2 ^ 23 = ((-126 : Int) + 127).toNat by omega,
      fpMagnitude_normal sign (by omega) (by omega) (by decide) (by decide)]
    norm_num
  · rw [Nat.div_eq_of_lt hlt, fpMagnitude, classify_of_zero (fpExponent_fpPack ..),
      fpFraction_fpPack, leadingZero_toNat, BitVec.toNat_ofNat,
      Nat.mod_eq_of_lt hlt]
    by_cases h0 : k = 0
    · simp [h0]
    · have hne : BitVec.ofNat 23 k ≠ 0#23 := fun h => h0 (by
        have := congrArg BitVec.toNat h
        rwa [BitVec.toNat_ofNat, BitVec.toNat_ofNat, Nat.mod_eq_of_lt hlt] at this)
      rw [if_neg hne]
      rfl

theorem fpSign_units (sign : Bool) {k : Nat} (hk : k ≤ 2 ^ 23) :
    fpSign (fpZero sign ||| BitVec.ofNat 32 k) = sign := by
  rw [fpZero_or_units sign (by omega), fpSign_fpPack]

theorem lastBit_fpPack_of_even (sign : Bool) (e : BitVec 8) {k : Nat} (h : Even k) :
    (fpPack sign e (BitVec.ofNat 23 k)).getLsbD 0 = false := by
  rw [getLsbD_fpPack, if_pos (by decide), BitVec.getLsbD_ofNat, Nat.testBit_zero,
    Nat.even_iff.mp h]
  rfl

/-- The word of a finite operand, put together from its significand and exponent. -/
theorem eq_pack_of_classify {w : Word} {v : Finite} (h : classify w = .finite v) :
    (2 ^ 23 ≤ v.m ∧
      w = fpPack v.sign (BitVec.ofNat 8 (v.e + 127).toNat) (BitVec.ofNat 23 v.m)) ∨
    (v.m < 2 ^ 23 ∧ v.e = -126 ∧ w = fpZero v.sign ||| BitVec.ofNat 32 v.m) := by
  have hf := (fpFraction w).isLt
  by_cases h1 : fpExponent w = 0xFF#8
  · rw [classify_of_allOnes h1] at h
    split at h <;> cases h
  by_cases h0 : fpExponent w = 0x00#8
  · rw [classify_of_zero h0] at h
    split at h
    · cases h
    · cases h
      right
      simp only [leadingZero_toNat]
      refine ⟨hf, trivial, ?_⟩
      rw [fpZero_or_units _ (by omega), Nat.div_eq_of_lt hf, BitVec.ofNat_toNat,
        BitVec.setWidth_eq, ← h0, fpPack_fields]
  · rw [classify_of_normal h1 h0] at h
    cases h
    left
    have hm : BitVec.ofNat 23 (2 ^ 23 + (fpFraction w).toNat) = fpFraction w :=
      BitVec.eq_of_toNat_eq (by rw [BitVec.toNat_ofNat]; omega)
    simp only [leadingOne_toNat, hm]
    rw [sub_add_cancel, Int.toNat_natCast, BitVec.ofNat_toNat, BitVec.setWidth_eq, fpPack_fields]
    exact ⟨by omega, rfl⟩

end Sys2Proof.Machine
end

section
/-! PROOFS. The rounder under FROM_UNROUNDED returns the nearest binary32 value with the flags of the exact
value (spec 43_fpu.md R178). -/

namespace Sys2Proof.Machine

/-! ### Correct rounding -/

/-- The result of rounding the exact magnitude x with the given sign (R178). -/
structure CorrectlyRounded (sign : Bool) (x : ℚ) (res : FpuResult) : Prop where
  nearest : ∀ (w : Word) (y z : ℚ), fpMagnitude res.r = some y → fpMagnitude w = some z →
    |y - x| ≤ |z - x| ∧ (z ≠ y → |y - x| = |z - x| → res.r.getLsbD 0 = false)
  isInf : IsInf res.r ↔ (2 : ℚ) ^ (128 : Int) - (2 : ℚ) ^ (103 : Int) ≤ x
  notNan : ¬ IsNan res.r
  sign_eq : fpSign res.r = sign
  inexact : res.flags.inexact = false ↔ fpMagnitude res.r = some x
  overflow : res.flags.overflow = true ↔ IsInf res.r
  underflow : res.flags.underflow = true ↔
    res.flags.inexact = true ∧ x < (2 : ℚ) ^ (-126 : Int) - (2 : ℚ) ^ (-151 : Int)
  invalid : res.flags.invalid = false

/-- A finite result that is the nearest number k of units of 2^u, where u is the spacing of the binary32
values around x. -/
structure NearestUnits (sign : Bool) (x : ℚ) (res : FpuResult) (k : Nat) (u : Int) : Prop where
  nearest : IsNearestEven k (x / 2 ^ u)
  spacing : u = -149 ∨ (2 : ℚ) ^ (u + 23) ≤ x
  below : x < (2 : ℚ) ^ (128 : Int) - (2 : ℚ) ^ (103 : Int)
  magnitude : fpMagnitude res.r = some ((k : ℚ) * 2 ^ u)
  sign_eq : fpSign res.r = sign
  even : Even k → res.r.getLsbD 0 = false
  inexact : res.flags.inexact = false ↔ (k : ℚ) * 2 ^ u = x
  overflow : res.flags.overflow = false
  underflow : res.flags.underflow = true ↔
    res.flags.inexact = true ∧ x < (2 : ℚ) ^ (-126 : Int) - (2 : ℚ) ^ (-151 : Int)
  invalid : res.flags.invalid = false

/-- A binary32 magnitude is a 24-bit number of units of at least 2^-149. -/
theorem exists_units_of_magnitude {w : Word} {z : ℚ} (h : fpMagnitude w = some z) :
    ∃ (m : Nat) (t : Int), z = m * 2 ^ t ∧ m < 2 ^ 24 ∧ -149 ≤ t := by
  unfold fpMagnitude at h
  split at h
  · cases h
  · cases h
  · cases h
    exact ⟨0, -149, by simp, by decide, le_rfl⟩
  · rename_i v hv
    cases h
    refine ⟨v.m, v.e - 23, rfl, significand_lt hv, ?_⟩
    rcases classify_range hv with ⟨-, -, he, -⟩ | ⟨-, -, he⟩ <;> omega

theorem natCast_mul_zpow_lt {m : Nat} (hm : m < 2 ^ 24) (t : Int) :
    (m : ℚ) * 2 ^ t < 2 ^ (t + 24) := by
  rw [zpow_eq_natPow_mul (n := 24) (add_comm t 24)]
  exact mul_lt_mul_of_pos_right (by exact_mod_cast hm) (by positivity)

/-- Against the spacing 2^u a binary32 magnitude is a multiple of it or lies below 2^(u + 23). -/
theorem magnitude_on_grid {w : Word} {z : ℚ} (h : fpMagnitude w = some z) (u : Int) :
    (∃ j : Nat, z = j * 2 ^ u) ∨ (u ≠ -149 ∧ z < 2 ^ (u + 23)) := by
  obtain ⟨m, t, rfl, hm, ht⟩ := exists_units_of_magnitude h
  by_cases hut : u ≤ t
  · left
    refine ⟨m * 2 ^ (t - u).toNat, ?_⟩
    rw [Nat.cast_mul, mul_assoc, ← zpow_eq_natPow_mul (a := t) (by omega)]
  · refine .inr ⟨by omega, ?_⟩
    exact (natCast_mul_zpow_lt hm t).trans_le (zpow_le_zpow_right₀ (by norm_num) (by omega))

theorem abs_mul_zpow_sub (a x : ℚ) (u : Int) :
    |a * 2 ^ u - x| = |a - x / 2 ^ u| * 2 ^ u := by
  have hpos : (0 : ℚ) < 2 ^ u := by positivity
  rw [← abs_of_pos hpos, ← abs_mul, abs_of_pos hpos, sub_mul, div_mul_cancel₀ _ hpos.ne']

/-- The nearest number of units is as near as every binary32 magnitude. -/
theorem NearestUnits.le_dist {sign : Bool} {x : ℚ} {res : FpuResult} {k : Nat} {u : Int}
    (h : NearestUnits sign x res k u) {w : Word} {z : ℚ} (hz : fpMagnitude w = some z) :
    |k * 2 ^ u - x| ≤ |z - x| ∧ (z ≠ k * 2 ^ u → |k * 2 ^ u - x| = |z - x| → Even k) := by
  have hpos : (0 : ℚ) < 2 ^ u := by positivity
  rcases magnitude_on_grid hz u with ⟨j, rfl⟩ | ⟨hu, hlt⟩
  · obtain ⟨hle, htie⟩ := h.nearest.le_dist (j := j)
    rw [abs_mul_zpow_sub, abs_mul_zpow_sub, mul_left_inj' hpos.ne']
    refine ⟨mul_le_mul_of_nonneg_right hle hpos.le, fun hne => htie fun hjk => hne ?_⟩
    rw [hjk]
  · have hx := h.spacing.resolve_left hu
    have hle := (h.nearest.le_dist (j := 2 ^ 23)).1
    have hscaled := mul_le_mul_of_nonneg_right hle hpos.le
    rw [← abs_mul_zpow_sub, ← abs_mul_zpow_sub] at hscaled
    have hedge : ((2 ^ 23 : ℕ) : ℚ) * 2 ^ u = 2 ^ (u + 23) :=
      (zpow_eq_natPow_mul (add_comm u 23)).symm
    rw [hedge, abs_of_nonpos (a := 2 ^ (u + 23) - x) (by linarith)] at hscaled
    have hstrict : |k * 2 ^ u - x| < |z - x| := by
      rw [abs_of_nonpos (a := z - x) (by linarith)]
      linarith
    exact ⟨hstrict.le, fun _ heq => absurd heq hstrict.ne⟩

theorem NearestUnits.correctlyRounded {sign : Bool} {x : ℚ} {res : FpuResult} {k : Nat} {u : Int}
    (h : NearestUnits sign x res k u) : CorrectlyRounded sign x res where
  nearest w y z hy hz := by
    rw [h.magnitude] at hy
    cases hy
    obtain ⟨hle, htie⟩ := h.le_dist hz
    exact ⟨hle, fun hne heq => h.even (htie hne heq)⟩
  isInf := iff_of_false (not_isInf_of_magnitude h.magnitude) (not_le.mpr h.below)
  notNan := not_isNan_of_magnitude h.magnitude
  sign_eq := h.sign_eq
  inexact := by rw [h.inexact, h.magnitude, Option.some.injEq]
  overflow := iff_of_false (by simp [h.overflow]) (not_isInf_of_magnitude h.magnitude)
  underflow := h.underflow
  invalid := h.invalid

/-- R175: an infinity with overflow and inexact is the rounding of every x from 2^128 - 2^103 on. -/
theorem infinity_correctlyRounded (sign : Bool) {x : ℚ}
    (hx : (2 : ℚ) ^ (128 : Int) - (2 : ℚ) ^ (103 : Int) ≤ x) : CorrectlyRounded sign x
      ⟨fpInfinity sign, { FpuFlags.none with overflow := true, inexact := true }⟩ where
  nearest w y z hy := by
    rw [fpMagnitude_of_inf (isInf_fpInfinity sign)] at hy
    cases hy
  isInf := iff_of_true (isInf_fpInfinity sign) hx
  notNan := not_isNan_of_isInf (isInf_fpInfinity sign)
  sign_eq := fpSign_fpInfinity sign
  inexact := by simp [fpMagnitude_of_inf (isInf_fpInfinity sign)]
  overflow := iff_of_true rfl (isInf_fpInfinity sign)
  underflow := by
    refine iff_of_false Bool.false_ne_true fun ⟨_, hlt⟩ => ?_
    norm_num at hx hlt
    linarith
  invalid := rfl

/-! ### The first rounding -/

theorem IsNearestEven.le_of_le {k j : Nat} {x : ℚ} (h : IsNearestEven k x) (hx : x ≤ j) : k ≤ j := by
  have hle := (abs_le.mp h.1).2
  have : (k : ℚ) < (j + 1 : ℕ) := by push_cast; linarith
  exact Nat.lt_succ_iff.mp (by exact_mod_cast this)

theorem IsNearestEven.ge_of_ge {k j : Nat} {x : ℚ} (h : IsNearestEven k x) (hx : j ≤ x) : j ≤ k := by
  have hle := (abs_le.mp h.1).1
  have : (j : ℚ) < (k + 1 : ℕ) := by push_cast; linarith
  exact Nat.lt_succ_iff.mp (by exact_mod_cast this)

/-- The 24-bit units the first rounding makes of x > 0, before a carry. -/
structure LeadingUnits (x : ℚ) (units : Nat × Bool) : Prop where
  pos : 0 < x
  nearest : IsNearestEven units.1 (x / 2 ^ (Int.log 2 x - 23))
  exact : units.2 = false ↔ (units.1 : ℚ) * 2 ^ (Int.log 2 x - 23) = x

theorem Represents.leadingUnits {M : Nat} {q : Int} {x : ℚ} (h : Represents M q x) (hM : M ≠ 0) :
    LeadingUnits x (roundUnits M q (Int.log 2 x - 23)) :=
  have hspec := h.roundUnits_spec le_rfl
  ⟨h.pos hM, hspec.1, hspec.2⟩

theorem zpow_log_le {x : ℚ} (hx : 0 < x) : (2 : ℚ) ^ Int.log 2 x ≤ x := by
  exact_mod_cast Int.zpow_log_le_self (b := 2) (by decide) hx

theorem lt_zpow_log_succ (x : ℚ) : x < (2 : ℚ) ^ (Int.log 2 x + 1) := by
  exact_mod_cast Int.lt_zpow_succ_log_self (b := 2) (by decide) x

/-- Renormalizing keeps the value. -/
theorem carried_value (units : Nat × Bool) (e : Int) :
    ((carried units e).keep : ℚ) * 2 ^ ((carried units e).e - 23) = units.1 * 2 ^ (e - 23) := by
  unfold carried
  split
  · rename_i heq
    rw [heq, ← zpow_eq_natPow_mul rfl, ← zpow_eq_natPow_mul rfl]
    congr 1
    push_cast
    ring
  · rfl

theorem carried_even {units : Nat × Bool} (h : Even units.1) (e : Int) :
    Even (carried units e).keep := by
  unfold carried
  split
  · exact (by decide : Even (2 ^ 23))
  · exact h

section
variable {x : ℚ} {units : Nat × Bool} (h : LeadingUnits x units)
include h

theorem LeadingUnits.range : 2 ^ 23 ≤ units.1 ∧ units.1 ≤ 2 ^ 24 := by
  have hpos : (0 : ℚ) < 2 ^ (Int.log 2 x - 23) := by positivity
  constructor
  · refine h.nearest.ge_of_ge ((le_div_iff₀ hpos).mpr ?_)
    rw [← zpow_eq_natPow_mul (a := Int.log 2 x) (by omega)]
    exact zpow_log_le h.pos
  · refine h.nearest.le_of_le ((div_le_iff₀ hpos).mpr ?_)
    rw [← zpow_eq_natPow_mul (a := Int.log 2 x + 1) (by omega)]
    exact (lt_zpow_log_succ x).le

theorem LeadingUnits.keep_range : 2 ^ 23 ≤ (carried units (Int.log 2 x)).keep ∧
    (carried units (Int.log 2 x)).keep < 2 ^ 24 := by
  obtain ⟨hlo, hhi⟩ := h.range
  unfold carried
  split
  · exact ⟨le_rfl, by simp only; omega⟩
  · exact ⟨hlo, by simp only; omega⟩

theorem LeadingUnits.carried_exact : (carried units (Int.log 2 x)).inexact = false ↔
    ((carried units (Int.log 2 x)).keep : ℚ) * 2 ^ ((carried units (Int.log 2 x)).e - 23) = x := by
  rw [carried_value, ← h.exact]
  unfold carried
  split <;> rfl

/-- R174: the exponent after the first rounding reaches b exactly from 2^b - 2^(b - 25) on, the midpoint
below 2^b. -/
theorem LeadingUnits.le_e_iff (b : Int) : b ≤ (carried units (Int.log 2 x)).e ↔
    (2 : ℚ) ^ b - (2 : ℚ) ^ (b - 25) ≤ x := by
  have hlo := zpow_log_le h.pos
  have hhi := lt_zpow_log_succ x
  have hsmall : (0 : ℚ) < 2 ^ (b - 25) := by positivity
  have hhalf : (2 : ℚ) ^ (b - 25) ≤ 2 ^ (b - 1) := zpow_le_zpow_right₀ (by norm_num) (by omega)
  have hdouble : (2 : ℚ) ^ b = 2 * 2 ^ (b - 1) := by
    rw [← zpow_one_add₀ two_ne_zero, add_sub_cancel]
  rcases lt_trichotomy b (Int.log 2 x + 1) with hlt | rfl | hgt
  · have hle : (2 : ℚ) ^ b ≤ 2 ^ Int.log 2 x := zpow_le_zpow_right₀ (by norm_num) (by omega)
    exact iff_of_true (by have := le_carried_e units (Int.log 2 x); omega) (by linarith)
  · have hcarry : Int.log 2 x + 1 ≤ (carried units (Int.log 2 x)).e ↔ ¬ units.1 < 2 ^ 24 := by
      have := h.range.2
      unfold carried
      split <;> simp only <;> omega
    have hmid : (((2 ^ 24 : ℕ) : ℚ) - 1 / 2) * 2 ^ (Int.log 2 x - 23) =
        2 ^ (Int.log 2 x + 1) - 2 ^ (Int.log 2 x + 1 - 25) := by
      rw [sub_mul, ← zpow_eq_natPow_mul (a := Int.log 2 x + 1) (by omega),
        zpow_eq_natPow_mul (a := Int.log 2 x - 23) (b := Int.log 2 x + 1 - 25) (n := 1) (by omega)]
      push_cast
      ring
    rw [hcarry, h.nearest.lt_iff (j := 2 ^ 24) (by decide), div_lt_iff₀ (by positivity), hmid,
      not_lt]
  · have hle : (2 : ℚ) ^ (Int.log 2 x + 1) ≤ 2 ^ (b - 1) :=
      zpow_le_zpow_right₀ (by norm_num) (by omega)
    refine iff_of_false ?_ (by linarith)
    unfold carried
    split <;> simp only <;> omega

/-- The carried significand is still nearest at the carried exponent. -/
theorem LeadingUnits.carried_nearest : IsNearestEven (carried units (Int.log 2 x)).keep
    (x / 2 ^ ((carried units (Int.log 2 x)).e - 23)) := by
  have hnear := h.nearest
  unfold carried
  split
  · rename_i heq
    rw [heq] at hnear
    have hle := hnear.1
    have hquot : x / 2 ^ (Int.log 2 x + 1 - 23) = x / 2 ^ (Int.log 2 x - 23) / 2 := by
      rw [show Int.log 2 x + 1 - 23 = Int.log 2 x - 23 + 1 by ring, zpow_add_one₀ two_ne_zero,
        div_div]
    have hdist : |((2 ^ 23 : ℕ) : ℚ) - x / 2 ^ (Int.log 2 x - 23) / 2| =
        |((2 ^ 24 : ℕ) : ℚ) - x / 2 ^ (Int.log 2 x - 23)| / 2 := by
      rw [← abs_of_pos (two_pos (α := ℚ)), ← abs_div, abs_of_pos (two_pos (α := ℚ))]
      congr 1
      push_cast
      ring
    refine ⟨?_, fun _ => (by decide : Even (2 ^ 23))⟩
    rw [hquot, hdist]
    linarith
  · exact hnear

end

/-! ### RoundPack (R173 to R177) -/

/-- R176: a normal result is the first rounding, packed. -/
theorem normal_nearestUnits (sign : Bool) {x : ℚ} {units : Nat × Bool} (h : LeadingUnits x units)
    {first : FirstRounding} (hfirst : first = carried units (Int.log 2 x)) (hlo : -126 ≤ first.e)
    (hhi : first.e ≤ 127) : ∃ k u, NearestUnits sign x
      ⟨fpPack sign (BitVec.ofNat 8 (first.e + 127).toNat) (BitVec.ofNat 23 first.keep),
        { FpuFlags.none with inexact := first.inexact }⟩ k u := by
  subst hfirst
  have hmag := fpMagnitude_normal sign h.keep_range.1 h.keep_range.2 hlo hhi
  have hbelow : x < (2 : ℚ) ^ (128 : Int) - (2 : ℚ) ^ (103 : Int) :=
    not_le.mp fun hge => by have := (h.le_e_iff 128).mpr hge; omega
  have htiny : ¬ x < (2 : ℚ) ^ (-126 : Int) - (2 : ℚ) ^ (-151 : Int) :=
    not_lt.mpr ((h.le_e_iff (-126)).mp hlo)
  by_cases hlog : -126 ≤ Int.log 2 x
  · refine ⟨units.1, Int.log 2 x - 23, ?_⟩
    exact {
      nearest := h.nearest
      spacing := .inr (by rw [sub_add_cancel]; exact zpow_log_le h.pos)
      below := hbelow
      magnitude := by rw [hmag, carried_value]
      sign_eq := fpSign_fpPack ..
      even := fun heven => lastBit_fpPack_of_even _ _ (carried_even heven _)
      inexact := by rw [h.carried_exact, carried_value]
      overflow := rfl
      underflow := iff_of_false Bool.false_ne_true fun hlt => htiny hlt.2
      invalid := rfl }
  · have he : (carried units (Int.log 2 x)).e = -126 := by
      have : (carried units (Int.log 2 x)).e ≤ Int.log 2 x + 1 := by
        unfold carried
        split <;> simp
      omega
    refine ⟨(carried units (Int.log 2 x)).keep, (carried units (Int.log 2 x)).e - 23, ?_⟩
    exact {
      nearest := h.carried_nearest
      spacing := .inl (by rw [he]; rfl)
      below := hbelow
      magnitude := hmag
      sign_eq := fpSign_fpPack ..
      even := fun heven => lastBit_fpPack_of_even _ _ heven
      inexact := h.carried_exact
      overflow := rfl
      underflow := iff_of_false Bool.false_ne_true fun hlt => htiny hlt.2
      invalid := rfl }

/-- Below 2^-126 there are at most 2^23 units of 2^-149. -/
theorem IsNearestEven.le_subnormal {k : Nat} {x : ℚ} (h : IsNearestEven k (x / 2 ^ (-149 : Int)))
    (hx : x ≤ (2 : ℚ) ^ (-126 : Int)) : k ≤ 2 ^ 23 := by
  refine h.le_of_le ((div_le_iff₀ (by positivity)).mpr ?_)
  rwa [← zpow_eq_natPow_mul (a := -126) (by norm_num)]

/-- R177: a result of the subnormal path is the rounding to units of 2^-149. -/
theorem subnormal_nearestUnits (sign : Bool) {x : ℚ} {units : Nat × Bool}
    (hnear : IsNearestEven units.1 (x / 2 ^ (-149 : Int)))
    (hexact : units.2 = false ↔ (units.1 : ℚ) * 2 ^ (-149 : Int) = x)
    (htiny : x < (2 : ℚ) ^ (-126 : Int) - (2 : ℚ) ^ (-151 : Int)) : NearestUnits sign x
      ⟨fpZero sign ||| BitVec.ofNat 32 units.1,
        { FpuFlags.none with inexact := units.2, underflow := units.2 }⟩ units.1 (-149) := by
  have hk : units.1 ≤ 2 ^ 23 :=
    hnear.le_subnormal (htiny.le.trans (sub_le_self _ (by positivity)))
  exact {
    nearest := hnear
    spacing := .inl rfl
    below := htiny.trans (by norm_num)
    magnitude := fpMagnitude_units sign hk
    sign_eq := fpSign_units sign hk
    even := fun heven => by
      rw [fpZero_or_units sign (by omega)]
      exact lastBit_fpPack_of_even _ _ heven
    inexact := hexact
    overflow := rfl
    underflow := (and_iff_left htiny).symm
    invalid := rfl }

/-- R173: the exact value 0 is the signed zero. -/
theorem zero_nearestUnits (sign : Bool) :
    NearestUnits sign 0 ⟨fpZero sign, FpuFlags.none⟩ 0 (-149) := by
  have h := subnormal_nearestUnits sign (x := 0) (units := (0, false))
    (by simpa using isNearestEven_self 0) (by simp) (by norm_num)
  rwa [BitVec.or_zero] at h

/-- R178: RoundPack under FROM_UNROUNDED rounds correctly every exact value its input stands for. -/
theorem roundPack_correctlyRounded (sign : Bool) {M : Nat} {q : Int} {x : ℚ}
    (h : Represents M q x) : CorrectlyRounded sign x (roundPack .fromUnrounded sign M q) := by
  by_cases hM : M = 0
  · rw [h.eq_zero_iff.mp hM, roundPack, if_pos hM]
    exact (zero_nearestUnits sign).correctlyRounded
  have hlead := h.leadingUnits hM
  have hfirst := h.firstRounding_eq hM
  simp only [roundPack, if_neg hM]
  split
  · rename_i hover
    refine infinity_correctlyRounded sign ((hlead.le_e_iff 128).mp ?_)
    rw [← hfirst]
    omega
  split
  · obtain ⟨k, u, hnear⟩ := normal_nearestUnits sign hlead hfirst (by omega) (by omega)
    exact hnear.correctlyRounded
  · rename_i hsub
    have hlog := le_carried_e (roundUnits M q (Int.log 2 x - 23)) (Int.log 2 x)
    rw [← hfirst] at hlog
    obtain ⟨hnear, hexact⟩ := h.roundUnits_spec (u := -149) (by omega)
    have htiny : x < (2 : ℚ) ^ (-126 : Int) - (2 : ℚ) ^ (-151 : Int) :=
      not_le.mp fun hge => by
        have := (hlead.le_e_iff (-126)).mpr hge
        rw [← hfirst] at this
        omega
    have hres := (subnormal_nearestUnits sign hnear hexact htiny).correctlyRounded
    simpa only [subnormalPack, subnormalUnits_eq, Bool.or_false] using hres

/-- Settles O56: the flags of a correctly rounded M · 2^q. -/
theorem rounderFlagsDescribeResult : Obligations.RounderFlagsDescribeResult := by
  intro sign M q
  have h := roundPack_correctlyRounded sign (represents_self M q)
  exact ⟨h.inexact, h.overflow, h.underflow, h.invalid⟩

/-- Settles O57: the value of a correctly rounded M · 2^q. -/
theorem rounderReturnsNearestValue : Obligations.RounderReturnsNearestValue := by
  intro sign M q
  have h := roundPack_correctlyRounded sign (represents_self M q)
  exact ⟨h.nearest, h.isInf, h.notNan, h.sign_eq⟩

end Sys2Proof.Machine
end

section
/-! PROOFS. The finite quotient (spec 43_fpu.md R185), the round trip of a finite value through the rounder
(R171 to R177), and the NaN the operations produce (R179, R188). -/

namespace Sys2Proof.Machine

/-! ### The quotient (R185) -/

/-- The quotient of the 64-bit shifted dividend with the sticky bit of its remainder. -/
def stickyQuotient (ma mb : Nat) : Nat :=
  2 * (ma * 2 ^ 64 / mb) + if ma * 2 ^ 64 % mb = 0 then 0 else 1

theorem f32Div_ieeeRne {c : Config} {a b : Word} {va vb : Finite} (ha : classify a = .finite va)
    (hb : classify b = .finite vb) (hc : c.fdivMode = .ieeeRne) : f32Div c a b =
      roundPack c.subnormalReround (va.sign ^^ vb.sign) (stickyQuotient va.m vb.m)
        (va.e - vb.e - 65) := by
  have hbits (n r : Nat) : n * 2 ^ 1 ||| (r != 0).toNat = 2 * n + if r = 0 then 0 else 1 := by
    rw [← Nat.shiftLeft_eq, ← Nat.shiftLeft_add_eq_or_of_lt (Bool.toNat_lt _), Nat.shiftLeft_eq,
      Nat.mul_comm]
    cases r <;> rfl
  rw [f32Div_finite c ha hb, divFinite, hc]
  simp only [Nat.shiftLeft_eq, hbits, stickyQuotient]

theorem f32Div_literal {c : Config} {a b : Word} {va vb : Finite} (ha : classify a = .finite va)
    (hb : classify b = .finite vb) (hc : c.fdivMode = .literal) : f32Div c a b =
      roundPack c.subnormalReround (va.sign ^^ vb.sign) (va.m * 2 ^ 23 / vb.m)
        (va.e - vb.e - 23) := by
  rw [f32Div_finite c ha hb, divFinite, hc]
  simp only [Nat.shiftLeft_eq]

/-- The quotient with its sticky bit stands for the exact quotient of the significands: it is that
quotient, or an odd number next to it with far more than 24 bits. -/
theorem represents_quotient {va vb : Finite} (ha : 0 < va.m) (hb : 0 < vb.m) (hb' : vb.m < 2 ^ 24) :
    Represents (stickyQuotient va.m vb.m) (va.e - vb.e - 65) (va.magnitude / vb.magnitude) := by
  have hq : (0 : ℚ) < 2 ^ (va.e - vb.e - 65) := by positivity
  have hbQ : (0 : ℚ) < vb.m := by exact_mod_cast hb
  have hdiv := Nat.div_add_mod (va.m * 2 ^ 64) vb.m
  have hmod := Nat.mod_lt (va.m * 2 ^ 64) hb
  have hlarge : 2 ^ 40 ≤ va.m * 2 ^ 64 / vb.m := by
    rw [Nat.le_div_iff_mul_le hb]
    omega
  have hx : va.magnitude / vb.magnitude =
      2 * ((va.m * 2 ^ 64 : ℕ) : ℚ) / vb.m * 2 ^ (va.e - vb.e - 65) := by
    have hz : (2 : ℚ) ^ (va.e - 23) = 2 ^ 65 * 2 ^ (va.e - vb.e - 65) * 2 ^ (vb.e - 23) := by
      rw [← zpow_natCast, ← zpow_add₀ two_ne_zero, ← zpow_add₀ two_ne_zero]
      congr 1
      push_cast
      ring
    rw [Finite.magnitude, Finite.magnitude, hz]
    field_simp
    push_cast
    ring
  rw [hx, stickyQuotient]
  generalize va.m * 2 ^ 64 / vb.m = Q at *
  generalize va.m * 2 ^ 64 % vb.m = r at *
  rw [← hdiv]
  have hquot : 2 * ((vb.m * Q + r : ℕ) : ℚ) / vb.m = 2 * Q + 2 * r / vb.m := by
    push_cast
    field_simp
  rw [hquot]
  by_cases hr : r = 0
  · left
    simp [hr]
  · right
    have hrQ : (0 : ℚ) < r := by exact_mod_cast Nat.pos_of_ne_zero hr
    have hfrac : (2 : ℚ) * r / vb.m < 2 := by
      rw [div_lt_iff₀ hbQ]
      have : (r : ℚ) < vb.m := by exact_mod_cast hmod
      linarith
    have hfrac' : (0 : ℚ) < 2 * r / vb.m := by positivity
    rw [if_neg hr]
    refine ⟨by omega, ⟨Q, rfl⟩, ?_⟩
    rw [← sub_mul, abs_mul, abs_of_pos hq]
    refine mul_lt_of_lt_one_left hq (abs_lt.mpr ?_)
    push_cast
    constructor <;> linarith

/-- Settles O52: RoundPack of the mode's quotient, and under IEEE_RNE the correct rounding of the exact
quotient that it stands for. -/
theorem divisionFollowsItsMode : Obligations.DivisionFollowsItsMode := by
  intro c a b va vb ha hb
  refine ⟨fun hc => f32Div_ieeeRne ha hb hc, fun hc hmode => ?_, fun hc => f32Div_literal ha hb hc⟩
  have h := roundPack_correctlyRounded (va.sign ^^ vb.sign)
    (represents_quotient (significand_pos ha) (significand_pos hb) (significand_lt hb))
  rw [← hmode, ← f32Div_ieeeRne ha hb hc] at h
  exact ⟨h.nearest, h.isInf, h.notNan, h.sign_eq, h.inexact, h.overflow, h.underflow, h.invalid⟩

/-! ### The round trip (R171 to R177) -/

theorem roundUnits_self (M : Nat) (q : Int) : roundUnits M q q = (M, false) := by
  rw [roundUnits, if_pos le_rfl, sub_self, Int.toNat_zero, Nat.shiftLeft_zero]

/-- A multiple of the unit is rounded to itself. -/
theorem roundUnits_of_multiple {M k : Nat} {q u : Int} (h : (M : ℚ) * 2 ^ q = k * 2 ^ u) :
    roundUnits M q u = (k, false) := by
  obtain ⟨hnear, hflag⟩ := roundUnits_spec (represents_self M q) (u := u) (.inl rfl)
  rw [h, mul_div_cancel_right₀ _ (by positivity)] at hnear
  have hk : (roundUnits M q u).1 = k := hnear.unique (isNearestEven_self k)
  rw [hk, h] at hflag
  exact Prod.ext hk (hflag.mpr rfl)

/-- R176: a 24-bit significand at a normal exponent packs without rounding. -/
theorem roundPack_normal (mode : SubnormalReround) (sign : Bool) {m : Nat} {e : Int}
    (hm1 : 2 ^ 23 ≤ m) (hm2 : m < 2 ^ 24) (he1 : -126 ≤ e) (he2 : e ≤ 127) :
    roundPack mode sign m (e - 23) =
      ⟨fpPack sign (BitVec.ofNat 8 (e + 127).toNat) (BitVec.ofNat 23 m), FpuFlags.none⟩ := by
  have hlog : m.log2 = 23 := (Nat.log2_eq_iff (by omega)).mpr ⟨hm1, hm2⟩
  have hfirst : firstRounding m (e - 23) = ⟨m, e, false⟩ := by
    rw [firstRounding_eq, hlog, show ((23 : ℕ) : ℤ) + (e - 23) - 23 = e - 23 by omega,
      roundUnits_self, carried, if_neg (by simp only; omega)]
    simp
  simp only [roundPack, if_neg (show m ≠ 0 by omega), hfirst]
  rw [if_neg (by omega), if_pos (by omega)]
  rfl

/-- R177: fewer than 2^23 units of 2^-149 pack without rounding, in both modes of the subnormal path. -/
theorem roundPack_subnormal (mode : SubnormalReround) (sign : Bool) {m : Nat} (hm : m ≠ 0)
    (hm2 : m < 2 ^ 23) : roundPack mode sign m (-149) =
      ⟨fpZero sign ||| BitVec.ofNat 32 m, FpuFlags.none⟩ := by
  have hlog : m.log2 < 23 := (Nat.log2_lt hm).mpr hm2
  have hkept := roundUnits_of_multiple (M := m) (q := -149) (k := m * 2 ^ (23 - m.log2))
    (u := m.log2 + -149 - 23) (by
      rw [Nat.cast_mul, mul_assoc, ← zpow_eq_natPow_mul (a := -149) (by omega)])
  have hlt : m * 2 ^ (23 - m.log2) ≠ 2 ^ 24 := by
    have : m * 2 ^ (23 - m.log2) < 2 ^ (m.log2 + 1) * 2 ^ (23 - m.log2) :=
      Nat.mul_lt_mul_of_pos_right Nat.lt_log2_self (by positivity)
    rw [← pow_add, show m.log2 + 1 + (23 - m.log2) = 24 by omega] at this
    exact this.ne
  have hfirst : firstRounding m (-149) = ⟨m * 2 ^ (23 - m.log2), m.log2 + -149, false⟩ := by
    rw [firstRounding_eq, hkept, carried, if_neg hlt]
  simp only [roundPack, if_neg hm, hfirst]
  rw [if_neg (by omega), if_neg (by omega)]
  cases mode with
  | fromUnrounded =>
    simp only [subnormalPack, subnormalUnits_eq, roundUnits_self, Bool.or_self]
    rfl
  | fromRounded =>
    have hback := roundUnits_of_multiple (M := m * 2 ^ (23 - m.log2)) (q := m.log2 + -149 - 23)
      (k := m) (u := -149) (by
        rw [Nat.cast_mul, mul_assoc, ← zpow_eq_natPow_mul (a := -149) (by omega)])
    simp only [subnormalPack, subnormalUnits_eq, hback, Bool.or_self]
    rfl

/-- Settles O55: a finite word is the packing of its significand and exponent, and both kinds of
significand pack without rounding. -/
theorem finiteValuesPackToThemselves : Obligations.FiniteValuesPackToThemselves := by
  intro mode w v h
  rcases eq_pack_of_classify h with ⟨hnormal, hw⟩ | ⟨hsub, he, hw⟩
  · rcases classify_range h with ⟨-, hlt, he1, he2⟩ | ⟨-, hlt, -⟩
    · rw [roundPack_normal mode v.sign hnormal hlt he1 he2, ← hw]
    · omega
  · rw [he]
    exact (roundPack_subnormal mode v.sign (significand_pos h).ne' hsub).trans (by rw [← hw])

/-! ### The NaN the operations produce (R179, R188) -/

/-- R177: the subnormal path packs at most 2^23 units of a value below 2^-126. -/
theorem subnormalUnits_le {M : Nat} {q : Int} (h : (M : ℚ) * 2 ^ q < (2 : ℚ) ^ (-126 : Int)) :
    (subnormalUnits M q).1 ≤ 2 ^ 23 := by
  rw [subnormalUnits_eq]
  exact (roundUnits_spec (represents_self M q) (.inl rfl)).1.le_subnormal h.le

theorem not_isNan_units (sign : Bool) {k : Nat} (hk : k ≤ 2 ^ 23) :
    ¬ IsNan (fpZero sign ||| BitVec.ofNat 32 k) :=
  not_isNan_of_magnitude (fpMagnitude_units sign hk)

/-- The rounder packs no NaN, in either mode of the subnormal path. -/
theorem roundPack_not_isNan (mode : SubnormalReround) (sign : Bool) (M : Nat) (q : Int) :
    ¬ IsNan (roundPack mode sign M q).r := by
  cases mode with
  | fromUnrounded => exact (roundPack_correctlyRounded sign (represents_self M q)).notNan
  | fromRounded =>
    by_cases hM : M = 0
    · rw [roundPack, if_pos hM]
      exact not_isNan_of_isZero (isZero_fpZero sign)
    have hlead := (represents_self M q).leadingUnits hM
    have hfirst := (represents_self M q).firstRounding_eq hM
    obtain ⟨hkeep1, hkeep2⟩ := hlead.keep_range
    rw [← hfirst] at hkeep1 hkeep2
    simp only [roundPack, if_neg hM]
    split
    · exact not_isNan_of_isInf (isInf_fpInfinity sign)
    split
    · exact not_isNan_of_magnitude
        (fpMagnitude_normal sign hkeep1 hkeep2 (by omega) (by omega))
    · refine not_isNan_units sign (subnormalUnits_le ?_)
      exact (natCast_mul_zpow_lt hkeep2 _).trans_le (zpow_le_zpow_right₀ (by norm_num) (by omega))

/-- What R179 asks of a result: if it is a NaN, it is CANONICAL_NAN. -/
def NanIsCanonical (c : Config) (res : FpuResult) : Prop :=
  IsNan res.r → res.r = c.canonicalNan

theorem nanIsCanonical_nanResult (c : Config) : NanIsCanonical c (nanResult c) := fun _ => rfl

theorem nanIsCanonical_invalidResult (c : Config) : NanIsCanonical c (invalidResult c) :=
  fun _ => rfl

theorem nanIsCanonical_of_not {c : Config} {res : FpuResult} (h : ¬ IsNan res.r) :
    NanIsCanonical c res := fun hn => absurd hn h

theorem nanIsCanonical_infinity (c : Config) (s : Bool) (flags : FpuFlags) :
    NanIsCanonical c ⟨fpInfinity s, flags⟩ :=
  nanIsCanonical_of_not (not_isNan_of_isInf (isInf_fpInfinity s))

theorem nanIsCanonical_zero (c : Config) (s : Bool) (flags : FpuFlags) :
    NanIsCanonical c ⟨fpZero s, flags⟩ :=
  nanIsCanonical_of_not (not_isNan_of_isZero (isZero_fpZero s))

theorem nanIsCanonical_roundPack (c : Config) (mode : SubnormalReround) (sign : Bool) (M : Nat)
    (q : Int) : NanIsCanonical c (roundPack mode sign M q) :=
  nanIsCanonical_of_not (roundPack_not_isNan mode sign M q)

theorem nanIsCanonical_f32Add (c : Config) (a b : Word) : NanIsCanonical c (f32Add c a b) := by
  by_cases hn : IsNan a ∨ IsNan b
  · rw [f32Add_nan c hn]
    exact nanIsCanonical_nanResult c
  obtain ⟨hna, hnb⟩ := not_or.mp hn
  have ha : NanIsCanonical c (fpExact a) := nanIsCanonical_of_not hna
  have hb : NanIsCanonical c (fpExact b) := nanIsCanonical_of_not hnb
  unfold f32Add
  split
  · exact nanIsCanonical_nanResult c
  · exact nanIsCanonical_nanResult c
  · split
    · exact ha
    · exact nanIsCanonical_invalidResult c
  · exact ha
  · exact hb
  · exact hb
  · exact ha
  · rw [addFinite_eq]
    split
    · exact nanIsCanonical_zero c false _
    · exact nanIsCanonical_roundPack c _ _ _ _

theorem nanIsCanonical_f32Mul (c : Config) (a b : Word) : NanIsCanonical c (f32Mul c a b) := by
  unfold f32Mul
  split
  · exact nanIsCanonical_nanResult c
  · exact nanIsCanonical_nanResult c
  · exact nanIsCanonical_invalidResult c
  · exact nanIsCanonical_invalidResult c
  · exact nanIsCanonical_infinity c _ _
  · exact nanIsCanonical_infinity c _ _
  · exact nanIsCanonical_zero c _ _
  · exact nanIsCanonical_zero c _ _
  · exact nanIsCanonical_roundPack c _ _ _ _

theorem nanIsCanonical_divFinite (c : Config) (a b : Finite) :
    NanIsCanonical c (divFinite c a b) := by
  unfold divFinite
  split <;> exact nanIsCanonical_roundPack c _ _ _ _

theorem nanIsCanonical_f32Div (c : Config) (a b : Word) : NanIsCanonical c (f32Div c a b) := by
  unfold f32Div
  split
  · exact nanIsCanonical_nanResult c
  · exact nanIsCanonical_nanResult c
  · exact nanIsCanonical_invalidResult c
  · exact nanIsCanonical_invalidResult c
  · exact nanIsCanonical_infinity c _ _
  · exact nanIsCanonical_infinity c _ _
  · exact nanIsCanonical_zero c _ _
  · exact nanIsCanonical_zero c _ _
  · exact nanIsCanonical_divFinite c _ _

/-- Settles O53: each operation returns CANONICAL_NAN, a word that is no NaN, or what the rounder packs. -/
theorem onlyCanonicalNanIsProduced : Obligations.OnlyCanonicalNanIsProduced := by
  intro c op a b _
  cases op with
  | add => exact nanIsCanonical_f32Add c a b
  | sub => exact nanIsCanonical_f32Add c a (b ^^^ 0x80000000#32)
  | mul => exact nanIsCanonical_f32Mul c a b
  | div => exact nanIsCanonical_f32Div c a b

end Sys2Proof.Machine
end

section
/-! PROOFS. The 27-bit datapath of f32_add: its sum stands for the exact sum, so both pack to the same result
(spec 43_fpu.md R181). -/

namespace Sys2Proof.Machine

/-! ### The aligned operand -/

/-- Within 27 bits the shift of R181 is a shift with the lost bits gathered into bit 0. -/
theorem alignSticky_eq {y : Nat} (hy : y < 2 ^ 27) (d : Nat) :
    alignSticky y d = (y >>> d) ||| (stickyBelow y d).toNat := by
  unfold alignSticky
  split
  · have hlt : y < 2 ^ d := hy.trans_le (Nat.pow_le_pow_right (by decide) (by omega))
    rw [Nat.shiftRight_eq_div_pow, Nat.div_eq_of_lt hlt, stickyBelow, Nat.mod_eq_of_lt hlt]
    by_cases h0 : y = 0
    · rw [h0]
      rfl
    · rw [if_neg h0, bne_iff_ne.mpr h0]
      rfl
  split
  · rfl
  · rw [show d = 0 by omega, stickyBelow_zero]
    simp

/-- Gathering a bit into bit 0 makes the number odd. -/
theorem or_one_eq (k : Nat) : k ||| 1 = 2 * (k / 2) + 1 := by
  have hsplit : k = (k / 2) <<< 1 ||| k % 2 := by
    rw [← Nat.shiftLeft_add_eq_or_of_lt (Nat.mod_lt k two_pos), Nat.shiftLeft_eq]
    omega
  have hlow : k % 2 ||| 1 = 1 := by
    rcases Nat.mod_two_eq_zero_or_one k with h | h <;> rw [h] <;> rfl
  calc k ||| 1 = (k / 2) <<< 1 ||| (k % 2 ||| 1) := by rw [← Nat.or_assoc, ← hsplit]
    _ = 2 * (k / 2) + 1 := by
      rw [hlow, ← Nat.shiftLeft_add_eq_or_of_lt Nat.one_lt_two, Nat.shiftLeft_eq]
      omega

/-- The aligned operand is y / 2^d itself, or an odd number next to it. -/
theorem alignSticky_represents {y : Nat} (hy : y < 2 ^ 27) (d : Nat) :
    (alignSticky y d : ℚ) = y / 2 ^ d ∨
      (y % 2 ^ d ≠ 0 ∧ Odd (alignSticky y d) ∧ |(y : ℚ) / 2 ^ d - alignSticky y d| < 1) := by
  have hpow : (0 : ℚ) < 2 ^ d := by positivity
  have hdiv : (y : ℚ) = 2 ^ d * (y / 2 ^ d : ℕ) + (y % 2 ^ d : ℕ) := by
    exact_mod_cast (Nat.div_add_mod y (2 ^ d)).symm
  have hquot : (y : ℚ) / 2 ^ d = (y / 2 ^ d : ℕ) + (y % 2 ^ d : ℕ) / 2 ^ d := by
    rw [div_eq_iff hpow.ne', add_mul, div_mul_cancel₀ _ hpow.ne', mul_comm, ← hdiv]
  have hmod : ((y % 2 ^ d : ℕ) : ℚ) < 2 ^ d := by
    exact_mod_cast Nat.mod_lt y (Nat.two_pow_pos d)
  rw [alignSticky_eq hy, Nat.shiftRight_eq_div_pow, hquot]
  generalize y / 2 ^ d = k
  by_cases hr : y % 2 ^ d = 0
  · left
    simp [hr, stickyBelow]
  · right
    have hfrac : (0 : ℚ) < (y % 2 ^ d : ℕ) / 2 ^ d :=
      div_pos (by exact_mod_cast Nat.pos_of_ne_zero hr) hpow
    have hfrac' : ((y % 2 ^ d : ℕ) : ℚ) / 2 ^ d < 1 := (div_lt_one hpow).mpr hmod
    have hs : stickyBelow y d = true := bne_iff_ne.mpr hr
    have hge : (k : ℚ) ≤ (2 * (k / 2) + 1 : ℕ) := by exact_mod_cast (by omega)
    have hle : ((2 * (k / 2) + 1 : ℕ) : ℚ) ≤ k + 1 := by exact_mod_cast (by omega)
    rw [hs, Bool.toNat_true, or_one_eq]
    exact ⟨hr, ⟨_, rfl⟩, abs_lt.mpr ⟨by linarith, by linarith⟩⟩

/-! ### The operands in order -/

/-- What R181's order says of the two operands: the first has the larger exponent, or the same and no
smaller significand; and both are finite operands (R171, R172). -/
structure OrderedOperands (big small : Finite) : Prop where
  order : small.e < big.e ∨ (big.e = small.e ∧ small.m ≤ big.m)
  big_normal : small.e < big.e → 2 ^ 23 ≤ big.m
  small_lt : small.m < 2 ^ 24

/-- The sum or difference the datapath forms (R181). -/
def datapathSum (big small : Finite) : Nat :=
  if big.sign = small.sign then
    (big.m <<< 3) + alignSticky (small.m <<< 3) (big.e - small.e).toNat
  else (big.m <<< 3) - alignSticky (small.m <<< 3) (big.e - small.e).toNat

theorem addDatapath_eq (mode : SubnormalReround) (a b : Finite) : addDatapath mode a b =
    if datapathSum (ordered a b).1 (ordered a b).2 = 0 then fpExact (fpZero false)
    else roundPack mode (ordered a b).1.sign (datapathSum (ordered a b).1 (ordered a b).2)
      ((ordered a b).1.e - 26) := rfl

/-- The exact sum with the sign of the first operand taken out. -/
def effectiveSum (big small : Finite) : ℚ :=
  if big.sign = small.sign then big.magnitude + small.magnitude
  else big.magnitude - small.magnitude

/-- The exact sum is the effective one under the sign of the first operand. -/
theorem exactSum_eq_effectiveSum (big small : Finite) :
    (exactSum big small : ℚ) * 2 ^ (min big.e small.e - 23) =
      if big.sign then -effectiveSum big small else effectiveSum big small := by
  rw [exactSum_mul_zpow, effectiveSum]
  cases big.sign <;> cases small.sign <;> simp <;> ring

section
variable {big small : Finite} (h : OrderedOperands big small)
include h

theorem OrderedOperands.e_le : small.e ≤ big.e := by
  rcases h.order with hlt | ⟨heq, -⟩ <;> omega

theorem OrderedOperands.magnitude_le : small.magnitude ≤ big.magnitude := by
  unfold Finite.magnitude
  rcases h.order with hlt | ⟨heq, hm⟩
  · have hbig : ((2 ^ 23 : ℕ) : ℚ) ≤ big.m := by exact_mod_cast h.big_normal hlt
    calc (small.m : ℚ) * 2 ^ (small.e - 23) ≤ 2 ^ (small.e - 23 + 24) :=
          (natCast_mul_zpow_lt h.small_lt _).le
      _ ≤ 2 ^ big.e := zpow_le_zpow_right₀ (by norm_num) (by omega)
      _ = ((2 ^ 23 : ℕ) : ℚ) * 2 ^ (big.e - 23) := zpow_eq_natPow_mul (by omega)
      _ ≤ big.m * 2 ^ (big.e - 23) := mul_le_mul_of_nonneg_right hbig (by positivity)
  · rw [heq]
    exact mul_le_mul_of_nonneg_right (by exact_mod_cast hm) (by positivity)

theorem OrderedOperands.effectiveSum_nonneg : 0 ≤ effectiveSum big small := by
  have hle := h.magnitude_le
  have hpos : 0 ≤ small.magnitude := by unfold Finite.magnitude; positivity
  unfold effectiveSum
  split <;> linarith

theorem OrderedOperands.represents_exactSum :
    Represents (exactSum big small).natAbs (min big.e small.e - 23) (effectiveSum big small) := by
  left
  have hpos : (0 : ℚ) < 2 ^ (min big.e small.e - 23) := by positivity
  have habs := congrArg abs (exactSum_eq_effectiveSum big small)
  rw [abs_mul, abs_of_pos hpos] at habs
  rw [Nat.cast_natAbs, Int.cast_abs, habs]
  have := h.effectiveSum_nonneg
  split
  · rw [abs_neg, abs_of_nonneg this]
  · rw [abs_of_nonneg this]

/-- The two operands in units of 2^(e - 26) of the first: its significand with three bits more, and the
second shifted right by the difference of the exponents. -/
theorem OrderedOperands.magnitudes : big.magnitude = (big.m <<< 3 : ℕ) * 2 ^ (big.e - 26) ∧
    small.magnitude = ((small.m <<< 3 : ℕ) : ℚ) / 2 ^ (big.e - small.e).toNat * 2 ^ (big.e - 26) := by
  have hscale (e : Int) : (2 : ℚ) ^ (e - 23) = 8 * 2 ^ (e - 26) := by
    rw [zpow_eq_natPow_mul (a := e - 23) (b := e - 26) (n := 3) (by omega)]
    norm_num
  have hshift : (2 : ℚ) ^ (big.e - 26) = 2 ^ (big.e - small.e).toNat * 2 ^ (small.e - 26) := by
    rw [zpow_eq_natPow_mul (n := (big.e - small.e).toNat) (b := small.e - 26)
      (by have := h.e_le; omega), Nat.cast_pow, Nat.cast_ofNat]
  rw [Finite.magnitude, Finite.magnitude, hscale, hscale, Nat.shiftLeft_eq, Nat.shiftLeft_eq]
  constructor
  · push_cast
    ring
  · rw [hshift]
    push_cast
    field_simp

/-- Bits are lost only where the exponents differ by more than three: then the first operand has 27
bits and the second at most 23. -/
theorem OrderedOperands.of_lost_bits
    (hlost : (small.m <<< 3) % 2 ^ (big.e - small.e).toNat ≠ 0) :
    2 ^ 26 ≤ big.m <<< 3 ∧ alignSticky (small.m <<< 3) (big.e - small.e).toNat < 2 ^ 23 := by
  have hsmall := h.small_lt
  have hy : small.m <<< 3 < 2 ^ 27 := by rw [Nat.shiftLeft_eq]; omega
  have hd : 4 ≤ (big.e - small.e).toNat := by
    by_contra hlt
    refine hlost (Nat.mod_eq_zero_of_dvd ?_)
    rw [Nat.shiftLeft_eq]
    exact Dvd.dvd.mul_left (pow_dvd_pow 2 (by omega)) _
  have hbig := h.big_normal (by omega)
  refine ⟨by rw [Nat.shiftLeft_eq]; omega, ?_⟩
  rw [alignSticky_eq hy]
  refine Nat.or_lt_two_pow ?_ ((Bool.toNat_lt _).trans_le (by decide))
  rw [Nat.shiftRight_eq_div_pow, Nat.div_lt_iff_lt_mul (Nat.two_pow_pos _)]
  calc small.m <<< 3 < 2 ^ 23 * 2 ^ 4 := hy
    _ ≤ 2 ^ 23 * 2 ^ (big.e - small.e).toNat :=
      Nat.mul_le_mul_left _ (Nat.pow_le_pow_right (by decide) hd)

/-- R181: the datapath's sum stands for the exact sum: three bits more than 24 lose nothing that the
rounder can see. -/
theorem OrderedOperands.represents_datapathSum :
    Represents (datapathSum big small) (big.e - 26) (effectiveSum big small) := by
  have hpos : (0 : ℚ) < 2 ^ (big.e - 26) := by positivity
  have hy : small.m <<< 3 < 2 ^ 27 := by
    have := h.small_lt
    rw [Nat.shiftLeft_eq]
    omega
  have heven : Even (big.m <<< 3) := by
    rw [Nat.shiftLeft_eq]
    exact (by decide : Even (2 ^ 3)).mul_left _
  have hle := h.magnitude_le
  have hlost := h.of_lost_bits
  obtain ⟨hbig, hsmall⟩ := h.magnitudes
  rw [hbig, hsmall, mul_le_mul_iff_left₀ hpos] at hle
  rw [effectiveSum, datapathSum, hbig, hsmall]
  rcases alignSticky_represents hy (big.e - small.e).toNat with hexact | ⟨hne, hodd, hnear⟩
  · left
    rw [← hexact] at hle ⊢
    split
    · rw [Nat.cast_add, add_mul]
    · rw [Nat.cast_sub (by exact_mod_cast hle), sub_mul]
  · right
    obtain ⟨hX, hY⟩ := hlost hne
    generalize alignSticky (small.m <<< 3) (big.e - small.e).toNat = Y at *
    generalize big.m <<< 3 = X at *
    generalize ((small.m <<< 3 : ℕ) : ℚ) / 2 ^ (big.e - small.e).toNat = T at *
    split
    · refine ⟨by omega, heven.add_odd hodd, ?_⟩
      rw [Nat.cast_add, ← add_mul, ← sub_mul, add_sub_add_left_eq_sub, abs_mul, abs_of_pos hpos]
      exact mul_lt_of_lt_one_left hpos hnear
    · refine ⟨by omega, Nat.Even.sub_odd (by omega) heven hodd, ?_⟩
      rw [Nat.cast_sub (by omega), ← sub_mul, ← sub_mul, sub_sub_sub_cancel_left, abs_mul,
        abs_of_pos hpos, abs_sub_comm]
      exact mul_lt_of_lt_one_left hpos hnear

/-- The datapath on ordered operands gives the result and flags of the exact sum. -/
theorem OrderedOperands.datapath_eq_addFinite (mode : SubnormalReround) :
    (if datapathSum big small = 0 then fpExact (fpZero false)
      else roundPack mode big.sign (datapathSum big small) (big.e - 26)) =
    addFinite mode big small := by
  have hdata := h.represents_datapathSum
  have hexact := h.represents_exactSum
  rw [addFinite_eq]
  by_cases hx : effectiveSum big small = 0
  · rw [if_pos (hdata.eq_zero_iff.mpr hx), if_pos (Int.natAbs_eq_zero.mp (hexact.eq_zero_iff.mpr hx))]
  · have hsign : decide (exactSum big small < 0) = big.sign := by
      have hpos : (0 : ℚ) < 2 ^ (min big.e small.e - 23) := by positivity
      have hx' : 0 < effectiveSum big small := lt_of_le_of_ne h.effectiveSum_nonneg (Ne.symm hx)
      have hsum := exactSum_eq_effectiveSum big small
      have hneg : exactSum big small < 0 ↔
          (exactSum big small : ℚ) * 2 ^ (min big.e small.e - 23) < 0 := by
        rw [← zero_mul ((2 : ℚ) ^ (min big.e small.e - 23)), mul_lt_mul_iff_left₀ hpos,
          Int.cast_lt_zero]
      rw [Bool.eq_iff_iff, decide_eq_true_iff, hneg, hsum]
      cases big.sign <;> simp [hx', hx'.le]
    rw [if_neg (mt hdata.eq_zero_iff.mp hx),
      if_neg (mt (Int.natAbs_eq_zero.mpr ·) (mt hexact.eq_zero_iff.mp hx)), hsign]
    exact roundPack_congr mode big.sign hdata hexact

end

theorem orderedOperands_of_classify {a b : Word} {va vb : Finite} (ha : classify a = .finite va)
    (hb : classify b = .finite vb) (horder : vb.e < va.e ∨ (va.e = vb.e ∧ vb.m ≤ va.m)) :
    OrderedOperands va vb where
  order := horder
  big_normal hlt := by
    rcases classify_range ha with ⟨hm, -⟩ | ⟨-, -, he⟩
    · exact hm
    · rcases classify_range hb with ⟨-, -, he', -⟩ | ⟨-, -, he'⟩ <;> omega
  small_lt := significand_lt hb

/-- Settles O58: in whichever order the datapath takes the operands, its sum stands for the exact sum,
which does not depend on the order. -/
theorem addDatapathEqualsExactSum : Obligations.AddDatapathEqualsExactSum := by
  intro mode a b va vb ha hb
  rw [addDatapath_eq, ordered]
  split
  · rename_i horder
    exact (orderedOperands_of_classify ha hb horder).datapath_eq_addFinite mode
  · rename_i horder
    rw [addFinite_comm]
    exact (orderedOperands_of_classify hb ha (by omega)).datapath_eq_addFinite mode

end Sys2Proof.Machine
end

section
/-! PROOFS. The step as a table of outcomes (spec 44_execution_engine.md R210 to R215, R220): the fetch's
two stops, the decoded instruction, the no-op, and which of them ends a step Halted. -/

namespace Sys2Proof.Machine

/-! ### What the fetch reads -/

/-- R211: a pc that is not a multiple of 4, whatever IMEM holds. -/
theorem fetch_misaligned {s : State} (h : s.pc.toNat % 4 ≠ 0) : s.fetch = .misaligned := by
  rw [State.fetch, if_neg (mt (low_bits_zero_iff s.pc).mp h)]

/-- R212: an aligned pc at or above the length of IMEM. -/
theorem fetch_outOfRange {s : State} (ha : s.pc.toNat % 4 = 0)
    (hlen : s.imem.length ≤ s.pc.toNat / 4) : s.fetch = .outOfRange := by
  rw [State.fetch, if_pos ((low_bits_zero_iff s.pc).mpr ha), List.getElem?_eq_none hlen]

/-- Settles O28: the fetch stops at the alignment check, before it looks at IMEM. -/
theorem misalignedFetchFaults : Obligations.MisalignedFetchFaults := fun s hst hpc =>
  ⟨_, step_misaligned hst (fetch_misaligned hpc), raiseFault_effect s .fetchMisaligned s.pc⟩

/-- Settles O29: the empty image is the case of length 0, where pc = 0 is already beyond the end. -/
theorem pcBeyondImageHalts : Obligations.PcBeyondImageHalts := by
  have beyond : ∀ s : State, s.status = .running → s.pc.toNat % 4 = 0 →
      s.imem.length ≤ s.pc.toNat / 4 → step s = .next { s with status := .halted } :=
    fun s hst ha hlen => step_outOfRange hst (fetch_outOfRange ha hlen)
  exact ⟨beyond, fun c => beyond (State.resetWith c []) rfl rfl (Nat.zero_le _)⟩

/-! ### What a fetched word does -/

/-- Settles O26: the step of a fetched word runs what the decoder answers. -/
theorem stepRunsDecodedInstruction : Obligations.StepRunsDecodedInstruction := by
  intro s w i hst ha hw hd
  rw [step_word hst (fetch_word ha hw), hd, runDecoded]

/-- R70, R214: the major opcodes of MISC-MEM, SYSTEM, AMO and floating point are none of the decoder's
nine. -/
theorem not_majorOpcode_of_unmodelled {opcode : BitVec 7} (h : opcode ∈ [0x0F#7, 0x73#7, 0x2F#7,
    0x07#7, 0x27#7, 0x43#7, 0x47#7, 0x4B#7, 0x4F#7, 0x53#7]) :
    opcode ∉ [0x37#7, 0x17#7, 0x6F#7, 0x67#7, 0x63#7, 0x03#7, 0x23#7, 0x13#7, 0x33#7] := by
  revert opcode
  decide

/-- Settles O27: the step of a fetched word that no row lists, and the opcodes outside the nine. -/
theorem unrecognisedWordIsNoOp : Obligations.UnrecognisedWordIsNoOp :=
  ⟨fun _ _ _ hst ha hw hd => step_unrecognised hst (fetch_word ha hw) hd,
    fun bs _ hop => ⟨.majorOpcode, decode_of_no_majorOpcode bs (not_majorOpcode_of_unmodelled hop)⟩⟩

/-! ### The five outcomes -/

/-- R216, R220, R270: an instruction that is not the halt sentinel commits, which keeps the control
fields and clears the slot of x0, or faults at a misaligned address. -/
theorem ExecShape.committed_or_faulted {i : Instr} {s t : State} (h : ExecShape i s t)
    (hi : i ≠ .halt) : (ControlKept s t ∧ t.x[0] = 0#32) ∨
      ∃ kind addr, FaultEffect s t kind addr ∧ addr.extractLsb' 0 2 ≠ 0#2 := by
  cases h with
  | reg | pc | store => exact .inl ⟨commit_control .., commit_slot0 ..⟩
  | fault kind addr _ _ ha => exact .inr ⟨kind, addr, raiseFault_effect s kind addr, ha⟩
  | halt h => exact absurd h hi

/-- R213: only the halt sentinel decodes to HALT, since a decoded word is its instruction's encoding. -/
theorem eq_haltWord_of_decode {bs : BranchSet} {w : Word} (h : decode bs w = .instr .halt) :
    w = haltWord :=
  (encodeOfDecodeGivesWord bs w .halt h).1.symm

/-- Settles O31: each shape of a step is a row of the table, and an instruction's shape is the first
row, the halt or the fault. -/
theorem everyStepIsOneOfFiveOutcomes : Obligations.EveryStepIsOneOfFiveOutcomes := by
  intro s
  obtain ⟨t, hstep, hshape⟩ := step_shape s
  refine ⟨t, hstep, fun hst => ?_, fun hst => ?_⟩
  · rw [step_of_not_running hst] at hstep
    exact (Host.Outcome.next.inj hstep).symm
  · cases hshape with
    | terminal hstopped => exact absurd hst hstopped
    | fetchFault _ _ ha =>
      exact .inr (.inr (.inr (.inr ⟨_, _, raiseFault_effect s .fetchMisaligned s.pc, ha⟩)))
    | beyond _ hf => exact .inr (.inr (.inl ⟨hf, rfl⟩))
    | noop w why _ hf hd => exact .inr (.inl ⟨w, why, hf, hd, commitPc_effect s _⟩)
    | instr w i _ hf _ hd hexec hshape =>
      by_cases hi : i = .halt
      · subst hi
        have ht : t = s.halt := (Host.Outcome.next.inj hexec).symm
        exact .inr (.inr (.inr (.inl ⟨hf.trans (congrArg _ (eq_haltWord_of_decode hd)), ht⟩)))
      · obtain ⟨hcontrol, hslot0⟩ | hfault := hshape.committed_or_faulted hi
        · exact .inl ⟨w, i, hf, hd, hi, hexec, hcontrol.status.trans hst, hcontrol, hslot0⟩
        · exact .inr (.inr (.inr (.inr hfault)))

/-! ### The halt sentinel -/

/-- R213: among the outcomes of a step that fetched a word, only the halt sentinel's is Halted. -/
theorem eq_haltWord_of_step_halted {s t : State} {w : Word} (hst : s.status = .running)
    (hf : s.fetch = .word w) (hstep : step s = .next t) (ht : t.status = .halted) : w = haltWord := by
  obtain ⟨u, hu, -, houtcome⟩ := everyStepIsOneOfFiveOutcomes s
  obtain rfl : u = t := Host.Outcome.next.inj (hu.symm.trans hstep)
  obtain ⟨_, _, _, _, _, _, hrun, _⟩ | ⟨_, _, _, _, heffect⟩ | ⟨hf', _⟩ | ⟨hf', _⟩ |
    ⟨_, _, hfault, _⟩ := houtcome hst
  · rw [ht] at hrun; cases hrun
  · rw [heffect.control.status, hst] at ht; cases ht
  · rw [hf] at hf'; cases hf'
  · exact Fetched.word.inj (hf.symm.trans hf')
  · rw [hfault] at ht; cases ht

/-- R213: the halt sentinel ends the step Halted and changes nothing else. -/
theorem step_haltWord {s : State} (hst : s.status = .running) (hf : s.fetch = .word haltWord) :
    step s = .next s.halt := by
  rw [step_word hst hf, decode_haltWord, runDecoded, exec_halt]

/-- R233: a JAL of an even offset, the halt sentinel apart, has an encoding of its own. -/
theorem wellFormed_jal {rd : RegIdx} {offset : BitVec 21} (heven : offset.getLsbD 0 = false)
    (hne : ¬ (rd = 0#5 ∧ offset = 0#21)) : (Instr.jal rd offset).wellFormed = true := by
  have hsentinel : isHaltSentinel rd offset = false := by simpa [isHaltSentinel] using hne
  rw [Instr.wellFormed, evenOffset, heven, hsentinel]
  rfl

/-- Settles O21: the sentinel's own step, and the outcomes of every other fetched word. -/
theorem onlyHaltSentinelHalts : Obligations.OnlyHaltSentinelHalts := by
  refine ⟨decode_haltWord, fun s => exec_halt s, fun bs rd offset heven hne => ?_,
    fun s w hst ha hw => ?_⟩
  · exact decodeOfEncodeGivesInstruction bs (.jal rd offset) (wellFormed_jal heven hne) rfl
  · have hf : s.fetch = .word w := fetch_word ha hw
    constructor
    · rintro ⟨t, hstep, ht⟩
      exact eq_haltWord_of_step_halted hst hf hstep ht
    · rintro rfl
      exact ⟨s.halt, step_haltWord hst hf, rfl⟩

end Sys2Proof.Machine
end

section
/-! PROOFS. Control transfer (spec 45_control_transfer.md R230 to R240): upper immediates, jumps with
their link and the fetch of their target, and branches. -/

namespace Sys2Proof.Machine

/-! ### Upper immediates -/

/-- R66: the U-immediate is the field times 2^12. -/
theorem immUpper_eq_ofNat (imm20 : BitVec 20) :
    immUpper imm20 = BitVec.ofNat 32 (imm20.toNat * 4096) := by
  have := imm20.isLt
  apply BitVec.eq_of_toNat_eq
  rw [immUpper, BitVec.toNat_append, BitVec.toNat_ofNat, BitVec.toNat_ofNat, Nat.zero_mod,
    Nat.or_zero, Nat.shiftLeft_eq]
  omega

/-- Settles O16: both commit the U-immediate, AUIPC with the pc added. -/
theorem upperImmediatesWriteUpperBits : Obligations.UpperImmediatesWriteUpperBits :=
  fun bs rd imm20 _ =>
  ⟨decodeOfEncodeGivesInstruction bs (.lui rd imm20) rfl rfl,
    decodeOfEncodeGivesInstruction bs (.auipc rd imm20) rfl rfl,
    exec_writes (exec_lui ..) (immUpper_eq_ofNat imm20),
    exec_writes (exec_auipc ..) (by rw [immUpper_eq_ofNat])⟩

/-! ### Jumps -/

/-- R230: a jump writes the link and the pc, and no more. -/
theorem jump_effect (s : State) (rd : RegIdx) (target : Word) :
    RegisterEffect s (s.jump rd target) rd (s.pc + 4#32) target :=
  commit_reg_effect s rd _ target

/-- R230, R211: a target that is not a multiple of 4 faults at the fetch after the jump. -/
theorem step_jump_misaligned {s : State} (rd : RegIdx) {target : Word} (hst : s.status = .running)
    (ha : target.extractLsb' 0 2 ≠ 0#2) : ∃ u, step (s.jump rd target) = .next u ∧
      FaultEffect (s.jump rd target) u .fetchMisaligned target :=
  misalignedFetchFaults (s.jump rd target) ((jump_effect s rd target).control.status.trans hst)
    (mt (low_bits_zero_iff target).mpr ha)

/-- Settles O17: a well-formed JAL has its own word, and the rest is the jump to pc + offset. -/
theorem jalLinksAndJumps : Obligations.JalLinksAndJumps := fun bs rd offset s =>
  ⟨fun heven hne =>
      decodeOfEncodeGivesInstruction bs (.jal rd offset) (wellFormed_jal heven hne) rfl,
    decode_haltWord bs,
    s.jump rd (s.jalTarget offset), exec_jal .., jump_effect .., step_jump_misaligned rd⟩

/-- Clearing bit 0 rounds down to an even number. -/
theorem clearBit0_eq_ofNat (x : Word) :
    x &&& 0xFFFFFFFE#32 = BitVec.ofNat 32 (x.toNat / 2 * 2) := by
  have := x.isLt
  have hdiv : (x.toNat &&& 0xFFFFFFFE) / 2 = x.toNat / 2 := by
    rw [Nat.and_div_two]
    exact (Nat.and_two_pow_sub_one_eq_mod _ 31).trans (Nat.mod_eq_of_lt (by omega))
  have hmod : (x.toNat &&& 0xFFFFFFFE) % 2 = 0 := by
    rw [Nat.and_mod_two_pow (n := 1)]
    exact Nat.and_zero _
  apply BitVec.eq_of_toNat_eq
  rw [BitVec.toNat_and, BitVec.toNat_ofNat, BitVec.toNat_ofNat,
    Nat.mod_eq_of_lt (a := 0xFFFFFFFE) (by decide)]
  omega

/-- R234: the target of JALR is the sum, rounded down to an even number. -/
theorem jalrTarget_eq_ofNat (s : State) (rs1 : RegIdx) (imm : BitVec 12) : s.jalrTarget rs1 imm =
    BitVec.ofNat 32 ((s.readReg rs1 + BitVec.ofInt 32 imm.toInt).toNat / 2 * 2) :=
  clearBit0_eq_ofNat _

/-- R74: JALR words with another funct3. -/
theorem decode_jalr_unrecognised (bs : BranchSet) (rd rs1 : RegIdx) (imm : BitVec 12) {f : BitVec 3}
    (hf : f ≠ 0b000#3) :
    decode bs (encodeI imm rs1 f rd 0b1100111#7) = .unrecognised .jalrFunction := by
  rw [decode_jalr (opcodeOf_encodeI ..), decodeJalr, funct3Of_encodeI]
  split
  · contradiction
  · rfl

/-- R211: bit 1 is one of the two alignment bits. -/
theorem low_bits_ne_zero_of_bit1 {x : Word} (h : x.getLsbD 1 = true) : x.extractLsb' 0 2 ≠ 0#2 := by
  intro hlow
  have hbit : (x.extractLsb' 0 2).getLsbD 1 = true := (BitVec.getLsbD_extractLsb' ..).trans h
  rw [hlow] at hbit
  contradiction

/-- Settles O18: the target is read from the state before the link is written, and its bit 1 is left
for the next fetch to find. -/
theorem jalrLinksAndJumps : Obligations.JalrLinksAndJumps := fun bs rd rs1 imm _ s =>
  ⟨decodeOfEncodeGivesInstruction bs (.jalr rd rs1 imm) rfl rfl,
    decode_jalr_unrecognised bs rd rs1 imm,
    s.jump rd (s.jalrTarget rs1 imm), exec_jalr ..,
    jalrTarget_eq_ofNat s rs1 imm ▸ jump_effect ..,
    fun hst hbit => step_jump_misaligned rd hst (low_bits_ne_zero_of_bit1 hbit)⟩

/-! ### Branches -/

/-- R235: a branch whose condition says `p` sets the pc by `p` and changes nothing else. -/
theorem exec_branches {i : Instr} {s : State} {taken : Bool} {offset : BitVec 13} {p : Prop}
    [Decidable p] (hexec : exec i s = branchIf taken offset s) (hp : taken = true ↔ p) :
    ∃ t, exec i s = .next t ∧
      PcEffect s t (if p then s.pc + BitVec.ofInt 32 offset.toInt else s.pc + 4#32) := by
  refine ⟨_, hexec, ?_⟩
  simp only [← hp]
  exact commitPc_effect s _

/-- The same, of the condition under which the branch is not taken. -/
theorem exec_branches_unless {i : Instr} {s : State} {taken : Bool} {offset : BitVec 13} {p : Prop}
    [Decidable p] (hexec : exec i s = branchIf taken offset s) (hp : taken = true ↔ ¬ p) :
    ∃ t, exec i s = .next t ∧
      PcEffect s t (if p then s.pc + 4#32 else s.pc + BitVec.ofInt 32 offset.toInt) := by
  rw [← ite_not]
  exact exec_branches hexec hp

theorem evenOffset_of_bit0 {n : Nat} {offset : BitVec n} (h : offset.getLsbD 0 = false) :
    evenOffset offset = true := by
  rw [evenOffset, h]
  rfl

/-- Settles O19: the words are encodings, and BNE branches where BEQ does not. -/
theorem equalityBranchesRedirectPc : Obligations.EqualityBranchesRedirectPc :=
  fun bs rs1 rs2 offset _ =>
  ⟨fun heven => ⟨
      decodeOfEncodeGivesInstruction bs (.beq rs1 rs2 offset) (evenOffset_of_bit0 heven) rfl,
      decodeOfEncodeGivesInstruction bs (.bne rs1 rs2 offset) (evenOffset_of_bit0 heven) rfl⟩,
    exec_branches (exec_beq ..) decide_eq_true_iff,
    exec_branches_unless (exec_bne ..) decide_eq_true_iff⟩

/-- R74: under EQ_NE_ONLY a BRANCH word is of BEQ, of BNE or unrecognised. -/
theorem decode_branch_unrecognised (rs1 rs2 : RegIdx) (offset : BitVec 13) {f : BitVec 3}
    (hf : f ≠ 0b000#3) (hf' : f ≠ 0b001#3) :
    decode .eqNeOnly (encodeB offset rs2 rs1 f 0b1100011#7) = .unrecognised .branchFunction := by
  rw [decode_branch (opcodeOf_encodeB ..), decodeBranch, funct3Of_encodeB]
  split
  case h_1 | h_2 => contradiction
  all_goals rfl

/-- R214: so under EQ_NE_ONLY a step on such a word is the no-op. -/
theorem step_branch_unrecognised {s : State} {rs1 rs2 : RegIdx} {offset : BitVec 13} {f : BitVec 3}
    (hf : f ≠ 0b000#3) (hf' : f ≠ 0b001#3) (hst : s.status = .running)
    (hbs : s.config.branchSet = .eqNeOnly)
    (hfetch : s.fetch = .word (encodeB offset rs2 rs1 f 0b1100011#7)) :
    ∃ t, step s = .next t ∧ PcEffect s t (s.pc + 4#32) :=
  step_unrecognised hst hfetch (hbs ▸ decode_branch_unrecognised rs1 rs2 offset hf hf')

/-- Settles O20: each word is an encoding under FULL and of no branch under EQ_NE_ONLY, and BGE and
BGEU branch where BLT and BLTU do not. -/
theorem orderBranchesRedirectPcUnderFull : Obligations.OrderBranchesRedirectPcUnderFull := by
  intro rs1 rs2 offset s
  refine ⟨fun heven p hp => ?_,
    exec_branches (exec_blt ..) decide_eq_true_iff,
    exec_branches_unless (exec_bge ..) (decide_eq_true_iff.trans Int.not_lt.symm),
    exec_branches (exec_bltu ..) decide_eq_true_iff,
    exec_branches_unless (exec_bgeu ..) (decide_eq_true_iff.trans Nat.not_lt.symm)⟩
  have hrow : p.1 ≠ 0b000#3 ∧ p.1 ≠ 0b001#3 ∧
      encode p.2 = encodeB offset rs2 rs1 p.1 0b1100011#7 ∧ p.2.wellFormed = true ∧
      p.2.mnemonic.availableIn .full = true := by
    simp only [List.mem_cons, List.not_mem_nil, or_false] at hp
    obtain rfl | rfl | rfl | rfl := hp
    all_goals exact ⟨by simp, by simp, rfl, evenOffset_of_bit0 heven, rfl⟩
  obtain ⟨hf, hf', hencode, hwf, hfull⟩ := hrow
  have hdecode := decodeOfEncodeGivesInstruction .full p.2 hwf hfull
  rw [hencode] at hdecode
  exact ⟨hdecode, decode_branch_unrecognised rs1 rs2 offset hf hf',
    step_branch_unrecognised hf hf'⟩

end Sys2Proof.Machine
end

section
/-! PROOFS. Loads and stores (spec 46_load_store.md R250 to R260): each decodes from its word, and by the
alignment of its address completes or faults. -/

namespace Sys2Proof.Machine

/-! ### Alignment -/

/-- R48: a halfword address is misaligned where its bit 0 is 1. -/
theorem half_misaligned_iff (addr : Word) :
    Width.half.aligned addr ≠ true ↔ addr.getLsbD 0 = true := by
  rw [Ne, half_aligned_iff, Bool.not_eq_false]

/-- R48: a word address is misaligned where its bits [1:0] are not 0. -/
theorem word_misaligned_iff (addr : Word) :
    Width.word.aligned addr ≠ true ↔ addr.extractLsb' 0 2 ≠ 0#2 :=
  (word_aligned_iff addr).not

/-- R43: the bytes of an aligned word lie on one side of a base that is a multiple of 4. -/
theorem base_le_word_byte_iff {base ea : Word} (hbase : base.extractLsb' 0 2 = 0#2)
    (hea : ea.extractLsb' 0 2 = 0#2) {i : Nat} (hi : i < 4) :
    base ≤ ea + BitVec.ofNat 32 i ↔ base ≤ ea := by
  rw [BitVec.le_def, BitVec.le_def, toNat_add_of_word_aligned hea hi]
  rw [low_bits_zero_iff] at hbase hea
  omega

/-! ### The values loads extend -/

/-- R47, R253: the sign of a halfword is that of its high byte. -/
theorem toInt_memRead16 (s : State) (addr : Word) : (s.memRead16 addr).toInt =
    (s.readByte (addr + 1#32)).toInt * 256 + (s.readByte addr).toNat := by
  rw [State.memRead16, BitVec.toInt_append, if_neg (by decide), Int.mul_comm]
  rfl

/-- R252: LB sign-extends the byte. -/
theorem signExtend_memRead8 (s : State) (addr : Word) :
    (s.memRead8 addr).signExtend 32 = BitVec.ofInt 32 (s.readByte addr).toInt := rfl

/-- R255: LBU zero-extends the byte. -/
theorem setWidth_memRead8 (s : State) (addr : Word) :
    (s.memRead8 addr).setWidth 32 = BitVec.ofNat 32 (s.readByte addr).toNat :=
  (BitVec.ofNat_toNat ..).symm

/-- R253: LH sign-extends the halfword. -/
theorem signExtend_memRead16 (s : State) (addr : Word) : (s.memRead16 addr).signExtend 32 =
    BitVec.ofInt 32 ((s.readByte (addr + 1#32)).toInt * 256 + (s.readByte addr).toNat) :=
  congrArg _ (toInt_memRead16 s addr)

/-- R256: LHU zero-extends the halfword. -/
theorem setWidth_memRead16 (s : State) (addr : Word) : (s.memRead16 addr).setWidth 32 =
    BitVec.ofNat 32 ((s.readByte (addr + 1#32)).toNat * 256 + (s.readByte addr).toNat) :=
  (BitVec.ofNat_toNat ..).symm.trans (congrArg _ (memRead16_toNat s addr))

/-- R254: LW reads the word as it stands. -/
theorem memRead32_eq_ofNat (s : State) (addr : Word) : s.memRead32 addr =
    BitVec.ofNat 32 ((s.readByte (addr + 3#32)).toNat * 2 ^ 24
      + (s.readByte (addr + 2#32)).toNat * 2 ^ 16 + (s.readByte (addr + 1#32)).toNat * 2 ^ 8
      + (s.readByte addr).toNat) := by
  rw [← memRead32_toNat, BitVec.ofNat_toNat, BitVec.setWidth_eq]

/-! ### Completing or faulting -/

section
variable {i : Instr} {s : State} {width : Width} {rs1 : RegIdx} {imm : BitVec 12}

/-- R250: a load at an address aligned for it has the frame of a register write. -/
theorem exec_loads {value : State → Word → Word} {rd : RegIdx} {v : Word}
    (hexec : exec i s = loadWith width value rd rs1 imm s)
    (ha : width.aligned (s.loadAddress rs1 imm) = true)
    (hv : value s (s.loadAddress rs1 imm) = v) :
    ∃ t, exec i s = .next t ∧ RegisterEffect s t rd v (s.pc + 4#32) := by
  rw [hexec, ← hv]
  exact loadWith_effect ha value rd

/-- R251, R270: a load at a misaligned address faults, whatever its rd. -/
theorem exec_load_faults {value : State → Word → Word} {rd : RegIdx}
    (hexec : exec i s = loadWith width value rd rs1 imm s)
    (ha : width.aligned (s.loadAddress rs1 imm) ≠ true) :
    ∃ t, exec i s = .next t ∧ FaultEffect s t .loadMisaligned (s.loadAddress rs1 imm) :=
  ⟨_, hexec.trans (loadWith_misaligned ha value rd), raiseFault_effect ..⟩

/-- R250: a store at an address aligned for it commits its bytes. -/
theorem exec_stores {rs2 : RegIdx} (hmem : s.dmem.wf = true)
    (hexec : exec i s = storeWith width rs2 rs1 imm s)
    (ha : width.aligned (s.storeAddress rs1 imm) = true) :
    ∃ t, exec i s = .next t ∧
      StoredEffect s t (s.storeAddress rs1 imm) width.bytes (s.readReg rs2) := by
  have hbytes : width.bytes ≤ 4 := by cases width <;> decide
  exact ⟨_, hexec.trans (storeWith_aligned ha rs2), commit_store_effect hmem _ hbytes _⟩

/-- R251, R270: a store at a misaligned address faults. -/
theorem exec_store_faults {rs2 : RegIdx} (hexec : exec i s = storeWith width rs2 rs1 imm s)
    (ha : width.aligned (s.storeAddress rs1 imm) ≠ true) :
    ∃ t, exec i s = .next t ∧ FaultEffect s t .storeMisaligned (s.storeAddress rs1 imm) :=
  ⟨_, hexec.trans (storeWith_misaligned ha rs2), raiseFault_effect ..⟩

end

/-- Settles O22: the words are encodings, and each load, by the alignment of its address, commits the
value it extends or faults. -/
theorem loadsWriteExtendedBytesOrFault : Obligations.LoadsWriteExtendedBytesOrFault := by
  intro bs rd rs1 imm s ea hea
  obtain rfl : ea = s.loadAddress rs1 imm := hea
  exact ⟨decodeOfEncodeGivesInstruction bs (.lb rd rs1 imm) rfl rfl,
    decodeOfEncodeGivesInstruction bs (.lh rd rs1 imm) rfl rfl,
    decodeOfEncodeGivesInstruction bs (.lw rd rs1 imm) rfl rfl,
    decodeOfEncodeGivesInstruction bs (.lbu rd rs1 imm) rfl rfl,
    decodeOfEncodeGivesInstruction bs (.lhu rd rs1 imm) rfl rfl,
    exec_loads (exec_lb ..) rfl (signExtend_memRead8 ..),
    exec_loads (exec_lbu ..) rfl (setWidth_memRead8 ..),
    fun heven => ⟨
      exec_loads (exec_lh ..) ((half_aligned_iff _).mpr heven) (signExtend_memRead16 ..),
      exec_loads (exec_lhu ..) ((half_aligned_iff _).mpr heven) (setWidth_memRead16 ..)⟩,
    fun hodd => ⟨
      exec_load_faults (exec_lh ..) ((half_misaligned_iff _).mpr hodd),
      exec_load_faults (exec_lhu ..) ((half_misaligned_iff _).mpr hodd)⟩,
    fun hlow => exec_loads (exec_lw ..) ((word_aligned_iff _).mpr hlow) (memRead32_eq_ofNat ..),
    fun hlow => exec_load_faults (exec_lw ..) ((word_misaligned_iff _).mpr hlow),
    readByte_unmapped,
    fun hbase hlow _ => base_le_word_byte_iff hbase hlow⟩

/-- Settles O23: the words are encodings, and each store, by the alignment of its address, commits its
bytes or faults. -/
theorem storesWriteBytesOrEmitOrFault : Obligations.StoresWriteBytesOrEmitOrFault := by
  rintro bs rs2 rs1 imm s ea hmem rfl
  exact ⟨rfl,
    decodeOfEncodeGivesInstruction bs (.sb rs2 rs1 imm) rfl rfl,
    decodeOfEncodeGivesInstruction bs (.sh rs2 rs1 imm) rfl rfl,
    decodeOfEncodeGivesInstruction bs (.sw rs2 rs1 imm) rfl rfl,
    exec_stores hmem (exec_sb ..) rfl,
    fun heven => exec_stores hmem (exec_sh ..) ((half_aligned_iff _).mpr heven),
    fun hodd => exec_store_faults (exec_sh ..) ((half_misaligned_iff _).mpr hodd),
    fun hlow => exec_stores hmem (exec_sw ..) ((word_aligned_iff _).mpr hlow),
    fun hlow => exec_store_faults (exec_sw ..) ((word_misaligned_iff _).mpr hlow)⟩

end Sys2Proof.Machine
end

section
/-! PROOFS. Faults are precise and final (spec 60_exceptions.md R270, R275). -/

namespace Sys2Proof.Machine

/-- R270: of the outcomes of a step from Running, only the fault's status is Faulted. -/
theorem faultEffect_of_step_faulted {s t : State} (hst : s.status = .running)
    (hstep : step s = .next t) (ht : t.status = .faulted) :
    ∃ kind addr, FaultEffect s t kind addr ∧ addr.extractLsb' 0 2 ≠ 0#2 := by
  obtain ⟨u, hu, -, houtcome⟩ := everyStepIsOneOfFiveOutcomes s
  obtain rfl : u = t := Host.Outcome.next.inj (hu.symm.trans hstep)
  obtain ⟨_, _, _, _, _, _, hrun, _⟩ | ⟨_, _, _, _, heffect⟩ | ⟨_, hhalt⟩ | ⟨_, hhalt⟩ | hfault :=
    houtcome hst
  · rw [ht] at hrun; cases hrun
  · rw [heffect.control.status, hst] at ht; cases ht
  · rw [hhalt] at ht; cases ht
  · rw [hhalt] at ht; cases ht
  · exact hfault

/-- Settles O38: the step is the fault's row of the outcomes, and a Faulted state is terminal. -/
theorem faultsArePreciseAndFinal : Obligations.FaultsArePreciseAndFinal := by
  intro s t hst hstep ht
  obtain ⟨kind, addr, heffect, haddr⟩ := faultEffect_of_step_faulted hst hstep ht
  have hterminal : t.status ≠ .running := by rw [ht]; decide
  exact ⟨kind, addr, heffect, haddr, (terminalStatusNeverChanges t hterminal).2⟩

end Sys2Proof.Machine
end

section
/-! PROOFS. Reset leaves the state of its table (spec 70_reset_and_hazards.md R290). -/

namespace Sys2Proof.Machine

/-- R37: every register slot holds 0 at reset. -/
theorem resetWith_x_getElem (c : Config) (image : List Word) {i : Nat} (hi : i < 32) :
    (State.resetWith c image).x[i] = 0#32 :=
  Vector.getElem_replicate hi

/-- R37: every register reads 0 at reset. -/
theorem readReg_resetWith (c : Config) (image : List Word) (r : RegIdx) :
    (State.resetWith c image).readReg r = 0#32 := by
  rw [State.readReg, resetWith_x_getElem c image r.isLt, ite_self]

/-- R42: every byte of data memory reads 0 at reset, mapped or not. -/
theorem readByte_resetWith (c : Config) (image : List Word) (a : Word) :
    (State.resetWith c image).readByte a = 0#8 := by
  have hread : (State.resetWith c image).dmem.read a.toNat = 0#8 := rfl
  rw [State.readByte, hread, ite_self]

/-- Settles O34: the registers and the bytes read 0, the other fields of the table are those of
`State.resetWith`, and a terminal state is a fixed point of the step. -/
theorem resetLeavesSpecifiedState : Obligations.ResetLeavesSpecifiedState := by
  refine ⟨fun c image => ⟨readReg_resetWith c image, fun i => resetWith_x_getElem c image i.isLt,
    rfl, rfl, rfl, fun _ => rfl, readByte_resetWith c image, rfl, rfl, rfl⟩, ?_⟩
  intro s t hterminal hstep
  obtain rfl : s = t := Host.Outcome.next.inj ((step_of_not_running hterminal).symm.trans hstep)
  rfl

end Sys2Proof.Machine
end

section
/-! PROOFS. The bounded driving loop: where it stops, what it reports, and the run it stands for
(spec 70_reset_and_hazards.md R294, R296). -/

namespace Sys2Proof.Machine

/-! ### The loop's equations -/

/-- R220: every step answers a next state, which is the one the loop goes on with. -/
theorem step_eq_next_afterStep (s : State) : step s = .next s.afterStep := by
  obtain ⟨t, hstep, -⟩ := step_shape s
  rw [State.afterStep, hstep]

/-- A terminal state ends the loop at once, whatever budget is left. -/
theorem driveLoop_of_not_running {s : State} (h : s.status ≠ .running) (budget n : Nat) :
    driveLoop budget n s = ⟨hostStatus s, s, n⟩ := by
  cases budget with
  | zero => rfl
  | succ budget => rw [driveLoop, if_neg h]

/-- While the core runs and budget is left, the loop takes a step. -/
theorem driveLoop_succ_of_running {s : State} (h : s.status = .running) (budget n : Nat) :
    driveLoop (budget + 1) n s = driveLoop budget (n + 1) s.afterStep := by
  rw [driveLoop, if_pos h]

/-- One step and then `k` more are `k + 1` steps of the machine. -/
theorem run_succ_eq_run_afterStep (k : Nat) (s : State) :
    Sys2Proof.core.run (k + 1) s = Sys2Proof.core.run k s.afterStep := by
  have hstep : Sys2Proof.core.step s = .next s.afterStep := step_eq_next_afterStep s
  simp only [Host.Core.run, hstep]

/-! ### Where the loop stops -/

/-- R296: the loop reports the state that the machine reaches in some number of steps, which is the
whole budget unless that state is terminal. -/
theorem driveLoop_eq_run (budget n : Nat) (s : State) : ∃ k t,
    driveLoop budget n s = ⟨hostStatus t, t, n + k⟩ ∧ k ≤ budget ∧
      (k < budget → t.status ≠ .running) ∧ Sys2Proof.core.run k s = .next t := by
  induction budget generalizing n s with
  | zero => exact ⟨0, s, rfl, le_rfl, fun h => absurd h (Nat.lt_irrefl 0), rfl⟩
  | succ budget ih =>
    by_cases hst : s.status = .running
    · obtain ⟨k, t, hloop, hle, hearly, hrun⟩ := ih (n + 1) s.afterStep
      refine ⟨k + 1, t, ?_, Nat.succ_le_succ hle, fun h => hearly (Nat.lt_of_succ_lt_succ h), ?_⟩
      · rw [driveLoop_succ_of_running hst, hloop, Nat.add_right_comm, Nat.add_assoc]
      · rw [run_succ_eq_run_afterStep, hrun]
    · exact ⟨0, s, driveLoop_of_not_running hst .., Nat.zero_le _, fun _ => hst, rfl⟩

/-- R296: budget beyond the end of a run is not used. -/
theorem driveLoop_add_of_not_running {budget n : Nat} {s : State}
    (h : (driveLoop budget n s).state.status ≠ .running) (more : Nat) :
    driveLoop (budget + more) n s = driveLoop budget n s := by
  induction budget generalizing n s with
  | zero => exact driveLoop_of_not_running h ..
  | succ budget ih =>
    by_cases hst : s.status = .running
    · rw [driveLoop_succ_of_running hst] at h ⊢
      rw [Nat.add_right_comm, driveLoop_succ_of_running hst, ih h]
    · rw [driveLoop_of_not_running hst, driveLoop_of_not_running hst]

/-! ### What the loop reports -/

/-- R294: the host status names the run status of the last state. -/
theorem hostStatus_iff (s : State) :
    (hostStatus s = .halted ↔ s.status = .halted) ∧
      (hostStatus s = .faulted ↔ s.status = .faulted) ∧
      (hostStatus s = .budgetExhausted ↔ s.status = .running) := by
  rw [hostStatus]
  cases s.status with
  | running => decide
  | halted => decide
  | faulted => decide

/-- Settles O59: the loop's result is the host status of a state of the run, and a loop that ended
in a terminal state leaves the rest of its budget. -/
theorem drivingLoopStopsAtBudgetOrTerminal : Obligations.DrivingLoopStopsAtBudgetOrTerminal := by
  intro budget s
  have hmore := driveLoop_add_of_not_running (budget := budget) (n := 0) (s := s)
  obtain ⟨k, t, hloop, hle, hearly, hrun⟩ := driveLoop_eq_run budget 0 s
  obtain ⟨hhalted, hfaulted, hexhausted⟩ := hostStatus_iff t
  rw [Nat.zero_add] at hloop
  rw [hloop] at hmore ⊢
  exact ⟨hle, hearly, hhalted, hfaulted, hexhausted, hrun, hmore⟩

end Sys2Proof.Machine
end
